-- ==== Sys2Proof/Word.lean ====
section
/-! DEFINITION. The word types of the machine: bytes, the 32-bit registers of the register file, and the two sample
channels. Little-endian assembly and bit slicing stand in Machine/Format.lean. -/

namespace Sys2Proof

/-- A byte is 8 bits (spec/00_scope.md R12). -/
abbrev Byte := BitVec 8

/-- A register of the register file (spec/10_state.md R101). -/
abbrev Word := BitVec 32

/-- A sample accumulator, holding its N-bit value sign-extended to 16 bits (spec/10_state.md R130; entry 14). -/
abbrev Sample := BitVec 16

/-- The number of a sample accumulator, `running[0]` (`false`) or `running[1]` (`true`): the values of `flip`
(spec/10_state.md R131). -/
abbrev Chan := Bool

end Sys2Proof
end

