-- ==== Sys2Proof/Syntax.lean ====
section
/-! DEFINITION. The instructions: one constructor per row of spec/opcode_table.json, with the operands that
spec/30_encoding.md R330 to R337 and R350 give it. -/

namespace Sys2Proof

/-- The codes of a compressed block's bitstream, the two implicit operations of its decode, and the host's commands.
A differential's field `d` is a sign and a magnitude (spec/30_encoding.md R321); the widest field has 8 bits, so a
magnitude has at most 7. -/
inductive Instr where
  /-- SKIP: exponent 0, run-length off (R331, R610). -/
  | skip
  /-- RUN0: exponent 0, run-length on, flag 0 (R332, R611). -/
  | run0
  /-- RUN2: run length `k` in 0..2 (R332, R612). -/
  | run2 (k : BitVec 2)
  /-- RUN8: run length `k` in 0..255 (R333, R613). -/
  | run8 (k : BitVec 8)
  /-- DIFF1: exponent 1 (R334, R620). -/
  | diff1 (neg : Bool) (mag : BitVec 7)
  /-- DIFF2: exponent 2 (R334, R620). -/
  | diff2 (neg : Bool) (mag : BitVec 7)
  /-- DIFF3: exponent 3 (R334, R620). -/
  | diff3 (neg : Bool) (mag : BitVec 7)
  /-- DIFF4: exponent 4 (R334, R620). -/
  | diff4 (neg : Bool) (mag : BitVec 7)
  /-- DIFF5: exponent 5 (R334, R620). -/
  | diff5 (neg : Bool) (mag : BitVec 7)
  /-- DIFF6: exponent 6 (R334, R620). -/
  | diff6 (neg : Bool) (mag : BitVec 7)
  /-- ZERO: exponent 7, flag 1 (R335, R630). -/
  | zero
  /-- BIG: exponent 7, flag 0 (R336, R631). -/
  | big (neg : Bool) (mag : BitVec 7)
  /-- SEED: the verbatim first sample of channel `c` (R337, R603). -/
  | seed (c : Chan)
  /-- REPEAT: taken while `runlength > 0` (R337, R632). -/
  | repeatRun
  /-- NOP: command code 0 (R350, R102). -/
  | nop
  /-- OPEN: command code 1 (R350, R400). -/
  | openCmd
  /-- NEXT: command code 2 (R350, R500). -/
  | nextCmd
  /-- RESET: command code 3 (R350, R901). -/
  | resetCmd
  deriving DecidableEq, Repr

/-- What selects the meaning of a bit pattern in a block: the run-length flag, the compression level and the number
of channels (spec/30_encoding.md R338: no other state changes the decoding of a code; the channels matter only to
SEED, spec/43_bitstream_decode.md R603). -/
structure CodeCtx where
  rle : Bool
  level : Int
  stereo : Bool
  deriving DecidableEq, Repr

end Sys2Proof
end

