-- ==== Sys2Proof/Machine/Format.lean ====
section
/-! DEFINITION. Number formats: bit slices, little-endian assembly (spec/00_scope.md R13, spec/20_memory.md R207,
R208), the width and shift of a differential (spec/30_encoding.md R320), and the field read of the BitReader
(spec/44_bitreader.md R702 to R705). Nothing here needs the machine's state. -/

namespace Sys2Proof.Machine

/-! ### Bytes and integers -/

/-- `sint16(b0, b1)` as a 16-bit pattern: low byte first (R13). -/
def pair16 (b0 b1 : Byte) : BitVec 16 := b1 ++ b0

/-- `sint32(b0, .., b3)` as a 32-bit pattern: low byte first (R13). -/
def quad32 (b0 b1 b2 b3 : Byte) : Word := b3 ++ (b2 ++ (b1 ++ b0 : BitVec 16) : BitVec 24)

/-- `le16(v)`: the two bytes of `v mod 2^16`, least significant first (R13). -/
def le16 (v : Int) : List Byte :=
  let x := BitVec.ofInt 16 v
  [x.extractLsb' 0 8, x.extractLsb' 8 8]

/-- `le32(v)`: the four bytes of `v mod 2^32`, least significant first (R13). -/
def le32 (v : Int) : List Byte :=
  let x := BitVec.ofInt 32 v
  [x.extractLsb' 0 8, x.extractLsb' 8 8, x.extractLsb' 16 8, x.extractLsb' 24 8]

/-- The value of the 32-bit pattern of an integer, as R13's `wrapN` reads it: the register form of an exact value. -/
def toWord (v : Int) : Word := BitVec.ofInt 32 v

/-! ### Width and shift of a differential (R320) -/

/-- `B`: the width of the field of DIFF1 to DIFF6 at a level (R320). -/
def diffBits (lvl : Int) : Nat := if 3 ≤ lvl then (lvl + 3).toNat else (5 - lvl).toNat

/-- `S`: the shift of DIFF at a level and an exponent (R320). -/
def diffShift (lvl : Int) (e : Nat) : Nat := if 3 ≤ lvl then 1 + e else (2 + e + lvl).toNat

/-- `B7`: the width of the field of BIG at a level (R320). -/
def bigBits (lvl : Int) : Nat := if 3 ≤ lvl then 8 else (8 - lvl).toNat

/-- `S7`: the shift of BIG at a level (R320). -/
def bigShift (lvl : Int) : Nat := if 3 ≤ lvl then 9 else (9 + lvl).toNat

/-- The sign of a differential field `d` of `b` bits: its top bit (R321). -/
def fieldNeg (b d : Nat) : Bool := d / 2 ^ (b - 1) % 2 == 1

/-- The magnitude of a differential field `d` of `b` bits: the bits below the top one (R321). -/
def fieldMag (b d : Nat) : BitVec 7 := BitVec.ofNat 7 (d % 2 ^ (b - 1))

/-- The field of `b` bits with a sign and a magnitude, the inverse of `fieldNeg` and `fieldMag` (R321). -/
def signMagField (b : Nat) (neg : Bool) (mag : BitVec 7) : Nat :=
  mag.toNat + (if neg then 2 ^ (b - 1) else 0)

/-! ### Bits of a byte sequence (R208, R702, R703) -/

/-- Bit `p` of a byte sequence, as a number: bit `p mod 8` of byte `p div 8` (R208, R702). -/
def streamBit (byteAt : Nat → Byte) (p : Nat) : Nat :=
  if (byteAt (p / 8)).getLsbD (p % 8) then 1 else 0

/-- The value of the `n` bits from bit `p` on: the sum of `bit(p + j) * 2^j` (R208, R703). -/
def streamField (byteAt : Nat → Byte) (p : Nat) : Nat → Nat
  | 0 => 0
  | n + 1 => streamField byteAt p n + streamBit byteAt (p + n) * 2 ^ n

/-- When the BitReader reports exhaustion: parameter `P_EXHAUST` (spec/00_scope.md R10, spec/44_bitreader.md R705). -/
inductive ExhaustMode where
  /-- LAZY: a read fails only when it needs a bit that does not exist. -/
  | lazyEnd
  /-- EAGER: a read that ends exactly at the end of the bitstream fails too. -/
  | eagerEnd
  deriving DecidableEq, Repr

/-- `Exhausted(p, n, L)` (R705): `p` bits consumed, `n` wanted, `len` bytes in the bitstream. -/
def exhausted (m : ExhaustMode) (p n len : Nat) : Bool :=
  match m with
  | .lazyEnd => decide (8 * len < p + n)
  | .eagerEnd => decide (8 * len ≤ p + n)

/-- What one `ReadBits(n)` answers: a value, BitstreamExhausted, or the width the model refuses (R703 to R705). -/
inductive FieldRead where
  | value (v : Nat)
  | exhausted
  | badWidth
  deriving DecidableEq, Repr

/-- `ReadBits(n)` at bit `p` of a bitstream of `len` bytes (R703): a width outside 1..8 is refused (R704), then the
exhaustion check (R705), then the value. The cursor is the caller's. -/
def readField (m : ExhaustMode) (byteAt : Nat → Byte) (len p n : Nat) : FieldRead :=
  if n = 0 ∨ 8 < n then .badWidth
  else if exhausted m p n len then .exhausted
  else .value (streamField byteAt p n)

end Sys2Proof.Machine
end

