-- ==== Sys2Proof/Config.lean ====
section
/-! DEFINITION. What an implementation fixes (the parameters of spec/00_scope.md R10) and the free values: constants
without a body, so that nothing can be proved of what they are. -/

namespace Sys2Proof

open Machine

/-- `P_SEED_MODE` (spec/00_scope.md R10, spec/43_bitstream_decode.md R605). -/
inductive SeedMode where
  /-- SEED_EMIT: the seeded values are emitted directly. -/
  | seedEmit
  /-- CODE_EVERY: every emitted sample consumes a code. -/
  | codeEvery
  deriving DecidableEq, Repr

/-- `P_PARTIAL_OUTPUT` (spec/00_scope.md R10, spec/60_exceptions.md R822): left open, no default. -/
inductive PartialOutput where
  /-- PREFIX: a failing block's samples or bytes written before the failing step stay in the sink. -/
  | keepWritten
  /-- NONE: nothing of a failing block reaches the sink. -/
  | wholeBlocks
  deriving DecidableEq, Repr

/-- The parameters the model takes as arguments (spec/00_scope.md R10). No step writes them. -/
structure Params where
  seedMode : SeedMode
  exhaust : ExhaustMode
  partialOut : PartialOutput
  /-- `P_MAX_SCRATCH_BYTES`; `none` is unbounded. -/
  maxScratch : Option Nat
  deriving DecidableEq, Repr

/-- The defaults of R10. DESIGN CHOICE (entry 3): R10 gives `P_PARTIAL_OUTPUT` no default; unsafe for a claim that
rests on this value, so no statement does. -/
def Params.default : Params :=
  { seedMode := .seedEmit, exhaust := .lazyEnd, partialOut := .keepWritten, maxScratch := none }

/-- FREE VALUE (entry 5; spec/20_memory.md R233, I8): how many bytes a read that answers IOERR returned. -/
opaque Config.freeReadCount : Nat → Nat

/-- FREE VALUE (entry 6; spec/60_exceptions.md R823, I8): SRC_POS after an error. -/
opaque Config.freeSrcPos : Nat → Nat

/-- FREE VALUE (entry 6; R823): how far past the failing step's start the source stands after an error. -/
opaque Config.freeSrcSkip : Nat → Nat

/-- FREE VALUE (entry 7; spec/20_memory.md R234, I9): how many bytes of a failed write reached the sink. -/
opaque Config.freeWriteCount : Nat → Nat

/-- FREE VALUE (entry 8; spec/10_state.md R150, I7): what a scratch byte holds that nothing has written. -/
opaque Config.unwrittenScratch : Nat → Byte

/-- FREE VALUE (entry 8; R150, I7): what an offset-table entry holds that nothing has written. -/
opaque Config.unwrittenOff : Nat → Word

end Sys2Proof
end

