-- ==== Sys2Proof/Machine/State.lean ====
section
/-! DEFINITION. The machine's state: every piece of state of spec/10_state.md R100, the parameters, the environment
at the two ports and at the register file, and the model's own bookkeeping (INVENTORY.md, '## State'); the reasons a
step can stop; the state after reset (R150). -/

namespace Sys2Proof.Machine

/-- STATUS.STATE (spec/10_state.md R103). -/
inductive SessState where
  | idle
  | notStarted
  | streaming
  | finished
  | error
  deriving DecidableEq, Repr

/-- STATUS.RESULT (R103). -/
inductive CmdResult where
  | none
  | chunk
  | finish
  | error
  deriving DecidableEq, Repr

/-- STATUS.MODE (R103). -/
inductive Mode where
  | raw
  | compressed
  deriving DecidableEq, Repr

/-- STATUS.ERRCODE: no error, or one of the fifteen errors of spec/60_exceptions.md R801, in the order of its codes. -/
inductive ErrCode where
  | none
  | truncatedHeader
  | blockCountOutOfRange
  | truncatedOffsetTable
  | unsupportedChannelLayout
  | unsupportedBitDepth
  | invalidCompressionLevel
  | inconsistentDataSize
  | inconsistentSampleCount
  | offsetTableMissing
  | lastOffsetOverrunsFile
  | blockSizeOverflow
  | bitstreamExhausted
  | sourceReadError
  | sinkWriteError
  | noSession
  deriving DecidableEq, Repr

/-- The header registers H_CHANNELS to H_RESTSIZE (R110), each a signed 32-bit value. -/
structure Header where
  channels : Word
  bits : Word
  rate : Word
  level : Word
  rle : Word
  blocks : Word
  dataSize : Word
  compSize : Word
  samples : Word
  blockSize : Word
  restSize : Word
  deriving DecidableEq, Repr

/-- The header registers at reset (R150). -/
def Header.zero : Header := ⟨0, 0, 0, 0, 0, 0, 0, 0, 0, 0, 0⟩

/-- A RAM as a list of (index, value) pairs in one canonical form: indices strictly rising. An unlisted index holds
no known value (entry 8), so no listed entry can equal it. -/
abbrev Ram (α : Type) := List (Nat × α)

/-- The scratch RAM: bytes by index (R121). -/
abbrev Memory := List Host.Cell

/-- How a port answers one request (spec/20_memory.md R233, R234; spec/70_reset_and_hazards.md R923). For the source,
`ok` covers both OK and EOF: which of the two is decided by the bytes left. -/
inductive PortAnswer where
  | ok
  | ioerr
  | never
  deriving DecidableEq, Repr

/-- The source port's environment: the bytes it still has to supply, and its answers to the next requests (no entry:
`ok`). The model's own (entry 2). -/
structure Source where
  rest : List Byte
  answers : List PortAnswer
  deriving DecidableEq, Repr

/-- The sink port's environment: the bytes it has received, in order, and its answers to the next requests (no entry:
`ok`). The model's own (entry 2). -/
structure Sink where
  bytes : List Byte
  answers : List PortAnswer
  deriving DecidableEq, Repr

/-- What the host does next (spec/10_state.md R101; spec/70_reset_and_hazards.md R910): a 32-bit register write or
read at a byte offset, or connecting a source or an empty sink. The model's own (entry 1). -/
inductive HostOp where
  | write (offset : Nat) (value : Word)
  | read (offset : Nat)
  | connectSource (source : Source)
  | connectSink (answers : List PortAnswer)
  deriving DecidableEq, Repr

/-- Where a block decode stands (spec/43_bitstream_decode.md R600): none in progress, about to seed a channel, or in
the code loop. The model's own (entry 4); STATUS.BUSY is 1 exactly when it is not `idle`. -/
inductive BlockPhase where
  | idle
  | seeding (c : Chan)
  | codes
  deriving DecidableEq, Repr

/-- The reasons the machine is stuck. -/
inductive Fault where
  /-- A `SrcRead` that the source never answers leaves the command unfinished for ever (R923, I14; entry 9).
  Raised by OPEN and NEXT. Safe: the command completes in no state. -/
  | sourceNeverAnswers
  /-- A `SnkWrite` that the sink never answers (R923, I14; entry 9). Raised by NEXT and by every code. Safe. -/
  | sinkNeverAnswers
  deriving DecidableEq, Repr

/-- The reasons a step has no meaning. -/
inductive Refusal where
  /-- An instruction of the table that has no meaning yet; raised by no arm of this model. Safe. -/
  | notModelled (mnemonic : String)
  /-- A CMD write while a command executes (spec/70_reset_and_hazards.md R920, I13; entry 10). Raised by the four
  commands. Safe. -/
  | commandWhileBusy
  /-- A compressed block of more bytes than `P_MAX_SCRATCH_BYTES` (spec/42_block_sequencer.md R512, R210; entry 11).
  Raised by NEXT. Safe. -/
  | scratchTooSmall
  /-- `ReadBits` of a width outside 1..8, which no rule makes (spec/44_bitreader.md R704, I16; entry 12). Raised by
  the fetch of a code at a level no valid header has. Safe. -/
  | readBitsWidth
  /-- A source or sink changed during a session (spec/70_reset_and_hazards.md R921, I18; entry 13). Raised by the
  host's connections. Safe. -/
  | portChangedInSession
  deriving DecidableEq, Repr

/-- The whole state of the machine. The fields from `phase` on are the model's own. -/
structure State where
  /-- STATUS.STATE (R103) -/
  sess : SessState
  /-- STATUS.RESULT (R103) -/
  result : CmdResult
  /-- STATUS.MODE (R103) -/
  mode : Mode
  /-- STATUS.ERRCODE (R103) -/
  errCode : ErrCode
  /-- CUR_BLOCK (R104) -/
  curBlock : Word
  /-- LAST_LEN (R105) -/
  lastLen : Word
  /-- ERR_BLOCK (R106) -/
  errBlock : Word
  /-- H_CHANNELS to H_RESTSIZE (R110) -/
  hdr : Header
  /-- OFF (R120) -/
  off : Ram Word
  /-- Scratch (R121) -/
  scratch : Memory
  /-- SCR_LEN (R121) -/
  scrLen : Nat
  /-- running[0] (R130) -/
  running0 : Sample
  /-- running[1] (R130) -/
  running1 : Sample
  /-- flip (R131) -/
  flip : Chan
  /-- runlength (R132) -/
  runlength : BitVec 8
  /-- BR_BASE (R135) -/
  brBase : Nat
  /-- BR_LEN (R135) -/
  brLen : Nat
  /-- BR_POS (R135) -/
  brPos : Nat
  /-- T (R136) -/
  total : Nat
  /-- i (R136) -/
  idx : Nat
  /-- SRC_POS (R140) -/
  srcPos : Nat
  /-- SNK_POS (R140) -/
  snkPos : Nat
  /-- where a block decode stands (entry 4) -/
  phase : BlockPhase
  /-- the block's bytes emitted and not yet written, under P_PARTIAL_OUTPUT = NONE (R642; entry 19) -/
  outBuf : List Byte
  /-- the source port's environment (entry 2) -/
  src : Source
  /-- the sink port's environment (entry 2) -/
  sink : Sink
  /-- the host's pending operations, first one next (entry 1) -/
  host : List HostOp
  /-- what the last host register read returned (entry 19) -/
  busData : Word
  /-- the index of the next free value (entry 19) -/
  freeCtr : Nat
  /-- the parameters (R10; entry 3) -/
  params : Params
  deriving DecidableEq, Repr

/-- The machine right after power-on reset (spec/10_state.md R150, spec/70_reset_and_hazards.md R900). The RAMs list
nothing: their contents are unspecified (I7; entry 8). The model's own fields are empty (entries 1, 2, 19). -/
def State.reset : State where
  sess := .idle
  result := .none
  mode := .raw
  errCode := .none
  curBlock := -1
  lastLen := 0
  errBlock := -1
  hdr := Header.zero
  off := []
  scratch := []
  scrLen := 0
  running0 := 0
  running1 := 0
  flip := false
  runlength := 0
  brBase := 0
  brLen := 0
  brPos := 0
  total := 0
  idx := 0
  srcPos := 0
  snkPos := 0
  phase := .idle
  outBuf := []
  src := ⟨[], []⟩
  sink := ⟨[], []⟩
  host := []
  busData := 0
  freeCtr := 0
  params := Params.default

end Sys2Proof.Machine
end

