-- ==== Sys2Proof/Machine/Ops.lean ====
section
/-! DEFINITION. The named operations over the state: the RAMs, the two ports, taking an error (the machine's one
exception entry, spec/60_exceptions.md R820), clearing a session, and the emission of a sample. There is no return
from an error (R835): only the commands OPEN and RESET leave it. -/

namespace Sys2Proof.Machine

/-- How an operation of the machine ends. -/
abbrev Step := Host.Outcome State Fault Refusal

/-- STATUS.BUSY (spec/10_state.md R103): a command is executing. -/
def State.busy (s : State) : Bool := decide (s.phase ≠ .idle)

/-! ### RAMs -/

/-- The canonical form: indices strictly rising. -/
abbrev Memory.wf {α : Type} (m : Ram α) : Prop := (m.map Prod.fst).Pairwise (· < ·)

/-- What a RAM holds at an index; `none` where nothing has been written. -/
def ramRead {α : Type} (m : Ram α) (i : Nat) : Option α :=
  match m with
  | [] => none
  | (j, v) :: rest => if j = i then some v else ramRead rest i

/-- The RAM whose index `base + k` holds element `k` of the list, and nothing else: the loads of
spec/42_block_sequencer.md R512 and spec/40_header_parse.md R411 (entry 20). -/
def ramLoad {α : Type} (base : Nat) : List α → Ram α
  | [] => []
  | v :: rest => (base, v) :: ramLoad (base + 1) rest

/-- `Scratch[i]` (spec/10_state.md R121); a byte nothing has written is a free value (entry 8). -/
def State.scratchByte (s : State) (i : Nat) : Byte := (ramRead s.scratch i).getD (Config.unwrittenScratch i)

/-- `OFF[k]` (R120); an entry nothing has written is a free value (entry 8). -/
def State.offEntry (s : State) (k : Nat) : Int := ((ramRead s.off k).getD (Config.unwrittenOff k)).toInt

/-- The scratch load of spec/42_block_sequencer.md R512. -/
def State.loadScratch (buf : List Byte) (s : State) : State :=
  { s with scratch := ramLoad 0 buf, scrLen := buf.length }

/-! ### The ports -/

/-- The status of a `SrcRead` (spec/00_scope.md R14, spec/20_memory.md R233), or no answer at all (R923). -/
inductive ReadStatus where
  | ok
  | eof
  | ioerr
  | never
  deriving DecidableEq, Repr

/-- The state after the source has answered a read with these bytes: they are consumed (R232), `SRC_POS` advances by
their number (spec/10_state.md R140). -/
def State.consume (bytes : List Byte) (s : State) : State :=
  { s with
    src := { rest := s.src.rest.drop bytes.length, answers := s.src.answers.tail }
    srcPos := s.srcPos + bytes.length }

/-- `SrcRead(n)` (R233): the next `n` bytes and OK; the bytes that are left and EOF; or IOERR and a prefix whose
length is a free value (entry 5). -/
def srcRead (n : Nat) (s : State) : ReadStatus × List Byte × State :=
  match s.src.answers.headD .ok with
  | .never => (.never, [], s)
  | .ioerr =>
    let bytes := s.src.rest.take (min (Config.freeReadCount s.freeCtr) n)
    (.ioerr, bytes, { s.consume bytes with freeCtr := s.freeCtr + 1 })
  | .ok =>
    let bytes := s.src.rest.take n
    (if n ≤ s.src.rest.length then .ok else .eof, bytes, s.consume bytes)

/-- The status of a `SnkWrite` (spec/00_scope.md R14, spec/20_memory.md R234), or no answer at all (R923). -/
inductive WriteStatus where
  | ok
  | ioerr
  | never
  deriving DecidableEq, Repr

/-- The state after the sink has accepted the bytes (R234): appended in order, `SNK_POS` advances (spec/10_state.md
R140). -/
def State.accept (bytes : List Byte) (s : State) : State :=
  { s with
    sink := { bytes := s.sink.bytes ++ bytes, answers := s.sink.answers.tail }
    snkPos := s.snkPos + bytes.length }

/-- `SnkWrite(bytes)` (R234). Which bytes of a failed write arrived is a free value, any prefix (I9; entry 7); a
failed write does not advance `SNK_POS`, which counts accepted ones (spec/10_state.md R140). -/
def snkWrite (bytes : List Byte) (s : State) : WriteStatus × State :=
  match s.sink.answers.headD .ok with
  | .never => (.never, s)
  | .ioerr =>
    (.ioerr, { s with
      sink := { bytes := s.sink.bytes ++ bytes.take (Config.freeWriteCount s.freeCtr), answers := s.sink.answers.tail }
      freeCtr := s.freeCtr + 1 })
  | .ok => (.ok, s.accept bytes)

/-! ### Taking an error -/

/-- `raise E(CUR_BLOCK)` (spec/60_exceptions.md R820) after a step that found the source holding `rest0`: the command
ends, STATE, ERRCODE, ERR_BLOCK, RESULT and LAST_LEN are written, CUR_BLOCK, the header registers, `OFF` and the
datapath keep their values. SRC_POS, and with it where the source stands, become free values (R823, I8; entry 6). The
block's unwritten bytes are dropped (R822, NONE). -/
def raiseFrom (rest0 : List Byte) (e : ErrCode) (s : State) : State :=
  { s with
    sess := .error
    errCode := e
    errBlock := s.curBlock
    result := .error
    lastLen := 0
    phase := .idle
    outBuf := []
    src := { s.src with rest := rest0.drop (Config.freeSrcSkip s.freeCtr) }
    srcPos := Config.freeSrcPos s.freeCtr
    freeCtr := s.freeCtr + 1 }

/-- `raise E(CUR_BLOCK)` at a step that reads no source byte (R820). -/
def raiseError (e : ErrCode) (s : State) : State := raiseFrom s.src.rest e s

/-! ### Clearing a session -/

/-- Every entry of spec/10_state.md R150 at its reset value; the connections, the environment, the parameters and the
index of free values stay (R151, spec/70_reset_and_hazards.md R901). -/
def State.cleared (s : State) : State :=
  { State.reset with
    src := s.src
    sink := s.sink
    host := s.host
    busData := s.busData
    freeCtr := s.freeCtr
    params := s.params }

/-! ### Sequencing inside a block -/

/-- Go on after an operation, unless it stopped or took an error (the command has ended then, R820). -/
def thenBlock (o : Step) (f : State → Step) : Step :=
  match o with
  | .next t => if t.phase = .idle then .next t else f t
  | .fault r => .fault r
  | .refused r => .refused r

end Sys2Proof.Machine
end

