-- ==== Sys2Proof/Machine/Operands.lean ====
section
/-! DEFINITION. The quantities the datapath derives from the header registers (spec/00_scope.md R15, spec/10_state.md
R133), the sample accumulators and their arithmetic (spec/43_bitstream_decode.md R621, R650), seeds (R603), emitted
samples (spec/30_encoding.md R341) and `Emit` (R640). -/

namespace Sys2Proof.Machine

/-! ### Derived quantities -/

/-- `w = bitsPerSample / 8`, truncated toward zero (spec/00_scope.md R13, R15). -/
def State.w (s : State) : Int := s.hdr.bits.toInt.tdiv 8

/-- `N == 8` (spec/43_bitstream_decode.md R640); every other value of H_BITS is handled as 16 (entry 15). -/
def State.narrow (s : State) : Bool := decide (s.hdr.bits = 8)

/-- `C == 2` (R640); every other value of H_CHANNELS is handled as mono in the datapath (entry 15). -/
def State.stereo (s : State) : Bool := decide (s.hdr.channels = 2)

/-- `C`, the number of channels the datapath decodes (R15; entry 15). -/
def State.chans (s : State) : Nat := if s.stereo then 2 else 1

/-- `C * w`, the number of seed bytes (spec/43_bitstream_decode.md R603). -/
def State.seedBytes (s : State) : Nat := s.chans * s.w.toNat

/-- The run-length flag, `H_RLE != 0` (spec/40_header_parse.md R404). -/
def State.rleOn (s : State) : Bool := decide (s.hdr.rle ≠ 0)

/-- `lvl`, the compression level (spec/43_bitstream_decode.md). -/
def State.level (s : State) : Int := s.hdr.level.toInt

/-- The context in which the block's codes are read (spec/30_encoding.md R338). -/
def State.codeCtx (s : State) : CodeCtx := { rle := s.rleOn, level := s.level, stereo := s.stereo }

/-! ### The sample accumulators -/

/-- `running[c]` (spec/10_state.md R130). -/
def State.running (s : State) (c : Chan) : Sample := if c then s.running1 else s.running0

/-- `running[c] <- v`. -/
def State.setRunning (c : Chan) (v : Sample) (s : State) : State :=
  if c then { s with running1 := v } else { s with running0 := v }

/-- `wrapN(v)` (spec/00_scope.md R13, spec/43_bitstream_decode.md R650): the exact value modulo 2^N, read as N-bit
two's complement; held sign-extended (entry 14). -/
def wrapSample (narrow : Bool) (v : Int) : Sample :=
  if narrow then (BitVec.ofInt 8 v).signExtend 16 else BitVec.ofInt 16 v

/-- The signed differential of a sign, a magnitude and a shift (spec/30_encoding.md R321). -/
def differential (neg : Bool) (mag : BitVec 7) (shift : Nat) : Int :=
  if neg then -(mag.toNat * 2 ^ shift : Int) else (mag.toNat * 2 ^ shift : Int)

/-- `ApplyDiff` (spec/43_bitstream_decode.md R621): the accumulator `flip` selects moves by the differential, modulo
2^N. -/
def applyDiff (neg : Bool) (mag : BitVec 7) (shift : Nat) (s : State) : State :=
  s.setRunning s.flip (wrapSample s.narrow ((s.running s.flip).toInt + differential neg mag shift))

/-- The seed of channel `c` (R603, spec/30_encoding.md R310): one byte, or two with the low byte first. -/
def State.seedValue (s : State) (c : Chan) : Sample :=
  let k := if c then 1 else 0
  if s.w = 1 then (s.scratchByte k).signExtend 16
  else pair16 (s.scratchByte (2 * k)) (s.scratchByte (2 * k + 1))

/-! ### Emission -/

/-- The bytes of an emitted sample (spec/30_encoding.md R341). -/
def sampleBytes (narrow : Bool) (v : Sample) : List Byte :=
  if narrow then [v.extractLsb' 0 8] else [v.extractLsb' 0 8, v.extractLsb' 8 8]

/-- The sample `running[flip]` as bytes. -/
def State.emitted (s : State) : List Byte := sampleBytes s.narrow (s.running s.flip)

/-- After a sample has been emitted: `i` advances, and in stereo `flip` toggles (R640, R641). -/
def State.advanceSample (s : State) : State :=
  { s with idx := s.idx + 1, flip := if s.stereo then !s.flip else s.flip }

/-- `Emit(running[flip])` (R640, R642): under PREFIX the sample is written at once; under NONE it waits for the end
of the block. A failed write is SinkWriteError. -/
def emit (s : State) : Step :=
  match s.params.partialOut with
  | .wholeBlocks => .next ({ s with outBuf := s.outBuf ++ s.emitted }).advanceSample
  | .keepWritten =>
    match snkWrite s.emitted s with
    | (.ok, t) => .next t.advanceSample
    | (.ioerr, t) => .next (raiseError .sinkWriteError t)
    | (.never, _) => .fault .sinkNeverAnswers

end Sys2Proof.Machine
end

