-- ==== Sys2Proof/Machine/Header.lean ====
section
/-! DEFINITION. OPEN's parts (spec/40_header_parse.md): the header fields (spec/30_encoding.md R300, R301), the raw
derivation (R407), the offset table (R411), and validation V1 to V7 (R412, R420 to R426). All arithmetic is on exact
integers (R412). -/

namespace Sys2Proof.Machine

/-! ### Fields -/

/-- An int16 field, sign-extended to its register (R301, R403). -/
def headerField16 (h : List Byte) (o : Nat) : Word := (pair16 (h.getD o 0) (h.getD (o + 1) 0)).signExtend 32

/-- An int32 field (R301). -/
def headerField32 (h : List Byte) (o : Nat) : Word :=
  quad32 (h.getD o 0) (h.getD (o + 1) 0) (h.getD (o + 2) 0) (h.getD (o + 3) 0)

/-- The header registers from the 44 bytes (R403; offsets R300); the field `reserved` at 40 is dropped. -/
def parseHeader (h : List Byte) : Header where
  channels := headerField16 h 0
  bits := headerField16 h 2
  rate := headerField32 h 4
  level := headerField32 h 8
  rle := headerField32 h 12
  blocks := headerField32 h 16
  dataSize := headerField32 h 20
  compSize := headerField32 h 24
  samples := headerField32 h 28
  blockSize := headerField32 h 32
  restSize := headerField32 h 36

/-- The offset table's entries from its bytes (R411, spec/30_encoding.md R303). -/
def tableEntries : List Byte → List Word
  | b0 :: b1 :: b2 :: b3 :: rest => quad32 b0 b1 b2 b3 :: tableEntries rest
  | _ => []

/-! ### Raw derivation -/

/-- `w` of a header (spec/00_scope.md R15). -/
def Header.w (h : Header) : Int := h.bits.toInt.tdiv 8

/-- The raw-mode block geometry (R407), replacing the stored values. -/
def Header.deriveRaw (h : Header) : Header :=
  let m := 65536 * h.w
  let rest := (h.dataSize.toInt.tmod m).tdiv h.w
  { h with
    blockSize := toWord 65536
    restSize := toWord rest
    blocks := toWord (h.dataSize.toInt.tdiv m + if 0 < rest then 1 else 0) }

/-! ### Checks -/

/-- V1, then V2 (R420, R421; made early in raw mode, R406). -/
def Header.layoutError (h : Header) : Option ErrCode :=
  if ¬ (h.channels.toInt = 1 ∨ h.channels.toInt = 2) then some .unsupportedChannelLayout
  else if ¬ (h.bits.toInt = 8 ∨ h.bits.toInt = 16) then some .unsupportedBitDepth
  else none

/-- The bound check (R410). -/
def Header.blocksInRange (h : Header) : Bool := decide (0 < h.blocks.toInt) && decide (h.blocks.toInt ≤ 1000000)

/-- V3, V4, V5 (R422 to R424). -/
def Header.sizeError (h : Header) : Option ErrCode :=
  if ¬ (-1 ≤ h.level.toInt ∧ h.level.toInt ≤ 5) then some .invalidCompressionLevel
  else if ¬ (h.dataSize.toInt = h.samples.toInt * h.w) then some .inconsistentDataSize
  else if ¬ (h.samples.toInt = (h.blocks.toInt - 1) * h.blockSize.toInt + h.restSize.toInt) then
    some .inconsistentSampleCount
  else none

/-- V6, V7, in compressed mode only (R425, R426). -/
def State.offsetError (s : State) : Option ErrCode :=
  if s.mode = .raw then none
  else if s.off = [] then some .offsetTableMissing
  else if ¬ (s.offEntry (s.hdr.blocks.toInt - 1).toNat < s.hdr.compSize.toInt) then some .lastOffsetOverrunsFile
  else none

/-- Validation: the first violated invariant in the order V1 to V7 (R412). -/
def State.violation (s : State) : Option ErrCode :=
  match s.hdr.layoutError with
  | some e => some e
  | none =>
    match s.hdr.sizeError with
    | some e => some e
    | none => s.offsetError

/-! ### The steps of OPEN -/

/-- The end of OPEN (R400, R427). -/
def openValidate (s : State) : Step :=
  match s.violation with
  | some e => .next (raiseError e s)
  | none =>
    .next { s with
      sess := .notStarted, curBlock := -1, result := .none, errCode := .none, errBlock := -1, lastLen := 0 }

/-- The offset table, in compressed mode (R411): no entry is loaded from a short read. -/
def openTable (s : State) : Step :=
  match srcRead (4 * s.hdr.blocks.toInt).toNat s with
  | (.never, _, _) => .fault .sourceNeverAnswers
  | (.ioerr, _, t) => .next (raiseFrom s.src.rest .sourceReadError t)
  | (.eof, _, t) => .next (raiseFrom s.src.rest .truncatedOffsetTable t)
  | (.ok, bytes, t) => openValidate { t with off := ramLoad 0 (tableEntries bytes) }

/-- The bound check (R410), then the table or validation. -/
def openBounded (s : State) : Step :=
  if s.hdr.blocksInRange then (if s.mode = .raw then openValidate s else openTable s)
  else .next (raiseError .blockCountOutOfRange s)

/-- The mode (R405), and in raw mode V1, V2 and the derivation (R406, R407). -/
def openMode (s : State) : Step :=
  if s.hdr.level.toInt = -1 then
    match s.hdr.layoutError with
    | some e => .next (raiseError e { s with mode := .raw })
    | none => openBounded { s with mode := .raw, hdr := s.hdr.deriveRaw }
  else openBounded { s with mode := .compressed }

/-- The header read (R402, R403). -/
def openHeader (s : State) : Step :=
  match srcRead 44 s with
  | (.never, _, _) => .fault .sourceNeverAnswers
  | (.ioerr, _, t) => .next (raiseFrom s.src.rest .sourceReadError t)
  | (.eof, _, t) => .next (raiseFrom s.src.rest .truncatedHeader t)
  | (.ok, bytes, t) => openMode { t with hdr := parseHeader bytes }

end Sys2Proof.Machine
end

