-- ==== Sys2Proof/WellFormed.lean ====
section
/-! DEFINITION. Which instructions exist in a given context (run-length flag, level, channels): the conditions of
spec/30_encoding.md R330 to R337 and the operand ranges of R360. -/

namespace Sys2Proof

open Machine

/-- A level of a compressed stream: 0 to 5 (spec/40_header_parse.md R422, spec/00_scope.md R2). -/
def CodeCtx.levelOk (c : CodeCtx) : Bool := decide (0 ≤ c.level) && decide (c.level ≤ 5)

/-- A DIFF exists at levels 0 to 5 with a magnitude of `B - 1` bits (R321, R360). -/
def CodeCtx.diffOk (c : CodeCtx) (mag : BitVec 7) : Bool :=
  c.levelOk && decide (mag.toNat < 2 ^ (diffBits c.level - 1))

/-- A BIG exists at levels 0 to 5 with a magnitude of `B7 - 1` bits (R321, R360). -/
def CodeCtx.bigOk (c : CodeCtx) (mag : BitVec 7) : Bool :=
  c.levelOk && decide (mag.toNat < 2 ^ (bigBits c.level - 1))

/-- The instruction exists in the context: SKIP only with run-length off, RUN0, RUN2 and RUN8 only with it on, RUN2
never with 3 (R330 to R333), a magnitude within its field (R321), SEED of channel 1 only in stereo (R603). -/
def Instr.wf (c : CodeCtx) : Instr → Bool
  | .skip => !c.rle
  | .run0 => c.rle
  | .run2 k => c.rle && decide (k ≠ 3#2)
  | .run8 _ => c.rle
  | .diff1 _ m => c.diffOk m
  | .diff2 _ m => c.diffOk m
  | .diff3 _ m => c.diffOk m
  | .diff4 _ m => c.diffOk m
  | .diff5 _ m => c.diffOk m
  | .diff6 _ m => c.diffOk m
  | .zero => true
  | .big _ m => c.bigOk m
  | .seed ch => !ch || c.stereo
  | .repeatRun => true
  | .nop => true
  | .openCmd => true
  | .nextCmd => true
  | .resetCmd => true

end Sys2Proof
end

