-- ==== Sys2Proof/Decode.lean ====
section
/-! DEFINITION. The decoder of the codes (spec/30_encoding.md R330 to R338, spec/43_bitstream_decode.md R600) and of
the commands (R350, spec/10_state.md R102), total on any bits; after it the encoder, from the same tables. -/

namespace Sys2Proof

open Machine

/-! ### Decoding -/

/-- What decoding at the cursor answers: a code and its length in bits; the bits ran out after `used` bits of the
code had been read (spec/44_bitreader.md R705); or a field width that `ReadBits` refuses (R704). -/
inductive Decoded where
  | code (i : Instr) (len : Nat)
  | exhausted (used : Nat)
  | badWidth
  deriving DecidableEq, Repr

/-- Go on with the value of a field read after `used` bits of the code, or say why not. -/
def readThen (r : FieldRead) (used : Nat) (k : Nat → Decoded) : Decoded :=
  match r with
  | .value v => k v
  | .exhausted => .exhausted used
  | .badWidth => .badWidth

/-- A normal differential: the field of `B` bits after the exponent (R334). -/
def decodeDiff (lvl : Int) (rd : Nat → Nat → FieldRead) (mk : Bool → BitVec 7 → Instr) : Decoded :=
  let b := diffBits lvl
  readThen (rd 3 b) 3 fun d => .code (mk (fieldNeg b d) (fieldMag b d)) (3 + b)

/-- Exponent 0: SKIP, or the run-length escape (R331 to R333). -/
def decodeHold (rle : Bool) (rd : Nat → Nat → FieldRead) : Decoded :=
  if rle then
    readThen (rd 3 1) 3 fun f =>
      if f = 0 then .code .run0 4
      else readThen (rd 4 2) 4 fun v =>
        if v = 3 then readThen (rd 6 8) 6 fun k => .code (.run8 (BitVec.ofNat 8 k)) 14
        else .code (.run2 (BitVec.ofNat 2 v)) 6
  else .code .skip 3

/-- Exponent 7: ZERO, or a large differential (R335, R336). -/
def decodeSeven (lvl : Int) (rd : Nat → Nat → FieldRead) : Decoded :=
  readThen (rd 3 1) 3 fun z =>
    if z = 1 then .code .zero 4
    else
      let b := bigBits lvl
      readThen (rd 4 b) 4 fun d => .code (.big (fieldNeg b d) (fieldMag b d)) (4 + b)

/-- The code at the cursor (R338; the dispatch of spec/43_bitstream_decode.md R600, R607): `rd p n` reads `n` bits
`p` bits after the cursor. -/
def decodeCode (rle : Bool) (lvl : Int) (rd : Nat → Nat → FieldRead) : Decoded :=
  readThen (rd 0 3) 0 fun e =>
    match e with
    | 0 => decodeHold rle rd
    | 1 => decodeDiff lvl rd .diff1
    | 2 => decodeDiff lvl rd .diff2
    | 3 => decodeDiff lvl rd .diff3
    | 4 => decodeDiff lvl rd .diff4
    | 5 => decodeDiff lvl rd .diff5
    | 6 => decodeDiff lvl rd .diff6
    | _ => decodeSeven lvl rd

/-- The code at the front of a list of bytes, read as a bitstream of that many bytes. -/
def decodeBytes (m : ExhaustMode) (rle : Bool) (lvl : Int) (bytes : List Byte) : Decoded :=
  decodeCode rle lvl (readField m (fun i => bytes.getD i 0) bytes.length)

/-- The command a write of CMD starts: `CMD[1:0]`; `CMD[31:2]` is ignored (R350, R102). -/
def decodeCommand (v : Word) : Instr :=
  match (v.extractLsb' 0 2).toNat with
  | 0 => .nop
  | 1 => .openCmd
  | 2 => .nextCmd
  | _ => .resetCmd

/-! ### Encoding -/

/-- How an instruction is written: a code of `len` bits whose number `W` has its first-read bit as bit 0 (R330), a
value for CMD (R350), or nothing (SEED and REPEAT, R337). -/
inductive Encoding where
  | bits (len w : Nat)
  | command (v : Word)
  | implicit
  deriving DecidableEq, Repr

/-- The layout `e:3, d:B` (R330, R334). -/
def encodeDiff (lvl : Int) (e : Nat) (neg : Bool) (mag : BitVec 7) : Encoding :=
  .bits (3 + diffBits lvl) (e + 8 * signMagField (diffBits lvl) neg mag)

/-- The encoding of an instruction at a level (R330 to R337, R350). -/
def encode (lvl : Int) : Instr → Encoding
  | .skip => .bits 3 0x0
  | .run0 => .bits 4 0x0
  | .run2 k => .bits 6 (0x8 + 16 * k.toNat)
  | .run8 k => .bits 14 (0x38 + 64 * k.toNat)
  | .diff1 neg mag => encodeDiff lvl 1 neg mag
  | .diff2 neg mag => encodeDiff lvl 2 neg mag
  | .diff3 neg mag => encodeDiff lvl 3 neg mag
  | .diff4 neg mag => encodeDiff lvl 4 neg mag
  | .diff5 neg mag => encodeDiff lvl 5 neg mag
  | .diff6 neg mag => encodeDiff lvl 6 neg mag
  | .zero => .bits 4 0xF
  | .big neg mag => .bits (4 + bigBits lvl) (0x7 + 16 * signMagField (bigBits lvl) neg mag)
  | .seed _ => .implicit
  | .repeatRun => .implicit
  | .nop => .command 0
  | .openCmd => .command 1
  | .nextCmd => .command 2
  | .resetCmd => .command 3

/-! ### The opcode table's words -/

/-- The four bytes of a table word, in the order the hardware stores a bitstream: bit 0 is the first-read bit
(R330, spec/20_memory.md R208). -/
def tableBytes (w : Nat) : List Byte :=
  [BitVec.ofNat 8 w, BitVec.ofNat 8 (w / 2 ^ 8), BitVec.ofNat 8 (w / 2 ^ 16), BitVec.ofNat 8 (w / 2 ^ 24)]

/-- Where a table word is written: a whole register is a write of CMD, fewer bits are a code (entry 16). -/
def tableIsCommand (nbits : Nat) : Bool := decide (32 ≤ nbits)

/-- The run-length flag under which a table word is read as a code: the words of RUN0, RUN2 and RUN8 exist only with
run-length on, and SKIP is the one code of 3 bits that exists with it off (R330; entry 16). -/
def tableRle (nbits : Nat) : Bool := decide (nbits ≠ 3)

/-- The level at which a table word is read as a code (entry 16). -/
def tableLevel : Int := 0

/-- The instruction the decoder reads from a word of the opcode table given `nbits` bits (entry 16): the rows SEED
and REPEAT have no word, so no bits decode to nothing. -/
def decodeTableWord (nbits w : Nat) : Option Instr :=
  if nbits = 0 then none
  else if tableIsCommand nbits then some (decodeCommand (BitVec.ofNat 32 w))
  else
    match decodeBytes .lazyEnd (tableRle nbits) tableLevel (tableBytes w) with
    | .code i _ => some i
    | _ => none

end Sys2Proof
end

