-- ==== Sys2Proof/Machine/Flags.lean ====
section
/-! DEFINITION. The register file as the host sees it: the STATUS word (spec/10_state.md R103), the register map
(R101), and the status fields a command sets when it ends. The datapath sets no flag (spec/43_bitstream_decode.md
R650). -/

namespace Sys2Proof.Machine

/-- The value of STATUS.STATE (R103). -/
def SessState.code : SessState → Nat
  | .idle => 0
  | .notStarted => 1
  | .streaming => 2
  | .finished => 3
  | .error => 4

/-- The value of STATUS.RESULT (R103). -/
def CmdResult.code : CmdResult → Nat
  | .none => 0
  | .chunk => 1
  | .finish => 2
  | .error => 3

/-- The value of STATUS.MODE (R103). -/
def Mode.code : Mode → Nat
  | .raw => 0
  | .compressed => 1

/-- The value of STATUS.ERRCODE (spec/60_exceptions.md R801). -/
def ErrCode.code : ErrCode → Nat
  | .none => 0
  | .truncatedHeader => 1
  | .blockCountOutOfRange => 2
  | .truncatedOffsetTable => 3
  | .unsupportedChannelLayout => 4
  | .unsupportedBitDepth => 5
  | .invalidCompressionLevel => 6
  | .inconsistentDataSize => 7
  | .inconsistentSampleCount => 8
  | .offsetTableMissing => 9
  | .lastOffsetOverrunsFile => 10
  | .blockSizeOverflow => 11
  | .bitstreamExhausted => 12
  | .sourceReadError => 13
  | .sinkWriteError => 14
  | .noSession => 15

/-- STATUS (R103): STATE in 2:0, BUSY in 3, RESULT in 5:4, MODE in 6, ERRCODE in 15:8; bits 7 and 31:16 read 0. -/
def State.statusWord (s : State) : Word :=
  BitVec.ofNat 32 (s.sess.code + 2 ^ 3 * s.busy.toNat + 2 ^ 4 * s.result.code + 2 ^ 6 * s.mode.code
    + 2 ^ 8 * s.errCode.code)

/-- A host register read (R101). CMD reads 0; offsets that hold no register read 0. -/
def State.regRead (s : State) (offset : Nat) : Word :=
  match offset with
  | 0x04 => s.statusWord
  | 0x08 => s.curBlock
  | 0x0C => s.lastLen
  | 0x10 => s.errBlock
  | 0x14 => s.hdr.channels
  | 0x18 => s.hdr.bits
  | 0x1C => s.hdr.rate
  | 0x20 => s.hdr.level
  | 0x24 => s.hdr.rle
  | 0x28 => s.hdr.blocks
  | 0x2C => s.hdr.dataSize
  | 0x30 => s.hdr.compSize
  | 0x34 => s.hdr.samples
  | 0x38 => s.hdr.blockSize
  | 0x3C => s.hdr.restSize
  | _ => 0

/-- A NEXT in IDLE (spec/42_block_sequencer.md R501): NoSession is reported, STATE and ERR_BLOCK stay. -/
def State.reportNoSession (s : State) : State :=
  { s with result := .error, errCode := .noSession, lastLen := 0 }

/-- A NEXT in ERROR (R501): the error stays as it was recorded. -/
def State.reportAborted (s : State) : State := { s with result := .error, lastLen := 0 }

/-- A NEXT in FINISHED (R504): the end marker. -/
def State.reportEnd (s : State) : State := { s with result := .finish, lastLen := 0 }

/-- After a block of `len` bytes that completed without error (R505, R514, R508): LAST_LEN, CUR_BLOCK, RESULT, and
FINISHED after the last block. -/
def State.blockDone (len : Int) (s : State) : State :=
  { s with
    lastLen := toWord len
    curBlock := toWord (s.curBlock.toInt + 1)
    result := .chunk
    sess := if s.curBlock.toInt + 1 = s.hdr.blocks.toInt then .finished else s.sess }

end Sys2Proof.Machine
end

