-- ==== Sys2Proof/Machine/Codes.lean ====
section
/-! DEFINITION. The meanings of the codes of a compressed block's bitstream and of the two implicit operations
(spec/43_bitstream_decode.md R603 to R632). Each code decides one emitted sample (R606), so each ends in `emit`; its
bits have been consumed by the fetch (Machine/Block.lean). -/

namespace Sys2Proof.Machine

/-- SKIP (R610): nothing changes; the sample is emitted. -/
def execSkip (s : State) : Step := emit s

/-- RUN0 (R611): a run length of 0; the sample is emitted unchanged. -/
def execRun0 (s : State) : Step := emit { s with runlength := 0 }

/-- RUN2 (R612): a run length of 0 to 2; the sample is emitted unchanged. -/
def execRun2 (k : BitVec 2) (s : State) : Step := emit { s with runlength := k.setWidth 8 }

/-- RUN8 (R613): a run length of 0 to 255; the sample is emitted unchanged. -/
def execRun8 (k : BitVec 8) (s : State) : Step := emit { s with runlength := k }

/-- DIFF (R620) with exponent `e`, shared by the six rows. -/
def diffStep (e : Nat) (neg : Bool) (mag : BitVec 7) (s : State) : Step :=
  emit (applyDiff neg mag (diffShift s.level e) s)

/-- DIFF1 (R620). -/
def execDiff1 (neg : Bool) (mag : BitVec 7) (s : State) : Step := diffStep 1 neg mag s

/-- DIFF2 (R620). -/
def execDiff2 (neg : Bool) (mag : BitVec 7) (s : State) : Step := diffStep 2 neg mag s

/-- DIFF3 (R620). -/
def execDiff3 (neg : Bool) (mag : BitVec 7) (s : State) : Step := diffStep 3 neg mag s

/-- DIFF4 (R620). -/
def execDiff4 (neg : Bool) (mag : BitVec 7) (s : State) : Step := diffStep 4 neg mag s

/-- DIFF5 (R620). -/
def execDiff5 (neg : Bool) (mag : BitVec 7) (s : State) : Step := diffStep 5 neg mag s

/-- DIFF6 (R620). -/
def execDiff6 (neg : Bool) (mag : BitVec 7) (s : State) : Step := diffStep 6 neg mag s

/-- ZERO (R630): `running[flip] <- 0`. -/
def execZero (s : State) : Step := emit (s.setRunning s.flip 0)

/-- BIG (R631): a differential with the shift `S7`. -/
def execBig (neg : Bool) (mag : BitVec 7) (s : State) : Step := emit (applyDiff neg mag (bigShift s.level) s)

/-- SEED(c) (R603): the channel's accumulator from the front of the scratch; BitstreamExhausted when the scratch holds
fewer bytes than all seeds need (R604). The seeded sample itself is emitted later, if at all (R605). -/
def execSeed (c : Chan) (s : State) : Step :=
  if s.scrLen < s.seedBytes then .next (raiseError .bitstreamExhausted s)
  else .next (s.setRunning c (s.seedValue c))

/-- REPEAT (R632): `runlength` decreases; the sample is emitted unchanged and no bit is read. -/
def execRepeatRun (s : State) : Step := emit { s with runlength := s.runlength - 1 }

end Sys2Proof.Machine
end

