-- ==== Sys2Proof/Machine/Block.lean ====
section
/-! DEFINITION. DecodeBlock (spec/43_bitstream_decode.md R600): the fetch of the next code (spec/44_bitreader.md), one
iteration of a block decode, the whole decode, and the end of a block (spec/42_block_sequencer.md R514, R508). NEXT
runs the iterations to the end; a step of the machine in the middle of a block is one of them (entry 4). -/

namespace Sys2Proof.Machine

/-! ### Fetch -/

/-- `ReadBits(n)` `p` bits after BR_POS (spec/44_bitreader.md R703): over the scratch bytes from BR_BASE on. -/
def State.readBits (s : State) (p n : Nat) : FieldRead :=
  readField s.params.exhaust (fun j => s.scratchByte (s.brBase + j)) s.brLen (s.brPos + p) n

/-- The code at BR_POS (spec/43_bitstream_decode.md R607). -/
def State.decodeNext (s : State) : Decoded := decodeCode s.rleOn s.level s.readBits

/-- BR_POS moves over `n` bits that have been read (R703). -/
def State.advanceBits (n : Nat) (s : State) : State := { s with brPos := s.brPos + n }

/-- What the code loop does next. -/
inductive Fetched where
  | run (i : Instr) (s : State)
  | ended (s : State)
  | badWidth

/-- The next iteration's instruction (R606, R607): REPEAT while `runlength > 0`, else the code at BR_POS, whose bits
are consumed. A field that is not there raises BitstreamExhausted after the fields read before it (R705, R820). -/
def State.fetchCode (s : State) : Fetched :=
  if s.runlength ≠ 0 then .run .repeatRun s
  else
    match s.decodeNext with
    | .code i len => .run i (s.advanceBits len)
    | .exhausted used => .ended (raiseError .bitstreamExhausted (s.advanceBits used))
    | .badWidth => .badWidth

/-! ### One iteration -/

/-- BitReaderInit (spec/44_bitreader.md R701). -/
def State.bitReaderInit (s : State) : State :=
  { s with brBase := s.seedBytes, brLen := s.scrLen - s.seedBytes, brPos := 0 }

/-- The block is decoded: NEXT is over (R514, R508). -/
def State.endBlock (s : State) : State :=
  { s.blockDone (s.total * s.w) with phase := .idle, outBuf := [] }

/-- The end of DecodeBlock: under NONE the block's samples are now written together, if it has any (R642). -/
def finishBlock (s : State) : Step :=
  if s.params.partialOut = .wholeBlocks ∧ 0 < s.total then
    match snkWrite s.outBuf s with
    | (.ok, t) => .next t.endBlock
    | (.ioerr, t) => .next (raiseError .sinkWriteError t)
    | (.never, _) => .fault .sinkNeverAnswers
  else .next s.endBlock

/-- The loop's test, `while i < T` (R600). -/
def afterSample (s : State) : Step := if s.total ≤ s.idx then finishBlock s else .next s

/-- `while i < min(C, T): Emit(running[flip])` (R600, R605), at most `n` times. -/
def emitSeeds : Nat → State → Step
  | 0, s => .next s
  | n + 1, s => if min s.chans s.total ≤ s.idx then .next s else thenBlock (emit s) (emitSeeds n)

/-- Once all seeds are read: BitReaderInit, then the direct emission of the seeds under SEED_EMIT (R600, R605). -/
def startCodes (s : State) : Step :=
  let t := { s.bitReaderInit with phase := .codes }
  match t.params.seedMode with
  | .seedEmit => thenBlock (emitSeeds t.chans t) afterSample
  | .codeEvery => afterSample t

/-- `for c in 0 .. C-1: SEED(c)` (R600): the other channel's seed, or the codes. -/
def afterSeed (c : Chan) (s : State) : Step :=
  if c = false ∧ s.stereo then .next { s with phase := .seeding true } else startCodes s

/-- One iteration of a block decode, with `ex` for the meanings: a SEED, a REPEAT or a code, and what R600 does after
it. -/
def blockStep (ex : Instr → State → Step) (s : State) : Step :=
  match s.phase with
  | .idle => .next s
  | .seeding c => thenBlock (ex (.seed c) s) (afterSeed c)
  | .codes =>
    if s.total ≤ s.idx then finishBlock s
    else
      match s.fetchCode with
      | .run i t => thenBlock (ex i t) afterSample
      | .ended t => .next t
      | .badWidth => .refused .readBitsWidth

/-- Iterations until the block is over, at most `fuel`. -/
def runBlock (ex : Instr → State → Step) : Nat → State → Step
  | 0, s => .next s
  | fuel + 1, s =>
    if s.phase = .idle then .next s
    else
      match blockStep ex s with
      | .next t => runBlock ex fuel t
      | .fault r => .fault r
      | .refused r => .refused r

/-! ### The whole block -/

/-- The meanings inside a block: the codes, SEED and REPEAT; a command there is a CMD write while a command executes
(spec/70_reset_and_hazards.md R920). -/
def execInBlock (i : Instr) (s : State) : Step :=
  match i with
  | .skip => execSkip s
  | .run0 => execRun0 s
  | .run2 k => execRun2 k s
  | .run8 k => execRun8 k s
  | .diff1 neg mag => execDiff1 neg mag s
  | .diff2 neg mag => execDiff2 neg mag s
  | .diff3 neg mag => execDiff3 neg mag s
  | .diff4 neg mag => execDiff4 neg mag s
  | .diff5 neg mag => execDiff5 neg mag s
  | .diff6 neg mag => execDiff6 neg mag s
  | .zero => execZero s
  | .big neg mag => execBig neg mag s
  | .seed c => execSeed c s
  | .repeatRun => execRepeatRun s
  | .nop => .refused .commandWhileBusy
  | .openCmd => .refused .commandWhileBusy
  | .nextCmd => .refused .commandWhileBusy
  | .resetCmd => .refused .commandWhileBusy

/-- The start of DecodeBlock(curblocksize) (R600 to R602): `T`, the cleared registers, and the first seed; a block of
no samples ends at once. -/
def beginDecode (curBlockSize : Int) (s : State) : Step :=
  let t := { s with
    total := (curBlockSize.tdiv s.w).toNat
    idx := 0
    runlength := 0
    flip := false
    outBuf := [] }
  if t.total = 0 then finishBlock t else .next { t with phase := .seeding false }

end Sys2Proof.Machine
end

