-- ==== Sys2Proof/Machine/Wav.lean ====
section
/-! DEFINITION. The WAV header builder (spec/41_wav_header.md R450 to R453, layout spec/30_encoding.md R340): a pure
function of four header values. -/

namespace Sys2Proof.Machine

/-- `WAVHDR(P, C, N, R)` (R451): 44 bytes; every number is the exact value modulo 2^16 or 2^32 (R453). -/
def wavHeader (dataSize channels bits rate : Int) : List Byte :=
  let w := bits.tdiv 8
  [0x52, 0x49, 0x46, 0x46] ++ le32 (dataSize + 36)
    ++ [0x57, 0x41, 0x56, 0x45] ++ [0x66, 0x6D, 0x74, 0x20]
    ++ le32 16 ++ le16 1 ++ le16 channels ++ le32 rate ++ le32 (rate * w * channels)
    ++ le16 (w * channels) ++ le16 bits ++ [0x64, 0x61, 0x74, 0x61] ++ le32 dataSize

/-- The header of the session, from the header registers (R452). -/
def State.wavHeader (s : State) : List Byte :=
  Machine.wavHeader s.hdr.dataSize.toInt s.hdr.channels.toInt s.hdr.bits.toInt s.hdr.rate.toInt

end Sys2Proof.Machine
end

