-- ==== Sys2Proof/Machine/Sequencer.lean ====
section
/-! DEFINITION. NEXT's parts (spec/42_block_sequencer.md): the WAV header unit (R502), raw blocks (R505 to R507), and
compressed blocks (R510 to R514), whose decode Machine/Block.lean runs. -/

namespace Sys2Proof.Machine

/-- NEXT in NOT_STARTED (R502): the WAV header, then STREAMING at block 0. -/
def nextHeader (s : State) : Step :=
  match snkWrite s.wavHeader s with
  | (.never, _) => .fault .sinkNeverAnswers
  | (.ioerr, t) => .next (raiseError .sinkWriteError t)
  | (.ok, t) => .next { t with curBlock := 0, sess := .streaming, result := .chunk, lastLen := 44 }

/-- `k < H_BLOCKS - 1` for `k = CUR_BLOCK`: a block other than the last (R505, R510). -/
def State.notLastBlock (s : State) : Bool := decide (s.curBlock.toInt < s.hdr.blocks.toInt - 1)

/-! ### Raw blocks -/

/-- The number of bytes of raw block CUR_BLOCK (R505). -/
def State.rawSize (s : State) : Int := if s.notLastBlock then s.hdr.blockSize.toInt * s.w else s.hdr.restSize.toInt * s.w

/-- A raw block whose read failed (R505, R506): SourceReadError; under PREFIX the bytes that were read go to the sink
first (R822; entry 18), and SourceReadError stays the error whatever the sink answers (spec/60_exceptions.md R831). -/
def rawReadFailed (rest0 : List Byte) (bytes : List Byte) (s : State) : Step :=
  match s.params.partialOut with
  | .wholeBlocks => .next (raiseFrom rest0 .sourceReadError s)
  | .keepWritten =>
    match snkWrite bytes s with
    | (.never, _) => .fault .sinkNeverAnswers
    | (_, t) => .next (raiseFrom rest0 .sourceReadError t)

/-- The bytes of a raw block go to the sink unchanged (R507), and the block is done (R508). -/
def rawWrite (bytes : List Byte) (s : State) : Step :=
  match snkWrite bytes s with
  | (.never, _) => .fault .sinkNeverAnswers
  | (.ioerr, t) => .next (raiseError .sinkWriteError t)
  | (.ok, t) => .next (t.blockDone bytes.length)

/-- RawBlock(k) and Advance(k) (R505, R506, R508): EOF is an error except at the final block. -/
def rawBlock (s : State) : Step :=
  match srcRead s.rawSize.toNat s with
  | (.never, _, _) => .fault .sourceNeverAnswers
  | (.ioerr, bytes, t) => rawReadFailed s.src.rest bytes t
  | (.eof, bytes, t) => if s.notLastBlock then rawReadFailed s.src.rest bytes t else rawWrite bytes t
  | (.ok, bytes, t) => rawWrite bytes t

/-! ### Compressed blocks -/

/-- `n` bytes do not fit the scratch RAM (spec/20_memory.md R210; entry 11). -/
def State.scratchExceeded (s : State) (n : Nat) : Bool :=
  match s.params.maxScratch with
  | none => false
  | some m => decide (m < n)

/-- `OFF[k+1] - OFF[k]` for `k = CUR_BLOCK`, exact (R510). -/
def State.compressedLength (s : State) : Int :=
  s.offEntry (s.curBlock.toInt.toNat + 1) - s.offEntry s.curBlock.toInt.toNat

/-- `2 * H_BLOCKSIZE * w`: the guard's bound and the final block's read (R510, R511). -/
def State.readBound (s : State) : Int := 2 * s.hdr.blockSize.toInt * s.w

/-- The scratch load and the start of the decode (R512): the bytes the block's read returned, refused where they do
not fit the scratch RAM. -/
def loadBlock (curBlockSize : Int) (buf : List Byte) (s : State) : Step :=
  if s.scratchExceeded buf.length then .refused .scratchTooSmall else beginDecode curBlockSize (s.loadScratch buf)

/-- CompBlock(k) up to the decode, for a block other than the last (R510, R512). -/
def startInnerBlock (s : State) : Step :=
  if s.readBound ≤ s.compressedLength ∨ s.compressedLength < 0 then .next (raiseError .blockSizeOverflow s)
  else
    match srcRead s.compressedLength.toNat s with
    | (.never, _, _) => .fault .sourceNeverAnswers
    | (.ioerr, _, t) => .next (raiseFrom s.src.rest .sourceReadError t)
    | (.eof, _, t) => .next (raiseFrom s.src.rest .sourceReadError t)
    | (.ok, buf, t) => loadBlock (s.hdr.blockSize.toInt * s.w) buf t

/-- CompBlock(k) up to the decode, for the last block (R511, R512): an upper-bound read, and none at all when the
bound is not positive. -/
def startFinalBlock (s : State) : Step :=
  if s.readBound ≤ 0 then loadBlock (s.hdr.restSize.toInt * s.w) [] s
  else
    match srcRead s.readBound.toNat s with
    | (.never, _, _) => .fault .sourceNeverAnswers
    | (.ioerr, _, t) => .next (raiseFrom s.src.rest .sourceReadError t)
    | (.eof, buf, t) => loadBlock (s.hdr.restSize.toInt * s.w) buf t
    | (.ok, buf, t) => loadBlock (s.hdr.restSize.toInt * s.w) buf t

/-- CompBlock(k) up to the decode (R510, R511). -/
def startBlock (s : State) : Step := if s.notLastBlock then startInnerBlock s else startFinalBlock s

/-- Enough iterations for a block of `T` samples: two seeds and one per sample. -/
def State.blockFuel (s : State) : Nat := s.total + 3

/-- CompBlock(k) and Advance(k) (R510 to R514, R508): the start, then iterations of DecodeBlock until it is over. -/
def compressedBlock (s : State) : Step :=
  match startBlock s with
  | .next t => runBlock execInBlock t.blockFuel t
  | .fault r => .fault r
  | .refused r => .refused r

end Sys2Proof.Machine
end

