-- ==== Sys2Proof/Machine/Commands.lean ====
section
/-! DEFINITION. The meanings of the four commands (spec/30_encoding.md R350). Each is one atomic transition
(spec/20_memory.md R232, spec/70_reset_and_hazards.md R920); a CMD write while a command executes is refused. -/

namespace Sys2Proof.Machine

/-- A command's meaning when no command is executing (R920; entry 10). -/
def whenReady (s : State) (o : Step) : Step := if s.phase = .idle then o else .refused .commandWhileBusy

/-- NOP changes nothing (spec/10_state.md R102). -/
def execNop (s : State) : Step := whenReady s (.next s)

/-- OPEN (spec/40_header_parse.md R400): in every STATE, over whatever the source now supplies (R401). -/
def execOpen (s : State) : Step := whenReady s (openHeader s.cleared)

/-- NEXT (spec/42_block_sequencer.md R500): one unit. -/
def nextUnit (s : State) : Step :=
  match s.sess with
  | .idle => .next s.reportNoSession
  | .error => .next s.reportAborted
  | .finished => .next s.reportEnd
  | .notStarted => nextHeader s
  | .streaming =>
    match s.mode with
    | .raw => rawBlock s
    | .compressed => compressedBlock s

/-- NEXT (R500). -/
def execNext (s : State) : Step := whenReady s (nextUnit s)

/-- RESET (spec/70_reset_and_hazards.md R901): every piece of state at its reset value; the source is not
repositioned and the sink not rolled back. -/
def execReset (s : State) : Step := whenReady s (.next s.cleared)

end Sys2Proof.Machine
end

