-- ==== Sys2Proof/Machine/HostPort.lean ====
section
/-! DEFINITION. The host's side: what a step does with the host's next operation (spec/10_state.md R101, R102;
spec/70_reset_and_hazards.md R910, R921; entry 1), and the placing of a table word where the next step fetches
(entries 16, 17). -/

namespace Sys2Proof.Machine

/-- A session is in progress (spec/70_reset_and_hazards.md R911). -/
def State.inSession (s : State) : Bool := decide (s.sess = .notStarted) || decide (s.sess = .streaming)

/-- Connecting a source or a sink is possible only outside a session (R910, R921; entry 13). -/
def whenDisconnected (s : State) (t : State) : Step := if s.inSession then .refused .portChangedInSession else .next t

/-- One host operation, `ex` giving the meanings: a write of CMD runs the command its value decodes to; any other
write is ignored; a read returns a register and changes nothing else (R101, spec/20_memory.md R232). -/
def hostOp (ex : Instr → State → Step) (op : HostOp) (s : State) : Step :=
  match op with
  | .write offset value => if offset = 0 then ex (decodeCommand value) s else .next s
  | .read offset => .next { s with busData := s.regRead offset }
  | .connectSource source => whenDisconnected s { s with src := source }
  | .connectSink answers => whenDisconnected s { s with sink := ⟨[], answers⟩ }

/-- What a step does when no command is executing: the host's next operation, or nothing at all (R900, R846). -/
def hostStep (ex : Instr → State → Step) (s : State) : Step :=
  match s.host with
  | [] => .next s
  | op :: rest => hostOp ex op { s with host := rest }

/-- The host's next operation is a write of this value to CMD (entry 17). -/
def State.placeCommand (s : State) (w : Nat) : State :=
  { s with phase := .idle, host := .write 0 (BitVec.ofNat 32 w) :: s.host }

/-- A block decode is in the code loop, with the bytes of the word as its bitstream, BR_POS at its first bit, and
samples left to emit (entry 17). -/
def State.placeCode (s : State) (nbits w : Nat) : State :=
  { s with
    phase := .codes
    hdr := { s.hdr with level := toWord tableLevel, rle := if tableRle nbits then 1 else 0 }
    scratch := ramLoad 0 (tableBytes w)
    scrLen := 4
    brBase := 0
    brLen := 4
    brPos := 0
    runlength := 0
    total := s.idx + 2 }

end Sys2Proof.Machine
end

