-- ==== Sys2Proof/Machine/Dispatch.lean ====
section
/-! DEFINITION. The one dispatch from an instruction to its meaning. -/

namespace Sys2Proof.Machine

def exec (i : Instr) (s : State) : Host.Outcome State Fault Refusal :=
  match i with
  | .skip => Sys2Proof.Machine.execSkip s
  | .run0 => Sys2Proof.Machine.execRun0 s
  | .run2 k => Sys2Proof.Machine.execRun2 k s
  | .run8 k => Sys2Proof.Machine.execRun8 k s
  | .diff1 neg mag => Sys2Proof.Machine.execDiff1 neg mag s
  | .diff2 neg mag => Sys2Proof.Machine.execDiff2 neg mag s
  | .diff3 neg mag => Sys2Proof.Machine.execDiff3 neg mag s
  | .diff4 neg mag => Sys2Proof.Machine.execDiff4 neg mag s
  | .diff5 neg mag => Sys2Proof.Machine.execDiff5 neg mag s
  | .diff6 neg mag => Sys2Proof.Machine.execDiff6 neg mag s
  | .zero => Sys2Proof.Machine.execZero s
  | .big neg mag => Sys2Proof.Machine.execBig neg mag s
  | .seed c => Sys2Proof.Machine.execSeed c s
  | .repeatRun => Sys2Proof.Machine.execRepeatRun s
  | .nop => Sys2Proof.Machine.execNop s
  | .openCmd => Sys2Proof.Machine.execOpen s
  | .nextCmd => Sys2Proof.Machine.execNext s
  | .resetCmd => Sys2Proof.Machine.execReset s

end Sys2Proof.Machine
end

