-- ==== Sys2Proof/Machine/Step.lean ====
section
/-! DEFINITION. One step of the machine: while a command executes, one iteration of its block decode (Machine/Block.lean);
otherwise the host's next operation (Machine/HostPort.lean). Commands run to their end in one step, so a block decode in
progress is never the result of a step that started outside one (spec/10_state.md R103; entry 4). -/

namespace Sys2Proof.Machine

/-- One step. -/
def step (s : State) : Host.Outcome State Fault Refusal :=
  if s.phase = .idle then hostStep exec s else blockStep exec s

/-- The state with a word of the opcode table where `step` fetches its next instruction (entry 17). -/
def State.withFetchWord (s : State) (nbits w : Nat) : State :=
  if tableIsCommand nbits then s.placeCommand w else s.placeCode nbits w

end Sys2Proof.Machine
end

