-- ==== Sys2Proof/Safety.lean ====
section
/-! DEFINITION. The terms in which statements about the machine are made: which states are legal (the invariants), when
a port will accept or supply, what an emission does, and what a code leaves unchanged. Nothing here is used by the
machine. -/

namespace Sys2Proof

/-- A code of the bitstream or REPEAT: an instruction that decides one emitted sample (spec/43_bitstream_decode.md
R606). -/
def Instr.decidesSample : Instr → Bool
  | .skip => true
  | .run0 => true
  | .run2 _ => true
  | .run8 _ => true
  | .diff1 _ _ => true
  | .diff2 _ _ => true
  | .diff3 _ _ => true
  | .diff4 _ _ => true
  | .diff5 _ _ => true
  | .diff6 _ _ => true
  | .zero => true
  | .big _ _ => true
  | .seed _ => false
  | .repeatRun => true
  | .nop => false
  | .openCmd => false
  | .nextCmd => false
  | .resetCmd => false

/-- A command (spec/30_encoding.md R350). -/
def Instr.isCommand : Instr → Bool
  | .skip => false
  | .run0 => false
  | .run2 _ => false
  | .run8 _ => false
  | .diff1 _ _ => false
  | .diff2 _ _ => false
  | .diff3 _ _ => false
  | .diff4 _ _ => false
  | .diff5 _ _ => false
  | .diff6 _ _ => false
  | .zero => false
  | .big _ _ => false
  | .seed _ => false
  | .repeatRun => false
  | .nop => true
  | .openCmd => true
  | .nextCmd => true
  | .resetCmd => true

end Sys2Proof

namespace Sys2Proof.Machine

/-! ### Legal states -/

/-- Both RAMs are in canonical form (entry 8). -/
abbrev State.ramsCanonical (s : State) : Prop := Memory.wf s.scratch ∧ Memory.wf s.off

/-- The value of an accumulator is an 8-bit two's-complement value. -/
abbrev Sample.fitsByte (v : Sample) : Prop := -128 ≤ v.toInt ∧ v.toInt ≤ 127

/-- In an 8-bit session both accumulators hold 8-bit values (spec/10_state.md R130, spec/43_bitstream_decode.md R650). -/
abbrev State.samplesInRange (s : State) : Prop :=
  s.narrow = true → Sample.fitsByte s.running0 ∧ Sample.fitsByte s.running1

/-- In mono `flip` is 0 (R131, R641); with run-length off `runlength` is 0 (R610). -/
abbrev State.datapathLegal (s : State) : Prop :=
  (s.stereo = false → s.flip = false) ∧ (s.rleOn = false → s.runlength = 0)

/-- The invariants a successful OPEN has checked (spec/40_header_parse.md R410, R412, R420 to R426) and what it has
derived (R405, R407, R409, R411). -/
abbrev State.headerValid (s : State) : Prop :=
  (s.hdr.channels.toInt = 1 ∨ s.hdr.channels.toInt = 2)
  ∧ (s.hdr.bits.toInt = 8 ∨ s.hdr.bits.toInt = 16)
  ∧ (-1 ≤ s.hdr.level.toInt ∧ s.hdr.level.toInt ≤ 5)
  ∧ s.hdr.dataSize.toInt = s.hdr.samples.toInt * (s.hdr.bits.toInt.tdiv 8)
  ∧ s.hdr.samples.toInt = (s.hdr.blocks.toInt - 1) * s.hdr.blockSize.toInt + s.hdr.restSize.toInt
  ∧ (1 ≤ s.hdr.blocks.toInt ∧ s.hdr.blocks.toInt ≤ 1000000)
  ∧ (s.mode = .raw ↔ s.hdr.level.toInt = -1)
  ∧ (s.mode = .raw → s.hdr.blockSize.toInt = 65536 ∧ 1 ≤ s.hdr.restSize.toInt)
  ∧ (s.mode = .compressed →
      (s.off.length : Int) = s.hdr.blocks.toInt
      ∧ s.offEntry (s.hdr.blocks.toInt - 1).toNat < s.hdr.compSize.toInt)

/-- STATE, CUR_BLOCK, ERRCODE and ERR_BLOCK agree (spec/10_state.md R104, R106; spec/60_exceptions.md R820), and in a
session the header is valid. -/
abbrev State.sessionLegal (s : State) : Prop :=
  match s.sess with
  | .idle => s.curBlock.toInt = -1 ∧ s.errBlock.toInt = -1 ∧ (s.errCode = .none ∨ s.errCode = .noSession)
  | .notStarted => s.curBlock.toInt = -1 ∧ s.errBlock.toInt = -1 ∧ s.errCode = .none ∧ s.headerValid
  | .streaming =>
    (0 ≤ s.curBlock.toInt ∧ s.curBlock.toInt < s.hdr.blocks.toInt)
      ∧ s.errBlock.toInt = -1 ∧ s.errCode = .none ∧ s.headerValid
  | .finished =>
    s.curBlock.toInt = s.hdr.blocks.toInt ∧ s.errBlock.toInt = -1 ∧ s.errCode = .none ∧ s.headerValid
  | .error => s.errBlock = s.curBlock ∧ s.errCode ≠ .none

/-- The bytes of one emitted sample. -/
def State.sampleSize (s : State) : Nat := if s.narrow then 1 else 2

/-- A block decode in progress is inside its bounds: it belongs to a compressed session, samples are left to emit, the
bytes it may read are there, the bit cursor is inside the bitstream (spec/10_state.md R121, R135, R136), and the
bytes waiting for the block's end are those of the samples emitted (R642). -/
abbrev State.decodeLegal (s : State) : Prop :=
  (s.phase ≠ .idle →
    s.sess = .streaming ∧ s.mode = .compressed ∧ s.idx < s.total ∧ s.scratch.length = s.scrLen
    ∧ s.outBuf.length = (if s.params.partialOut = .wholeBlocks then s.idx * s.sampleSize else 0))
  ∧ (s.phase = .seeding true → s.stereo = true)
  ∧ (s.phase = .codes → s.brBase + s.brLen = s.scrLen ∧ s.brPos ≤ 8 * s.brLen)
  ∧ (s.phase = .idle → s.outBuf = [])

/-! ### Ports -/

/-- The sink will accept the next write (spec/20_memory.md R234). -/
abbrev State.sinkAccepts (s : State) : Prop := s.sink.answers.headD .ok = .ok

/-- The sink will answer the next write with IOERR (R234). -/
abbrev State.sinkFails (s : State) : Prop := s.sink.answers.headD .ok = .ioerr

/-- The sink will never answer the next write (spec/70_reset_and_hazards.md R923). -/
abbrev State.sinkSilent (s : State) : Prop := s.sink.answers.headD .ok = .never

/-- The sink will accept every write. -/
abbrev State.sinkAlwaysAccepts (s : State) : Prop := ∀ a ∈ s.sink.answers, a = .ok

/-- The source will answer the next read without failing (R233). -/
abbrev State.sourceAnswers (s : State) : Prop := s.src.answers.headD .ok = .ok

/-- The source will answer the next read with IOERR (R233). -/
abbrev State.sourceFails (s : State) : Prop := s.src.answers.headD .ok = .ioerr

/-- The source will never answer the next read (R923). -/
abbrev State.sourceSilent (s : State) : Prop := s.src.answers.headD .ok = .never

/-- A block of `n` bytes fits the scratch RAM (R210). -/
abbrev State.scratchHolds (s : State) (n : Int) : Prop := ∀ cap ∈ s.params.maxScratch, n ≤ cap

/-- An emission will succeed: the sample waits for the block's end, or the sink accepts it (spec/43_bitstream_decode.md
R640, R642). -/
abbrev State.canEmit (s : State) : Prop := s.params.partialOut = .wholeBlocks ∨ s.sinkAccepts

/-! ### What an emission does, and frames -/

/-- The bytes of an N-bit sample value (spec/30_encoding.md R341). -/
abbrev State.bytesOf (s : State) (v : Int) : List Byte := if s.hdr.bits = 8 then [BitVec.ofInt 8 v] else le16 v

/-- `t` is `s` after one sample has been emitted with these bytes (spec/43_bitstream_decode.md R640 to R642): `i`
advances, `flip` toggles in stereo, and the bytes are in the sink (PREFIX) or wait for the block's end (NONE). -/
abbrev Emitted (s t : State) (bytes : List Byte) : Prop :=
  t.idx = s.idx + 1
  ∧ t.flip = (if s.hdr.channels = 2 then !s.flip else s.flip)
  ∧ (s.params.partialOut = .keepWritten →
      t.sink.bytes = s.sink.bytes ++ bytes ∧ t.sink.answers = s.sink.answers.tail
      ∧ t.snkPos = s.snkPos + bytes.length ∧ t.outBuf = s.outBuf)
  ∧ (s.params.partialOut = .wholeBlocks →
      t.outBuf = s.outBuf ++ bytes ∧ t.sink = s.sink ∧ t.snkPos = s.snkPos)

/-- What every code leaves unchanged: the register file, the header registers, both RAMs byte by byte and entry by
entry, the BitReader (the fetch moves BR_POS, not the code), `T`, the source, and the model's own bookkeeping. -/
abbrev CodeFrame (s t : State) : Prop :=
  (t.sess = s.sess ∧ t.result = s.result ∧ t.mode = s.mode ∧ t.errCode = s.errCode ∧ t.curBlock = s.curBlock
    ∧ t.lastLen = s.lastLen ∧ t.errBlock = s.errBlock ∧ t.hdr = s.hdr)
  ∧ ((∀ a, t.scratchByte a = s.scratchByte a) ∧ (∀ k, t.offEntry k = s.offEntry k)
    ∧ t.scratch = s.scratch ∧ t.off = s.off ∧ t.scrLen = s.scrLen)
  ∧ (t.brBase = s.brBase ∧ t.brLen = s.brLen ∧ t.brPos = s.brPos ∧ t.total = s.total ∧ t.srcPos = s.srcPos)
  ∧ (t.phase = s.phase ∧ t.src = s.src ∧ t.host = s.host ∧ t.busData = s.busData ∧ t.freeCtr = s.freeCtr
    ∧ t.params = s.params)

/-- `t` is `s` after the error has been taken (spec/60_exceptions.md R820): what is recorded, and what keeps its
value. SRC_POS and the source's position are not said (R823). -/
abbrev ErrorTaken (e : ErrCode) (s t : State) : Prop :=
  (t.sess = .error ∧ t.errCode = e ∧ t.errBlock = s.curBlock ∧ t.result = .error ∧ t.lastLen = 0 ∧ t.busy = false)
  ∧ (t.curBlock = s.curBlock ∧ t.mode = s.mode ∧ t.hdr = s.hdr ∧ t.off = s.off)
  ∧ (t.host = s.host ∧ t.busData = s.busData ∧ t.params = s.params)

/-- `t` is `s` after a sink write of these bytes has failed: SinkWriteError, a prefix of the bytes in the sink (R234),
SNK_POS as before. -/
abbrev WriteFailed (bytes : List Byte) (s t : State) : Prop :=
  ErrorTaken .sinkWriteError s t ∧ (∃ k, t.sink.bytes = s.sink.bytes ++ bytes.take k) ∧ t.snkPos = s.snkPos

/-- The datapath, the BitReader and the loop registers at their reset values, no block decode in progress
(spec/10_state.md R150, R151). -/
abbrev DatapathCleared (t : State) : Prop :=
  t.scrLen = 0 ∧ t.running0 = 0 ∧ t.running1 = 0 ∧ t.flip = false ∧ t.runlength = 0 ∧ t.brBase = 0 ∧ t.brLen = 0
  ∧ t.brPos = 0 ∧ t.total = 0 ∧ t.idx = 0 ∧ t.phase = .idle

/-! ### Points of a block decode -/

/-- A block decode at the seed of its last channel, with nothing emitted yet and a sample to emit
(spec/43_bitstream_decode.md R600). -/
abbrev State.lastSeedDue (s : State) (c : Chan) : Prop :=
  s.phase = .seeding c ∧ (c = true ∨ s.hdr.channels ≠ 2) ∧ s.idx = 0 ∧ s.flip = false ∧ 0 < s.total

/-- A block decode in the code loop, at the REPEAT or the code of the block's last sample (R606). -/
abbrev State.lastSampleDue (s : State) : Prop :=
  s.phase = .codes ∧ s.idx + 1 = s.total ∧ (s.runlength ≠ 0 ∨ ∃ i len, s.decodeNext = .code i len)

/-- The state in the code loop whose bitstream is the scratch after `C*w` seed bytes, its first bit the next one
(spec/44_bitreader.md R701). -/
abbrev State.atBitstream (t : State) : State :=
  let base := (if t.hdr.channels = 2 then 2 else 1) * (t.hdr.bits.toInt.tdiv 8).toNat
  { t with phase := .codes, brBase := base, brLen := t.scrLen - base, brPos := 0 }

/-- `t` is `s` after the first `min(C, T)` seeds have been emitted directly (R605), in the order of the channels. -/
abbrev SeedsEmitted (s t : State) : Prop :=
  let both := s.hdr.channels = 2 ∧ 2 ≤ s.total
  let pcm := s.bytesOf s.running0.toInt ++ if both then s.bytesOf s.running1.toInt else []
  t.idx = (if both then 2 else 1) ∧ t.flip = decide (s.hdr.channels = 2 ∧ s.total < 2)
  ∧ t.running0 = s.running0 ∧ t.running1 = s.running1 ∧ t.runlength = s.runlength
  ∧ (s.params.partialOut = .keepWritten →
      t.sink.bytes = s.sink.bytes ++ pcm ∧ t.snkPos = s.snkPos + pcm.length ∧ t.outBuf = s.outBuf)
  ∧ (s.params.partialOut = .wholeBlocks → t.outBuf = s.outBuf ++ pcm ∧ t.sink = s.sink ∧ t.snkPos = s.snkPos)
  ∧ CodeFrame s t

/-! ### The errors of OPEN -/

/-- The error that OPEN over this source takes: the first that applies in the order of spec/60_exceptions.md R830, read
off the stream's bytes and the source's answers; `none` where no check fails. OffsetTableMissing never applies
(spec/40_header_parse.md R425). -/
def firstOpenError (src : Source) : ErrCode :=
  let f := parseHeader (src.rest.take 44)
  let w := f.bits.toInt.tdiv 8
  let layout := f.channels.toInt = 1 ∨ f.channels.toInt = 2
  let depth := f.bits.toInt = 8 ∨ f.bits.toInt = 16
  if src.answers.headD .ok = .ioerr then .sourceReadError
  else if src.rest.length < 44 then .truncatedHeader
  else if f.level.toInt = -1 then
    let restSize := (f.dataSize.toInt.tmod (65536 * w)).tdiv w
    let blocks := f.dataSize.toInt.tdiv (65536 * w) + if 0 < restSize then 1 else 0
    if ¬ layout then .unsupportedChannelLayout
    else if ¬ depth then .unsupportedBitDepth
    else if blocks ≤ 0 ∨ 1000000 < blocks then .blockCountOutOfRange
    else if f.dataSize.toInt ≠ f.samples.toInt * w then .inconsistentDataSize
    else if f.samples.toInt ≠ (blocks - 1) * 65536 + restSize then .inconsistentSampleCount
    else .none
  else
    let last := 40 + 4 * f.blocks.toInt.toNat
    if f.blocks.toInt ≤ 0 ∨ 1000000 < f.blocks.toInt then .blockCountOutOfRange
    else if src.answers.tail.headD .ok = .ioerr then .sourceReadError
    else if (src.rest.length : Int) < 44 + 4 * f.blocks.toInt then .truncatedOffsetTable
    else if ¬ layout then .unsupportedChannelLayout
    else if ¬ depth then .unsupportedBitDepth
    else if f.level.toInt < 0 ∨ 5 < f.level.toInt then .invalidCompressionLevel
    else if f.dataSize.toInt ≠ f.samples.toInt * w then .inconsistentDataSize
    else if f.samples.toInt ≠ (f.blocks.toInt - 1) * f.blockSize.toInt + f.restSize.toInt then .inconsistentSampleCount
    else if f.compSize.toInt ≤ (quad32 (src.rest.getD last 0) (src.rest.getD (last + 1) 0)
        (src.rest.getD (last + 2) 0) (src.rest.getD (last + 3) 0)).toInt then .lastOffsetOverrunsFile
    else .none

/-- A state that every invariant of the model holds in. -/
abbrev State.legal (s : State) : Prop :=
  s.ramsCanonical ∧ s.samplesInRange ∧ s.datapathLegal ∧ s.sessionLegal ∧ s.decodeLegal

/-- `n` NEXTs, one after the other, each once the one before has ended. -/
def nexts : Nat → State → Step
  | 0, s => .next s
  | n + 1, s =>
    match exec .nextCmd s with
    | .next t => nexts n t
    | .fault r => .fault r
    | .refused r => .refused r

/-- A state in STREAMING of a session of this mode, no command executing. -/
abbrev State.readyToStream (s : State) (m : Mode) : Prop := s.phase = .idle ∧ s.sess = .streaming ∧ s.mode = m

/-- DIFF with exponent `e` in 1..6 (spec/30_encoding.md R334). -/
def diffInstr (e : Fin 6) (neg : Bool) (mag : BitVec 7) : Instr :=
  match e with
  | 0 => .diff1 neg mag
  | 1 => .diff2 neg mag
  | 2 => .diff3 neg mag
  | 3 => .diff4 neg mag
  | 4 => .diff5 neg mag
  | 5 => .diff6 neg mag

/-- The number of values an N-bit sample takes: 2^8 or 2^16 (spec/00_scope.md R15). -/
abbrev State.modulus (s : State) : Nat := if s.hdr.bits = 8 then 256 else 65536

end Sys2Proof.Machine
end

