-- ==== Sys2Proof/Certificates/Slice0/Obligations.lean ====
section
/-! DEFINITION. The statements for the provers, in the order of OBLIGATIONS.json: encoding, formats and the BitReader;
reset and the register file; the step; the codes; OPEN; NEXT; errors and stops; whole-machine rules and invariants.
Statements about a parameter or a free value hold for every value of it: the parameters are a field of every state. -/

open Sys2Proof Sys2Proof.Machine

/-! ### Encoding -/

/-- Words written out bit by bit from spec/30_encoding.md R330 and R350 decode to the instructions they stand for. -/
def Obligations.WrittenOutWordsDecode : Prop :=
  decodeBytes .lazyEnd false 2 [0b00000000] = .code .skip 3
  ∧ decodeBytes .lazyEnd true 2 [0b00000000] = .code .run0 4
  ∧ decodeBytes .lazyEnd true 2 [0b00101000] = .code (.run2 2) 6
  ∧ decodeBytes .lazyEnd true 2 [0b01111000, 0b00000001] = .code (.run8 5) 14
  ∧ decodeBytes .lazyEnd false 0 [0b10001001] = .code (.diff1 true 1) 8
  ∧ decodeBytes .lazyEnd false 5 [0b11111110, 0b00000011] = .code (.diff6 false 127) 11
  ∧ decodeBytes .lazyEnd true 5 [0b00001111] = .code .zero 4
  ∧ decodeBytes .lazyEnd true 2 [0b00010111, 0b00000010] = .code (.big true 1) 10
  ∧ decodeCommand 0 = .nop ∧ decodeCommand 1 = .openCmd ∧ decodeCommand 2 = .nextCmd ∧ decodeCommand 3 = .resetCmd

/-- Decode and encode agree on every code, with every operand, at every bit position of every bitstream that holds the
code's bits, under both exhaustion modes (R330 to R336, R338). -/
def Obligations.DecodeOfEncodedCode : Prop :=
  ∀ (c : CodeCtx) (i : Instr) (m : ExhaustMode) (byteAt : Nat → Byte) (nbytes p len w : Nat),
    i.wf c = true → encode c.level i = .bits len w →
    exhausted m p len nbytes = false → streamField byteAt p len = w →
    decodeCode c.rle c.level (fun q n => readField m byteAt nbytes (p + q) n) = .code i len

/-- At levels 0 to 5 every bit sequence begins with the encoding of exactly one code; and where the bits of that code
are not all there, decoding answers that they ran out, after fewer bits than the code has (R339). -/
def Obligations.EveryBitSequenceBeginsWithOneCode : Prop :=
  (∀ (rle : Bool) (lvl : Int) (byteAt : Nat → Byte) (p : Nat), 0 ≤ lvl → lvl ≤ 5 →
    ∃! i : Instr, i.wf { rle := rle, level := lvl, stereo := false } = true
      ∧ ∃ len w, encode lvl i = .bits len w ∧ streamField byteAt p len = w)
  ∧ (∀ (c : CodeCtx) (i : Instr) (m : ExhaustMode) (byteAt : Nat → Byte) (nbytes p len w : Nat),
    i.wf c = true → encode c.level i = .bits len w → streamField byteAt p len = w →
    exhausted m p len nbytes = true →
    ∃ used, used < len ∧ decodeCode c.rle c.level (fun q n => readField m byteAt nbytes (p + q) n) = .exhausted used)

/-- The commands: `CMD[1:0]` decides, `CMD[31:2]` is ignored, and each command decodes from its encoding (R102,
R350). -/
def Obligations.CommandIsTheLowTwoBits : Prop :=
  (∀ v : Word, decodeCommand v =
    if v.toNat % 4 = 0 then .nop else if v.toNat % 4 = 1 then .openCmd
    else if v.toNat % 4 = 2 then .nextCmd else .resetCmd)
  ∧ (∀ (lvl : Int) (i : Instr) (v : Word), encode lvl i = .command v → decodeCommand v = i)

/-- The table of R320: widths and shifts for every level and exponent. -/
def Obligations.DifferentialParameterTable : Prop :=
  ([0, 1, 2, 3, 4, 5].map diffBits = [5, 4, 3, 6, 7, 8])
  ∧ ([0, 1, 2, 3, 4, 5].map (fun lvl => [1, 2, 3, 4, 5, 6].map (diffShift lvl))
    = [[3, 4, 5, 6, 7, 8], [4, 5, 6, 7, 8, 9], [5, 6, 7, 8, 9, 10], [2, 3, 4, 5, 6, 7], [2, 3, 4, 5, 6, 7],
      [2, 3, 4, 5, 6, 7]])
  ∧ ([0, 1, 2, 3, 4, 5].map bigBits = [8, 7, 6, 8, 8, 8])
  ∧ ([0, 1, 2, 3, 4, 5].map bigShift = [9, 10, 11, 9, 9, 9])

/-- The run-length flag changes only the decoding of exponent 0, at every level (R655). -/
def Obligations.RunLengthFlagChangesOnlyExponentZero : Prop :=
  ∀ (lvl : Int) (rd : Nat → Nat → FieldRead) (e : Nat), rd 0 3 = .value e → e ≠ 0 →
    decodeCode true lvl rd = decodeCode false lvl rd

/-! ### Formats and the BitReader -/

/-- A field read second is the higher-order part (R208). -/
def Obligations.LaterFieldIsHigherOrder : Prop :=
  ∀ (byteAt : Nat → Byte) (p n k : Nat),
    streamField byteAt p (n + k) = streamField byteAt p n + 2 ^ n * streamField byteAt (p + n) k

/-- ReadBits of 1 to 8 bits at cursor `p` (R703, R705): under LAZY it fails exactly when a bit does not exist, under
EAGER also when it ends at the end; otherwise bit `j` of its value is bit `p + j` of the bitstream. -/
def Obligations.ReadBitsValueAndExhaustion : Prop :=
  ∀ (m : ExhaustMode) (byteAt : Nat → Byte) (nbytes p n : Nat), 1 ≤ n → n ≤ 8 →
    (readField m byteAt nbytes p n = .exhausted ↔
      (m = .lazyEnd ∧ 8 * nbytes < p + n) ∨ (m = .eagerEnd ∧ 8 * nbytes ≤ p + n))
    ∧ (readField m byteAt nbytes p n ≠ .exhausted →
      ∃ v, readField m byteAt nbytes p n = .value v ∧ v < 2 ^ n
        ∧ ∀ j, j < n → v.testBit j = (byteAt ((p + j) / 8)).getLsbD ((p + j) % 8))

/-- The bytes `le16` and `le32` write, least significant first, are the value modulo 2^16 and 2^32 (R13); the integers
`sint16` and `sint32` read are the two's-complement values of the little-endian bytes. -/
def Obligations.LittleEndianIntegers : Prop :=
  (∀ v : Int, (le16 v).length = 2 ∧
    ((le16 v).foldr (fun b acc => b.toNat + 256 * acc) 0 : Int) = v % 65536)
  ∧ (∀ v : Int, (le32 v).length = 4 ∧
    ((le32 v).foldr (fun b acc => b.toNat + 256 * acc) 0 : Int) = v % 4294967296)
  ∧ (∀ b0 b1 : Byte, (pair16 b0 b1).toInt = (b0.toNat + 256 * b1.toNat : Int).bmod 65536)
  ∧ (∀ b0 b1 b2 b3 : Byte, (quad32 b0 b1 b2 b3).toInt
    = (b0.toNat + 256 * (b1.toNat + 256 * (b2.toNat + 256 * b3.toNat)) : Int).bmod 4294967296)

/-- After the scratch load the scratch holds the block's bytes and nothing else, in canonical form (R512, R121). The
list form and the replacement of the whole RAM are the model's choice (entries 8, 20). -/
def Obligations.ScratchHoldsTheBlock : Prop :=
  ∀ (buf : List Byte) (s : State),
    (s.loadScratch buf).scrLen = buf.length
    ∧ Memory.wf (s.loadScratch buf).scratch
    ∧ (∀ (a : Nat) (h : a < buf.length), (s.loadScratch buf).scratchByte a = buf[a])
    ∧ (∀ a, buf.length ≤ a → ramRead (s.loadScratch buf).scratch a = none)

/-- The WAV header's 44 bytes, field by field at their offsets (R340, R451). -/
def Obligations.WavHeaderLayout : Prop :=
  ∀ (p c n r : Int),
    (wavHeader p c n r).length = 44
    ∧ (wavHeader p c n r).take 4 = [0x52, 0x49, 0x46, 0x46]
    ∧ ((wavHeader p c n r).drop 4).take 4 = le32 (p + 0x24)
    ∧ ((wavHeader p c n r).drop 8).take 4 = [0x57, 0x41, 0x56, 0x45]
    ∧ ((wavHeader p c n r).drop 12).take 4 = [0x66, 0x6D, 0x74, 0x20]
    ∧ ((wavHeader p c n r).drop 16).take 4 = le32 16
    ∧ ((wavHeader p c n r).drop 20).take 2 = le16 1
    ∧ ((wavHeader p c n r).drop 22).take 2 = le16 c
    ∧ ((wavHeader p c n r).drop 24).take 4 = le32 r
    ∧ ((wavHeader p c n r).drop 28).take 4 = le32 (r * n.tdiv 8 * c)
    ∧ ((wavHeader p c n r).drop 32).take 2 = le16 (n.tdiv 8 * c)
    ∧ ((wavHeader p c n r).drop 34).take 2 = le16 n
    ∧ ((wavHeader p c n r).drop 36).take 4 = [0x64, 0x61, 0x74, 0x61]
    ∧ (wavHeader p c n r).drop 40 = le32 p

/-! ### Reset and the register file -/

/-- The reset values that spec/10_state.md R150 states. The contents of OFF and Scratch are not said. -/
def Obligations.ResetValues : Prop :=
  (State.reset.sess = .idle ∧ State.reset.busy = false ∧ State.reset.result = .none ∧ State.reset.mode = .raw
    ∧ State.reset.errCode = .none ∧ State.reset.curBlock = 0xFFFFFFFF ∧ State.reset.lastLen = 0
    ∧ State.reset.errBlock = 0xFFFFFFFF)
  ∧ State.reset.hdr = Header.mk 0 0 0 0 0 0 0 0 0 0 0
  ∧ (State.reset.scrLen = 0 ∧ State.reset.running0 = 0 ∧ State.reset.running1 = 0 ∧ State.reset.flip = false
    ∧ State.reset.runlength = 0 ∧ State.reset.brBase = 0 ∧ State.reset.brLen = 0 ∧ State.reset.brPos = 0
    ∧ State.reset.total = 0 ∧ State.reset.idx = 0 ∧ State.reset.srcPos = 0 ∧ State.reset.snkPos = 0)

/-- RESET (R901) in every STATE: a next state with every entry of R150 at its reset value, the source not
repositioned, the sink not rolled back. The fields of the last clause are the model's own (entries 1, 2, 3, 19). -/
def Obligations.ResetCommand : Prop :=
  ∀ s : State, s.phase = .idle →
    ∃ t, exec .resetCmd s = .next t
      ∧ (t.statusWord = 0 ∧ t.curBlock = 0xFFFFFFFF ∧ t.lastLen = 0 ∧ t.errBlock = 0xFFFFFFFF)
      ∧ t.hdr = Header.mk 0 0 0 0 0 0 0 0 0 0 0
      ∧ DatapathCleared t ∧ t.srcPos = 0 ∧ t.snkPos = 0
      ∧ (t.src = s.src ∧ t.sink = s.sink ∧ t.host = s.host ∧ t.busData = s.busData ∧ t.freeCtr = s.freeCtr
        ∧ t.params = s.params)

/-- What the host reads (R101, R103): the register map, 0 from CMD and from the offsets that hold no register, and the
fields and reserved bits of STATUS with the numbers of R103 and R801. -/
def Obligations.HostReadsTheRegisterFile : Prop :=
  ∀ s : State,
    [0x04, 0x08, 0x0C, 0x10, 0x14, 0x18, 0x1C, 0x20, 0x24, 0x28, 0x2C, 0x30, 0x34, 0x38, 0x3C].map s.regRead
      = [s.statusWord, s.curBlock, s.lastLen, s.errBlock, s.hdr.channels, s.hdr.bits, s.hdr.rate, s.hdr.level,
        s.hdr.rle, s.hdr.blocks, s.hdr.dataSize, s.hdr.compSize, s.hdr.samples, s.hdr.blockSize, s.hdr.restSize]
    ∧ (∀ offset, (offset = 0 ∨ 0x40 ≤ offset ∨ offset % 4 ≠ 0) → s.regRead offset = 0)
    ∧ (s.statusWord.extractLsb' 0 3).toNat = (match s.sess with
        | .idle => 0 | .notStarted => 1 | .streaming => 2 | .finished => 3 | .error => 4)
    ∧ (s.statusWord.extractLsb' 3 1).toNat = (if s.busy then 1 else 0)
    ∧ (s.statusWord.extractLsb' 4 2).toNat = (match s.result with
        | .none => 0 | .chunk => 1 | .finish => 2 | .error => 3)
    ∧ (s.statusWord.extractLsb' 6 1).toNat = (match s.mode with | .raw => 0 | .compressed => 1)
    ∧ (s.statusWord.extractLsb' 7 1).toNat = 0
    ∧ (s.statusWord.extractLsb' 8 8).toNat = (match s.errCode with
        | .none => 0 | .truncatedHeader => 1 | .blockCountOutOfRange => 2 | .truncatedOffsetTable => 3
        | .unsupportedChannelLayout => 4 | .unsupportedBitDepth => 5 | .invalidCompressionLevel => 6
        | .inconsistentDataSize => 7 | .inconsistentSampleCount => 8 | .offsetTableMissing => 9
        | .lastOffsetOverrunsFile => 10 | .blockSizeOverflow => 11 | .bitstreamExhausted => 12
        | .sourceReadError => 13 | .sinkWriteError => 14 | .noSession => 15)
    ∧ (s.statusWord.extractLsb' 16 16).toNat = 0

/-! ### The step -/

/-- A step whose next host operation is a write of CMD is `exec` of the command it decodes to (R102). The list of the
host's operations is the model's choice (entry 1). -/
def Obligations.StepRunsTheCommandWritten : Prop :=
  ∀ (s : State) (v : Word) (rest : List HostOp), s.phase = .idle → s.host = .write 0 v :: rest →
    step s = exec (decodeCommand v) { s with host := rest }

/-- Inside a block a step is `exec` of the SEED due, of REPEAT, or of the code at BR_POS after BR_POS has moved over
it, and then what R600 does after it: the other channel's seed; after the last seed BitReaderInit (R701) and, under
SEED_EMIT, the emission of the first `min(C, T)` seeds (R605); after a sample the next iteration or the block's end. A
code whose bits are not there is BitstreamExhausted with the block's index, BR_POS moved over the fields read (R705,
R706). That a block decode can be stepped through is the model's choice (entry 4). -/
def Obligations.StepRunsTheCodeAtTheCursor : Prop :=
  (∀ (s : State) (c : Chan), s.phase = .seeding c → step s = thenBlock (exec (.seed c) s) (afterSeed c))
  ∧ (∀ s t : State, s.phase = .seeding false → s.hdr.channels = 2 → exec (.seed false) s = .next t →
    t.phase ≠ .idle → step s = .next { t with phase := .seeding true })
  ∧ (∀ (s t : State) (c : Chan), s.lastSeedDue c → exec (.seed c) s = .next t → t.phase ≠ .idle →
    (s.params.seedMode = .codeEvery → step s = .next t.atBitstream)
    ∧ (s.params.seedMode = .seedEmit → (s.params.partialOut = .wholeBlocks ∨ s.sinkAlwaysAccepts) →
      ∃ v, SeedsEmitted t.atBitstream v ∧ (v.idx < v.total → step s = .next v)
        ∧ (v.total ≤ v.idx → step s = finishBlock v)))
  ∧ (∀ s : State, s.phase = .codes → s.idx < s.total → s.runlength ≠ 0 →
    step s = thenBlock (exec .repeatRun s) afterSample
    ∧ ∀ t, exec .repeatRun s = .next t → t.phase = .codes →
      (t.idx < t.total → step s = .next t) ∧ (t.total ≤ t.idx → step s = finishBlock t))
  ∧ (∀ (s : State) (i : Instr) (len : Nat), s.phase = .codes → s.idx < s.total → s.runlength = 0 →
    s.decodeNext = .code i len → i.wf s.codeCtx = true →
    step s = thenBlock (exec i (s.advanceBits len)) afterSample
    ∧ ∀ t, exec i (s.advanceBits len) = .next t → t.phase = .codes →
      (t.idx < t.total → step s = .next t) ∧ (t.total ≤ t.idx → step s = finishBlock t))
  ∧ (∀ (s : State) (used : Nat), s.phase = .codes → s.idx < s.total → s.runlength = 0 →
    s.decodeNext = .exhausted used →
    ∃ t, step s = .next t ∧ ErrorTaken .bitstreamExhausted s t
      ∧ (t.running0 = s.running0 ∧ t.running1 = s.running1 ∧ t.flip = s.flip ∧ t.runlength = s.runlength
        ∧ t.brBase = s.brBase ∧ t.brLen = s.brLen ∧ t.brPos = s.brPos + used ∧ t.total = s.total ∧ t.idx = s.idx
        ∧ t.scratch = s.scratch ∧ t.scrLen = s.scrLen ∧ t.sink = s.sink ∧ t.snkPos = s.snkPos))

/-- A write to any other offset is ignored, and a read returns a register and changes nothing else (R101, R232). The
list of the host's operations and the register that keeps what was read are the model's choice (entries 1, 19). -/
def Obligations.OtherHostAccesses : Prop :=
  (∀ (s : State) (offset : Nat) (v : Word) (rest : List HostOp), s.phase = .idle →
    s.host = .write offset v :: rest → offset ≠ 0 → step s = .next { s with host := rest })
  ∧ (∀ (s : State) (offset : Nat) (rest : List HostOp), s.phase = .idle → s.host = .read offset :: rest →
    step s = .next { s with host := rest, busData := s.regRead offset })
  ∧ (∀ s : State, s.phase = .idle → s.host = [] → step s = .next s)

/-- NOP changes nothing (R102). -/
def Obligations.NopChangesNothing : Prop := ∀ s : State, s.phase = .idle → exec .nop s = .next s

/-- A CMD write while a command executes is refused, whatever the command (R920). The states in which BUSY is 1 are
the model's choice (entries 4, 10). -/
def Obligations.CommandWhileBusyRefused : Prop :=
  ∀ (s : State) (i : Instr), s.busy = true → i.isCommand = true → exec i s = .refused .commandWhileBusy

/-! ### The codes -/

/-- SKIP and RUN0 (R610, R611): a next state in which the accumulators are unchanged and the sample has been emitted
(R640, R641); SKIP leaves `runlength`, RUN0 sets it to 0. -/
def Obligations.SkipAndRun0EmitUnchanged : Prop :=
  ∀ s : State, s.canEmit →
    (∃ t, exec .skip s = .next t
      ∧ t.running0 = s.running0 ∧ t.running1 = s.running1 ∧ t.runlength = s.runlength
      ∧ Emitted s t (s.bytesOf (s.running s.flip).toInt) ∧ CodeFrame s t)
    ∧ (∃ t, exec .run0 s = .next t
      ∧ t.running0 = s.running0 ∧ t.running1 = s.running1 ∧ t.runlength = 0
      ∧ Emitted s t (s.bytesOf (s.running s.flip).toInt) ∧ CodeFrame s t)

/-- RUN2 and RUN8 (R612, R613): as RUN0, with the run length of the code. -/
def Obligations.Run2AndRun8SetTheRunLength : Prop :=
  ∀ s : State, s.canEmit →
    (∀ k : BitVec 2, ∃ t, exec (.run2 k) s = .next t
      ∧ t.running0 = s.running0 ∧ t.running1 = s.running1 ∧ t.runlength.toNat = k.toNat
      ∧ Emitted s t (s.bytesOf (s.running s.flip).toInt) ∧ CodeFrame s t)
    ∧ (∀ k : BitVec 8, ∃ t, exec (.run8 k) s = .next t
      ∧ t.running0 = s.running0 ∧ t.running1 = s.running1 ∧ t.runlength.toNat = k.toNat
      ∧ Emitted s t (s.bytesOf (s.running s.flip).toInt) ∧ CodeFrame s t)

/-- REPEAT (R632), taken while `runlength > 0`. -/
def Obligations.RepeatCountsDown : Prop :=
  ∀ s : State, 0 < s.runlength.toNat → s.canEmit →
    ∃ t, exec .repeatRun s = .next t
      ∧ t.running0 = s.running0 ∧ t.running1 = s.running1 ∧ t.runlength.toNat = s.runlength.toNat - 1
      ∧ Emitted s t (s.bytesOf (s.running s.flip).toInt) ∧ CodeFrame s t

/-- DIFF1 to DIFF6 (R620, R621, R650): the accumulator `flip` selects moves by the signed differential modulo 2^N,
read as two's complement; the other is unchanged; the new value is emitted. The accumulator's 16-bit form is the
model's choice (entry 14). -/
def Obligations.DiffMovesTheSample : Prop :=
  ∀ (s : State) (e : Fin 6) (neg : Bool) (mag : BitVec 7), 0 ≤ s.hdr.level.toInt → s.hdr.level.toInt ≤ 5 →
    (s.hdr.bits = 8 ∨ s.hdr.bits = 16) → s.canEmit →
    ∃ t, exec (diffInstr e neg mag) s = .next t
      ∧ (t.running s.flip).toInt = ((s.running s.flip).toInt
          + (if neg then -1 else 1) * (mag.toNat * 2 ^ (if 3 ≤ s.hdr.level.toInt then 1 + ((e : Nat) + 1 : Int)
              else 2 + ((e : Nat) + 1 : Int) + s.hdr.level.toInt).toNat : Int)).bmod s.modulus
      ∧ t.running (!s.flip) = s.running (!s.flip) ∧ t.runlength = s.runlength
      ∧ Emitted s t (s.bytesOf (t.running s.flip).toInt) ∧ CodeFrame s t

/-- BIG (R631, R621, R650): as DIFF, with the shift `S7`. The accumulator's 16-bit form is the model's choice (entry
14). -/
def Obligations.BigMovesTheSample : Prop :=
  ∀ (s : State) (neg : Bool) (mag : BitVec 7), 0 ≤ s.hdr.level.toInt → s.hdr.level.toInt ≤ 5 →
    (s.hdr.bits = 8 ∨ s.hdr.bits = 16) → s.canEmit →
    ∃ t, exec (.big neg mag) s = .next t
      ∧ (t.running s.flip).toInt = ((s.running s.flip).toInt
          + (if neg then -1 else 1) * (mag.toNat * 2 ^ (if 3 ≤ s.hdr.level.toInt then 9
              else 9 + s.hdr.level.toInt).toNat : Int)).bmod s.modulus
      ∧ t.running (!s.flip) = s.running (!s.flip) ∧ t.runlength = s.runlength
      ∧ Emitted s t (s.bytesOf (t.running s.flip).toInt) ∧ CodeFrame s t

/-- ZERO (R630), whatever the run-length flag and the level. -/
def Obligations.ZeroClearsTheSample : Prop :=
  ∀ s : State, s.canEmit →
    ∃ t, exec .zero s = .next t
      ∧ t.running s.flip = 0 ∧ t.running (!s.flip) = s.running (!s.flip) ∧ t.runlength = s.runlength
      ∧ Emitted s t (s.bytesOf 0) ∧ CodeFrame s t

/-- SEED (R603): the accumulator holds the seed, one byte or two with the low byte first, as a signed value; nothing
else changes, and nothing is emitted. The accumulator's 16-bit form is the model's choice (entry 14). -/
def Obligations.SeedLoadsTheSample : Prop :=
  ∀ (s : State) (c : Chan), (s.hdr.bits = 8 ∨ s.hdr.bits = 16) → s.seedBytes ≤ s.scrLen →
    ∃ t, exec (.seed c) s = .next t
      ∧ (s.hdr.bits = 8 → (t.running c).toInt = ((s.scratchByte c.toNat).toNat : Int).bmod 256)
      ∧ (s.hdr.bits = 16 → (t.running c).toInt
          = ((s.scratchByte (2 * c.toNat)).toNat + 256 * (s.scratchByte (2 * c.toNat + 1)).toNat : Int).bmod 65536)
      ∧ t.running (!c) = s.running (!c) ∧ t.runlength = s.runlength ∧ t.flip = s.flip ∧ t.idx = s.idx
      ∧ t.outBuf = s.outBuf ∧ t.sink = s.sink ∧ t.snkPos = s.snkPos ∧ CodeFrame s t

/-- SEED with fewer than `C*w` bytes in the scratch raises BitstreamExhausted before any sample of the block is
emitted (R604). -/
def Obligations.SeedShortfallRaises : Prop :=
  ∀ (s : State) (c : Chan),
    (s.hdr.channels = 1 ∨ s.hdr.channels = 2) → (s.hdr.bits = 8 ∨ s.hdr.bits = 16) →
    (s.scrLen : Int) < s.hdr.channels.toInt * s.hdr.bits.toInt.tdiv 8 →
    ∃ t, exec (.seed c) s = .next t ∧ ErrorTaken .bitstreamExhausted s t ∧ t.sink = s.sink ∧ t.snkPos = s.snkPos

/-- For 8-bit samples a differential with a shift of 8 or more changes no accumulator: every BIG, and the DIFF codes
R651 lists. The accumulator holds an 8-bit value (Obligations.StepKeepsDatapathLegal). -/
def Obligations.ByteSamplesIgnoreShiftsOfEight : Prop :=
  ∀ (s : State) (neg : Bool) (mag : BitVec 7), 0 ≤ s.hdr.level.toInt → s.hdr.level.toInt ≤ 5 → s.hdr.bits = 8 →
    s.samplesInRange → s.canEmit →
    (∃ t, exec (.big neg mag) s = .next t ∧ t.running0 = s.running0 ∧ t.running1 = s.running1)
    ∧ ∀ e : Fin 6, (s.hdr.level.toInt = 0 ∧ e = 5) ∨ (s.hdr.level.toInt = 1 ∧ 4 ≤ e)
        ∨ (s.hdr.level.toInt = 2 ∧ 3 ≤ e) →
      ∃ t, exec (diffInstr e neg mag) s = .next t ∧ t.running0 = s.running0 ∧ t.running1 = s.running1

/-- A failed sink write is SinkWriteError with the block's index (R820), wherever the write is made: a code's sample
and a seed's under PREFIX (R640), the WAV header (R502), a raw block (R505), and the write at the block's end under
NONE (R642), which the step that emits the last sample makes. The sink keeps what it had (R821); a prefix of the write
may have arrived (R234). That SNK_POS does not count it is read from R140 (entry 7). -/
def Obligations.SampleWriteFailureRaises : Prop :=
  (∀ (s : State) (i : Instr), i.decidesSample = true → s.params.partialOut = .keepWritten → s.sinkFails →
    ∃ t, exec i s = .next t ∧ ErrorTaken .sinkWriteError s t
      ∧ s.sink.bytes <+: t.sink.bytes ∧ t.snkPos = s.snkPos)
  ∧ (∀ (s : State) (c : Chan), s.lastSeedDue c → s.seedBytes ≤ s.scrLen → s.params.seedMode = .seedEmit →
    s.params.partialOut = .keepWritten → s.sinkFails →
    ∃ t, step s = .next t ∧ ErrorTaken .sinkWriteError s t
      ∧ s.sink.bytes <+: t.sink.bytes ∧ t.snkPos = s.snkPos)
  ∧ (∀ s : State, s.phase = .idle → s.sess = .notStarted → s.sinkFails →
    ∃ t, exec .nextCmd s = .next t ∧ WriteFailed (wavHeader s.hdr.dataSize.toInt s.hdr.channels.toInt
      s.hdr.bits.toInt s.hdr.rate.toInt) s t)
  ∧ (∀ s : State, s.readyToStream .raw → s.sourceAnswers → s.sinkFails →
    let inner := s.curBlock.toInt < s.hdr.blocks.toInt - 1
    let size := ((if inner then s.hdr.blockSize.toInt else s.hdr.restSize.toInt) * s.hdr.bits.toInt.tdiv 8).toNat
    (inner → size ≤ s.src.rest.length) →
    ∃ t, exec .nextCmd s = .next t ∧ WriteFailed (s.src.rest.take size) s t)
  ∧ (∀ s : State, s.params.partialOut = .wholeBlocks → 0 < s.total → s.sinkFails →
    ∃ t, finishBlock s = .next t ∧ WriteFailed s.outBuf s t)
  ∧ (∀ s : State, s.lastSampleDue → s.params.partialOut = .wholeBlocks → s.sinkFails →
    ∃ t, step s = .next t ∧ ErrorTaken .sinkWriteError s t
      ∧ s.sink.bytes <+: t.sink.bytes ∧ t.snkPos = s.snkPos)

/-! ### OPEN -/

/-- The header fields at their offsets (R300, R301, R403). -/
def Obligations.HeaderFieldOffsets : Prop :=
  ∀ h : List Byte,
    let h16 := fun o => ((h.getD o 0).toNat + 256 * (h.getD (o + 1) 0).toNat : Int).bmod 65536
    let h32 := fun o => ((h.getD o 0).toNat + 256 * ((h.getD (o + 1) 0).toNat
      + 256 * ((h.getD (o + 2) 0).toNat + 256 * (h.getD (o + 3) 0).toNat)) : Int).bmod 4294967296
    (parseHeader h).channels.toInt = h16 0 ∧ (parseHeader h).bits.toInt = h16 2
    ∧ (parseHeader h).rate.toInt = h32 4 ∧ (parseHeader h).level.toInt = h32 8 ∧ (parseHeader h).rle.toInt = h32 12
    ∧ (parseHeader h).blocks.toInt = h32 16 ∧ (parseHeader h).dataSize.toInt = h32 20
    ∧ (parseHeader h).compSize.toInt = h32 24 ∧ (parseHeader h).samples.toInt = h32 28
    ∧ (parseHeader h).blockSize.toInt = h32 32 ∧ (parseHeader h).restSize.toInt = h32 36

/-- OPEN of a raw stream whose header passes the checks (R405 to R407, R410, R412, R427): the derived geometry, the
session NOT_STARTED, 44 bytes consumed, nothing written, the datapath cleared (R151). The last clause names fields of
the model's own (entries 1, 3, 4, 19). -/
def Obligations.OpenRawStream : Prop :=
  ∀ (s : State) (h rest : List Byte), s.phase = .idle → s.sourceAnswers → s.src.rest = h ++ rest → h.length = 44 →
    let f := parseHeader h
    let w := f.bits.toInt.tdiv 8
    let m := 65536 * w
    let restSize := (f.dataSize.toInt.tmod m).tdiv w
    let blocks := f.dataSize.toInt.tdiv m + (if 0 < restSize then 1 else 0)
    f.level.toInt = -1 → (f.channels.toInt = 1 ∨ f.channels.toInt = 2) → (f.bits.toInt = 8 ∨ f.bits.toInt = 16) →
    0 < blocks → blocks ≤ 1000000 → f.dataSize.toInt = f.samples.toInt * w →
    f.samples.toInt = (blocks - 1) * 65536 + restSize →
    ∃ t, exec .openCmd s = .next t
      ∧ (t.sess = .notStarted ∧ t.mode = .raw ∧ t.curBlock.toInt = -1 ∧ t.result = .none ∧ t.errCode = .none
        ∧ t.errBlock.toInt = -1 ∧ t.lastLen = 0)
      ∧ (t.hdr.blocks.toInt = blocks ∧ t.hdr.restSize.toInt = restSize ∧ t.hdr.blockSize.toInt = 65536)
      ∧ (t.hdr = { f with blocks := t.hdr.blocks, restSize := t.hdr.restSize, blockSize := t.hdr.blockSize })
      ∧ (t.srcPos = 44 ∧ t.src.rest = rest ∧ t.sink = s.sink ∧ t.snkPos = 0)
      ∧ DatapathCleared t ∧ t.host = s.host ∧ t.busData = s.busData ∧ t.params = s.params

/-- OPEN of a compressed stream whose header and table pass the checks (R405, R410 to R412, R420 to R427): the header
as stored, the table in OFF, the session NOT_STARTED. The last clause names fields of the model's own (entries 1, 3,
4, 19). -/
def Obligations.OpenCompressedStream : Prop :=
  ∀ (s : State) (h table rest : List Byte), s.phase = .idle → s.src.answers = [] →
    s.src.rest = h ++ (table ++ rest) → h.length = 44 →
    let f := parseHeader h
    let w := f.bits.toInt.tdiv 8
    let entry := fun k => (quad32 (table.getD (4 * k) 0) (table.getD (4 * k + 1) 0) (table.getD (4 * k + 2) 0)
      (table.getD (4 * k + 3) 0)).toInt
    (0 ≤ f.level.toInt ∧ f.level.toInt ≤ 5) → (f.channels.toInt = 1 ∨ f.channels.toInt = 2) →
    (f.bits.toInt = 8 ∨ f.bits.toInt = 16) → 0 < f.blocks.toInt → f.blocks.toInt ≤ 1000000 →
    (table.length : Int) = 4 * f.blocks.toInt → f.dataSize.toInt = f.samples.toInt * w →
    f.samples.toInt = (f.blocks.toInt - 1) * f.blockSize.toInt + f.restSize.toInt →
    entry (f.blocks.toInt.toNat - 1) < f.compSize.toInt →
    ∃ t, exec .openCmd s = .next t
      ∧ (t.sess = .notStarted ∧ t.mode = .compressed ∧ t.curBlock.toInt = -1 ∧ t.result = .none ∧ t.errCode = .none
        ∧ t.errBlock.toInt = -1 ∧ t.lastLen = 0)
      ∧ t.hdr = f ∧ (∀ k, k < f.blocks.toInt.toNat → t.offEntry k = entry k)
      ∧ ((t.srcPos : Int) = 44 + 4 * f.blocks.toInt ∧ t.src.rest = rest ∧ t.sink = s.sink ∧ t.snkPos = 0)
      ∧ DatapathCleared t ∧ t.host = s.host ∧ t.busData = s.busData ∧ t.params = s.params

/-- OPEN that ends in NOT_STARTED has validated the header (R410, R412, R420 to R426) and left the registers of
R427. -/
def Obligations.OpenSuccessMeansValidHeader : Prop :=
  ∀ s t : State, exec .openCmd s = .next t → t.sess ≠ .error →
    t.sess = .notStarted ∧ t.headerValid ∧ t.curBlock.toInt = -1 ∧ t.result = .none ∧ t.errCode = .none
      ∧ t.errBlock.toInt = -1 ∧ t.lastLen = 0
      ∧ (t.srcPos : Int) = 44 + (if t.mode = .raw then 0 else 4 * t.hdr.blocks.toInt)

/-- Fewer than 44 bytes: TruncatedHeader (R402). -/
def Obligations.TruncatedHeaderRaises : Prop :=
  ∀ s : State, s.phase = .idle → s.sourceAnswers → s.src.rest.length < 44 →
    ∃ t, exec .openCmd s = .next t ∧ t.sess = .error ∧ t.errCode = .truncatedHeader ∧ t.errBlock.toInt = -1
      ∧ t.result = .error ∧ t.lastLen = 0 ∧ t.sink = s.sink

/-- The order of OPEN's errors (R830, R402, R406, R410 to R412, R420 to R426): OPEN takes the first that applies, and
none applies exactly when it succeeds. So in compressed mode a short offset table is reported before any check of the
layout, and no entry is loaded (R411). -/
def Obligations.ShortOffsetTableComesFirst : Prop :=
  (∀ s : State, s.phase = .idle → s.src.answers.headD .ok ≠ .never →
    ((parseHeader (s.src.rest.take 44)).level.toInt ≠ -1 → s.src.answers.tail.headD .ok ≠ .never) →
    ∃ t, exec .openCmd s = .next t ∧ t.sink = s.sink
      ∧ (firstOpenError s.src = .none → t.sess = .notStarted ∧ t.errCode = .none)
      ∧ (firstOpenError s.src ≠ .none → t.sess = .error ∧ t.errCode = firstOpenError s.src ∧ t.errBlock.toInt = -1
        ∧ t.curBlock.toInt = -1 ∧ t.result = .error ∧ t.lastLen = 0))
  ∧ (∀ (s : State) (h rest : List Byte), s.phase = .idle → s.src.answers = [] → s.src.rest = h ++ rest →
    h.length = 44 → (parseHeader h).level.toInt ≠ -1 →
    0 < (parseHeader h).blocks.toInt → (parseHeader h).blocks.toInt ≤ 1000000 →
    (rest.length : Int) < 4 * (parseHeader h).blocks.toInt →
    ∃ t, exec .openCmd s = .next t ∧ t.sess = .error ∧ t.errCode = .truncatedOffsetTable ∧ t.errBlock.toInt = -1
      ∧ t.result = .error ∧ t.off = [] ∧ t.sink = s.sink)

/-- A raw stream whose size is a whole number of raw blocks is rejected (R409, 90_conflicts.md C8). -/
def Obligations.WholeRawBlocksAreRejected : Prop :=
  ∀ (s : State) (h rest : List Byte), s.phase = .idle → s.sourceAnswers → s.src.rest = h ++ rest → h.length = 44 →
    let f := parseHeader h
    f.level.toInt = -1 → (f.channels.toInt = 1 ∨ f.channels.toInt = 2) → (f.bits.toInt = 8 ∨ f.bits.toInt = 16) →
    0 < f.dataSize.toInt → f.dataSize.toInt.tmod (65536 * f.bits.toInt.tdiv 8) = 0 →
    ∃ t, exec .openCmd s = .next t ∧ t.sess = .error
      ∧ t.errCode = (if f.dataSize.toInt = f.samples.toInt * f.bits.toInt.tdiv 8 then .inconsistentSampleCount
          else .inconsistentDataSize)

/-- OPEN writes nothing to the sink, whether it succeeds or fails (R401). -/
def Obligations.OpenNeverWritesTheSink : Prop :=
  ∀ s t : State, exec .openCmd s = .next t → t.sink = s.sink

/-- A session never sees a previous session's state (R151): OPEN depends on the environment alone. The environment's
form is the model's choice (entries 1, 2). -/
def Obligations.OpenForgetsThePreviousSession : Prop :=
  ∀ s u : State, s.phase = .idle → u.phase = .idle → s.src = u.src → s.sink = u.sink → s.host = u.host →
    s.busData = u.busData → s.freeCtr = u.freeCtr → s.params = u.params → exec .openCmd s = exec .openCmd u

/-! ### NEXT -/

/-- NEXT without a session to continue (R501, R504): in IDLE NoSession, in ERROR the recorded error again, in FINISHED
the end marker; nothing else changes. -/
def Obligations.NextOutsideASession : Prop :=
  ∀ s : State, s.phase = .idle →
    (s.sess = .idle →
      exec .nextCmd s = .next { s with result := .error, errCode := .noSession, lastLen := 0 })
    ∧ (s.sess = .error → exec .nextCmd s = .next { s with result := .error, lastLen := 0 })
    ∧ (s.sess = .finished → exec .nextCmd s = .next { s with result := .finish, lastLen := 0 })

/-- NEXT in NOT_STARTED writes the WAV header of the header registers (R502, R452). -/
def Obligations.NextWritesTheWavHeader : Prop :=
  ∀ s : State, s.phase = .idle → s.sess = .notStarted → s.sinkAccepts →
    exec .nextCmd s = .next { s with
      sink := ⟨s.sink.bytes ++ wavHeader s.hdr.dataSize.toInt s.hdr.channels.toInt s.hdr.bits.toInt s.hdr.rate.toInt,
        s.sink.answers.tail⟩
      snkPos := s.snkPos + 44
      curBlock := 0
      sess := .streaming
      result := .chunk
      lastLen := 44 }

/-- A raw block whose bytes are all there is copied verbatim, and the session advances (R505, R507, R508). -/
def Obligations.RawBlockIsCopied : Prop :=
  ∀ s : State, s.readyToStream .raw → s.sourceAnswers → s.sinkAccepts →
    let size := (if s.curBlock.toInt < s.hdr.blocks.toInt - 1 then s.hdr.blockSize.toInt * s.hdr.bits.toInt.tdiv 8
      else s.hdr.restSize.toInt * s.hdr.bits.toInt.tdiv 8).toNat
    size ≤ s.src.rest.length →
    exec .nextCmd s = .next { s with
      src := ⟨s.src.rest.drop size, s.src.answers.tail⟩
      srcPos := s.srcPos + size
      sink := ⟨s.sink.bytes ++ s.src.rest.take size, s.sink.answers.tail⟩
      snkPos := s.snkPos + size
      lastLen := BitVec.ofNat 32 size
      curBlock := BitVec.ofInt 32 (s.curBlock.toInt + 1)
      result := .chunk
      sess := if s.curBlock.toInt + 1 = s.hdr.blocks.toInt then .finished else .streaming }

/-- Raw reads that fall short or fail (R505, R506). At the final block a short read is not an error, the bytes that are
there are written; at another block it is SourceReadError, and so is IOERR at every block, whatever the sink answers
(R831). The bytes read reach the sink under PREFIX and not under NONE (R822). How they reach it under PREFIX is the
model's choice (entry 18). -/
def Obligations.ShortRawReads : Prop :=
  (∀ s : State, s.readyToStream .raw → s.sourceAnswers → s.sinkAccepts →
    (s.curBlock.toInt = s.hdr.blocks.toInt - 1 →
      (s.src.rest.length : Int) < s.hdr.restSize.toInt * s.hdr.bits.toInt.tdiv 8 →
      exec .nextCmd s = .next { s with
        src := ⟨[], s.src.answers.tail⟩
        srcPos := s.srcPos + s.src.rest.length
        sink := ⟨s.sink.bytes ++ s.src.rest, s.sink.answers.tail⟩
        snkPos := s.snkPos + s.src.rest.length
        lastLen := BitVec.ofNat 32 s.src.rest.length
        curBlock := s.hdr.blocks
        result := .chunk
        sess := .finished })
    ∧ (s.curBlock.toInt < s.hdr.blocks.toInt - 1 →
      (s.src.rest.length : Int) < s.hdr.blockSize.toInt * s.hdr.bits.toInt.tdiv 8 →
      ∃ t, exec .nextCmd s = .next t ∧ ErrorTaken .sourceReadError s t
        ∧ (s.params.partialOut = .keepWritten → t.sink.bytes = s.sink.bytes ++ s.src.rest)
        ∧ (s.params.partialOut = .wholeBlocks → t.sink = s.sink)))
  ∧ (∀ s : State, s.readyToStream .raw → s.sourceFails → s.sink.answers.headD .ok ≠ .never →
    let size := ((if s.curBlock.toInt < s.hdr.blocks.toInt - 1 then s.hdr.blockSize.toInt else s.hdr.restSize.toInt)
      * s.hdr.bits.toInt.tdiv 8).toNat
    ∃ t, exec .nextCmd s = .next t ∧ ErrorTaken .sourceReadError s t
      ∧ (s.params.partialOut = .keepWritten → ∃ k, k ≤ size ∧ t.sink.bytes = s.sink.bytes ++ s.src.rest.take k)
      ∧ (s.params.partialOut = .wholeBlocks → t.sink = s.sink))

/-- Compressed blocks before their decode. One that is not the last (R510): a length out of bounds is BlockSizeOverflow
with nothing read; a source that ends inside the block, or fails, is SourceReadError. The last one (R511): a source
that fails is SourceReadError. Nothing is written. -/
def Obligations.InnerCompressedBlockErrors : Prop :=
  (∀ s : State, s.readyToStream .compressed → 0 ≤ s.curBlock.toInt → s.curBlock.toInt < s.hdr.blocks.toInt - 1 →
    let len := s.offEntry (s.curBlock.toNat + 1) - s.offEntry s.curBlock.toNat
    let bound := 2 * s.hdr.blockSize.toInt * s.hdr.bits.toInt.tdiv 8
    ((bound ≤ len ∨ len < 0) →
      ∃ t, exec .nextCmd s = .next t ∧ ErrorTaken .blockSizeOverflow s t
        ∧ t.src.answers = s.src.answers ∧ t.sink = s.sink ∧ t.snkPos = s.snkPos)
    ∧ (0 ≤ len → len < bound → s.sourceFails ∨ (s.sourceAnswers ∧ (s.src.rest.length : Int) < len) →
      ∃ t, exec .nextCmd s = .next t ∧ ErrorTaken .sourceReadError s t ∧ t.sink = s.sink ∧ t.snkPos = s.snkPos))
  ∧ (∀ s : State, s.readyToStream .compressed → s.curBlock.toInt = s.hdr.blocks.toInt - 1 →
    0 < 2 * s.hdr.blockSize.toInt * s.hdr.bits.toInt.tdiv 8 → s.sourceFails →
    ∃ t, exec .nextCmd s = .next t ∧ ErrorTaken .sourceReadError s t ∧ t.sink = s.sink ∧ t.snkPos = s.snkPos)

/-- A final compressed block of no samples emits nothing and ends the session with a chunk of length 0; its bytes are
still read (R513, R514), as long as what is read fits the scratch (R512). -/
def Obligations.EmptyFinalBlock : Prop :=
  ∀ s : State, s.readyToStream .compressed → s.sourceAnswers → (s.hdr.bits = 8 ∨ s.hdr.bits = 16) →
    0 ≤ s.curBlock.toInt → s.curBlock.toInt = s.hdr.blocks.toInt - 1 → s.hdr.restSize.toInt ≤ 0 →
    s.scratchHolds (min (2 * s.hdr.blockSize.toInt * s.hdr.bits.toInt.tdiv 8) s.src.rest.length) →
    ∃ t, exec .nextCmd s = .next t ∧ t.sess = .finished ∧ t.result = .chunk ∧ t.lastLen = 0
      ∧ t.sink = s.sink ∧ t.snkPos = s.snkPos
      ∧ (0 < s.hdr.blockSize.toInt →
        t.src.rest = s.src.rest.drop (2 * s.hdr.blockSize.toInt * s.hdr.bits.toInt.tdiv 8).toNat)

/-- A compressed block with bits to spare completes: a code has at most 14 bits (R656, R931), so a block whose read
fits the scratch (R512) and brings its seeds and more than 14 bits for every sample ends without an error, in either
mode of every parameter. -/
def Obligations.AmpleBlockCompletes : Prop :=
  ∀ s : State, s.readyToStream .compressed → s.sessionLegal → s.sourceAnswers → s.sinkAlwaysAccepts →
    let inner := s.curBlock.toInt < s.hdr.blocks.toInt - 1
    let w := s.hdr.bits.toInt.tdiv 8
    let bound := 2 * s.hdr.blockSize.toInt * w
    let len := s.offEntry (s.curBlock.toNat + 1) - s.offEntry s.curBlock.toNat
    let samples := if inner then s.hdr.blockSize.toInt else s.hdr.restSize.toInt
    let got : Int := if inner then len else min bound s.src.rest.length
    s.scratchHolds got → (inner → 0 ≤ len ∧ len < bound ∧ len ≤ s.src.rest.length) →
    8 * (s.hdr.channels.toInt * w) + 14 * max 0 samples < 8 * got →
    ∃ t, exec .nextCmd s = .next t ∧ t.sess ≠ .error ∧ t.result = .chunk

/-- A compressed block that completes (R508, R514, R601): exactly `curblocksize` bytes more in the sink, LAST_LEN
their number, CUR_BLOCK one further, FINISHED after the last block. The last clause names fields of the model's own
(entries 1, 3, 4, 19). -/
def Obligations.CompletedBlockAccounting : Prop :=
  ∀ s t : State, s.readyToStream .compressed → s.sessionLegal → exec .nextCmd s = .next t → t.sess ≠ .error →
    let size := (if s.curBlock.toInt < s.hdr.blocks.toInt - 1 then s.hdr.blockSize.toInt else s.hdr.restSize.toInt)
      * s.hdr.bits.toInt.tdiv 8
    (∃ pcm, t.sink.bytes = s.sink.bytes ++ pcm ∧ (pcm.length : Int) = max 0 size
        ∧ t.snkPos = s.snkPos + pcm.length)
    ∧ (t.lastLen.toNat : Int) = max 0 size
    ∧ t.curBlock.toInt = s.curBlock.toInt + 1 ∧ t.result = .chunk
    ∧ t.sess = (if s.curBlock.toInt + 1 = s.hdr.blocks.toInt then .finished else .streaming)
    ∧ (t.hdr = s.hdr ∧ t.off = s.off ∧ t.mode = s.mode ∧ t.errCode = s.errCode ∧ t.errBlock = s.errBlock
      ∧ t.host = s.host ∧ t.busData = s.busData ∧ t.params = s.params ∧ t.phase = .idle)

/-- NEXT on a compressed block is the run of the machine's own steps from the started block, each a SEED, a REPEAT or
a code, until the block is over (R232, R600, R606). The started block holds the bytes its read returned (R510 to R512)
and begins at its first seed with `T` samples to emit, `i`, `runlength` and `flip` 0 (R600 to R602). That a block
decode can be stepped through is the model's choice (entry 4). -/
def Obligations.NextIsARunOfSteps : Prop :=
  ∀ s u : State, s.readyToStream .compressed → 0 ≤ s.curBlock.toInt → startBlock s = .next u → u.phase ≠ .idle →
    (let inner := s.curBlock.toInt < s.hdr.blocks.toInt - 1
      let w := s.hdr.bits.toInt.tdiv 8
      let n := if inner then (s.offEntry (s.curBlock.toNat + 1) - s.offEntry s.curBlock.toNat).toNat
        else min (2 * s.hdr.blockSize.toInt * w).toNat s.src.rest.length
      u.phase = .seeding false ∧ u.idx = 0 ∧ u.runlength = 0 ∧ u.flip = false
        ∧ (u.total : Int) = max 0 (((if inner then s.hdr.blockSize.toInt else s.hdr.restSize.toInt) * w).tdiv w)
        ∧ u.scrLen = n ∧ (∀ a, a < n → some (u.scratchByte a) = s.src.rest[a]?)
        ∧ u.srcPos = s.srcPos + n ∧ u.src.rest = s.src.rest.drop n ∧ u.sink = s.sink ∧ u.hdr = s.hdr)
    ∧ ∀ t, exec .nextCmd s = .next t →
      ∃ n, Sys2Proof.core.run n u = .next t ∧ t.phase = .idle
        ∧ ∀ k, k < n → ∃ v, Sys2Proof.core.run k u = .next v ∧ v.phase ≠ .idle

/-- With a sink that does not fail, a block that completes under PREFIX completes under NONE with the same sink bytes
and the same state (R642). -/
def Obligations.CompletedBlocksAgreeAcrossOutputModes : Prop :=
  ∀ s t : State, s.readyToStream .compressed → s.sink.answers = [] → s.params.partialOut = .keepWritten →
    exec .nextCmd s = .next t → t.sess ≠ .error →
    exec .nextCmd { s with params := { s.params with partialOut := .wholeBlocks } }
      = .next { t with params := { t.params with partialOut := .wholeBlocks } }

/-- Blocks are never interdependent (R602): whatever the datapath, the scratch, the BitReader and the loop registers
hold when a NEXT starts, it ends in the same register file, sink and source. -/
def Obligations.BlocksAreIndependent : Prop :=
  ∀ s u t : State, s.phase = .idle →
    u = { s with
      running0 := u.running0, running1 := u.running1, flip := u.flip, runlength := u.runlength
      scratch := u.scratch, scrLen := u.scrLen, brBase := u.brBase, brLen := u.brLen, brPos := u.brPos
      total := u.total, idx := u.idx } →
    exec .nextCmd s = .next t →
    ∃ v, exec .nextCmd u = .next v
      ∧ (v.statusWord = t.statusWord ∧ v.curBlock = t.curBlock ∧ v.lastLen = t.lastLen ∧ v.errBlock = t.errBlock
        ∧ v.hdr = t.hdr)
      ∧ v.sink = t.sink ∧ v.snkPos = t.snkPos ∧ v.src = t.src ∧ v.srcPos = t.srcPos

/-- A session that succeeds takes exactly `H_BLOCKS + 2` NEXTs to reach END (R515). -/
def Obligations.NextsUntilEnd : Prop :=
  ∀ (s t : State) (n : Nat), s.phase = .idle → s.sess = .notStarted → s.sessionLegal → s.result ≠ .finish →
    nexts n s = .next t → t.sess ≠ .error →
    (t.result = .finish ↔ s.hdr.blocks.toInt + 2 ≤ n)

/-! ### Errors and stops -/

/-- Taking an error (R820): what is recorded, and everything that keeps its value. Where the source stands is not said
(entry 6); `phase`, the host's list and the parameters are the model's own (entries 1, 3, 4). -/
def Obligations.TakingAnErrorRecordsIt : Prop :=
  ∀ (s : State) (e : ErrCode),
    ErrorTaken e s (raiseError e s)
    ∧ ((raiseError e s).running0 = s.running0 ∧ (raiseError e s).running1 = s.running1
      ∧ (raiseError e s).flip = s.flip ∧ (raiseError e s).runlength = s.runlength
      ∧ (raiseError e s).scratch = s.scratch ∧ (raiseError e s).scrLen = s.scrLen
      ∧ (raiseError e s).brBase = s.brBase ∧ (raiseError e s).brLen = s.brLen ∧ (raiseError e s).brPos = s.brPos
      ∧ (raiseError e s).total = s.total ∧ (raiseError e s).idx = s.idx
      ∧ (raiseError e s).sink = s.sink ∧ (raiseError e s).snkPos = s.snkPos)

/-- A request that is never answered leaves the command stuck (R923). The source: OPEN's header read and its table
read, NEXT's raw block, inner block and last block. The sink: the WAV header, a raw block's bytes, a code's sample and
a seed's under PREFIX, and the write at the block's end under NONE. The scripted answers and the faults are the
model's choice (entries 2, 9). -/
def Obligations.UnansweredRequestIsStuck : Prop :=
  (∀ s : State, s.phase = .idle → s.sourceSilent → exec .openCmd s = .fault .sourceNeverAnswers)
  ∧ (∀ (s : State) (h rest : List Byte), s.phase = .idle → s.sourceAnswers → s.src.answers.tail.headD .ok = .never →
    s.src.rest = h ++ rest → h.length = 44 → (parseHeader h).level.toInt ≠ -1 →
    0 < (parseHeader h).blocks.toInt → (parseHeader h).blocks.toInt ≤ 1000000 →
    exec .openCmd s = .fault .sourceNeverAnswers)
  ∧ (∀ s : State, s.readyToStream .raw → s.sourceSilent → exec .nextCmd s = .fault .sourceNeverAnswers)
  ∧ (∀ s : State, s.readyToStream .compressed → s.sourceSilent → 0 ≤ s.curBlock.toInt →
    let len := s.offEntry (s.curBlock.toNat + 1) - s.offEntry s.curBlock.toNat
    let bound := 2 * s.hdr.blockSize.toInt * s.hdr.bits.toInt.tdiv 8
    (s.curBlock.toInt < s.hdr.blocks.toInt - 1 → 0 ≤ len → len < bound →
      exec .nextCmd s = .fault .sourceNeverAnswers)
    ∧ (s.curBlock.toInt = s.hdr.blocks.toInt - 1 → 0 < bound → exec .nextCmd s = .fault .sourceNeverAnswers))
  ∧ (∀ s : State, s.phase = .idle → s.sess = .notStarted → s.sinkSilent →
    exec .nextCmd s = .fault .sinkNeverAnswers)
  ∧ (∀ s : State, s.readyToStream .raw → ¬ s.sourceSilent → s.sinkSilent →
    let inner := s.curBlock.toInt < s.hdr.blocks.toInt - 1
    let size := (s.hdr.blockSize.toInt * s.hdr.bits.toInt.tdiv 8).toNat
    (s.params.partialOut = .keepWritten ∨ (s.sourceAnswers ∧ (inner → size ≤ s.src.rest.length))) →
    exec .nextCmd s = .fault .sinkNeverAnswers)
  ∧ (∀ (s : State) (i : Instr), i.decidesSample = true → s.params.partialOut = .keepWritten →
    s.sinkSilent → exec i s = .fault .sinkNeverAnswers)
  ∧ (∀ (s : State) (c : Chan), s.lastSeedDue c → s.seedBytes ≤ s.scrLen → s.params.seedMode = .seedEmit →
    s.params.partialOut = .keepWritten → s.sinkSilent → step s = .fault .sinkNeverAnswers)
  ∧ (∀ s : State, s.params.partialOut = .wholeBlocks → 0 < s.total → s.sinkSilent →
    finishBlock s = .fault .sinkNeverAnswers)
  ∧ (∀ s : State, s.lastSampleDue → s.params.partialOut = .wholeBlocks → s.sinkSilent →
    step s = .fault .sinkNeverAnswers)

/-- A compressed block whose read returned more bytes than the scratch capacity is refused, after the guard (R210,
R512); one whose read fits is decoded (Obligations.AmpleBlockCompletes). That the bytes returned are the ones counted
is the model's choice (entry 11). -/
def Obligations.ScratchCapacityRefusal : Prop :=
  ∀ (s : State) (cap : Nat), s.readyToStream .compressed → s.params.maxScratch = some cap → s.sourceAnswers →
    0 ≤ s.curBlock.toInt → cap < s.src.rest.length →
    (s.curBlock.toInt < s.hdr.blocks.toInt - 1 →
      (let len := s.offEntry (s.curBlock.toNat + 1) - s.offEntry s.curBlock.toNat
       (cap : Int) < len ∧ len < 2 * s.hdr.blockSize.toInt * s.hdr.bits.toInt.tdiv 8
        ∧ len ≤ s.src.rest.length) →
      exec .nextCmd s = .refused .scratchTooSmall)
    ∧ (s.curBlock.toInt = s.hdr.blocks.toInt - 1 →
      (cap : Int) < 2 * s.hdr.blockSize.toInt * s.hdr.bits.toInt.tdiv 8 →
      exec .nextCmd s = .refused .scratchTooSmall)

/-! ### Whole-machine rules and invariants -/

/-- Only OPEN and RESET leave ERROR (R835). -/
def Obligations.OnlyOpenAndResetLeaveError : Prop :=
  ∀ s t : State, s.phase = .idle → s.sess = .error → step s = .next t → t.sess ≠ .error →
    ∃ v rest, s.host = .write 0 v :: rest ∧ (decodeCommand v = .openCmd ∨ decodeCommand v = .resetCmd)

/-- The sink is append only (R205, R821): no step removes or changes a byte it holds, unless the host connects another
sink. Connecting another sink is a host operation of the model's own (entries 1, 13). -/
def Obligations.SinkIsAppendOnly : Prop :=
  ∀ s t : State, step s = .next t → (∀ answers rest, s.host ≠ .connectSink answers :: rest) →
    s.sink.bytes <+: t.sink.bytes

/-- BUSY is 0 whenever the host can observe it (R103, R221): a step that starts with BUSY 0 ends with BUSY 0. BUSY is
the model's `phase` (entry 4). -/
def Obligations.BusyIsNeverObserved : Prop :=
  ∀ s t : State, s.busy = false → step s = .next t → t.busy = false

/-- Every step keeps both RAMs in canonical form. The canonical form is the model's choice (entry 8). -/
def Obligations.StepKeepsRamsCanonical : Prop :=
  ∀ s t : State, s.ramsCanonical → step s = .next t → t.ramsCanonical

/-- Every step keeps the datapath legal: 8-bit sessions in 8-bit values (R130, R650), `flip` at 0 in mono (R131),
`runlength` at 0 with run-length off (R610). The accumulators' 16-bit form is the model's choice (entry 14). -/
def Obligations.StepKeepsDatapathLegal : Prop :=
  ∀ s t : State, step s = .next t →
    (s.samplesInRange → t.samplesInRange) ∧ (s.datapathLegal → t.datapathLegal)

/-- Every step keeps STATE, CUR_BLOCK, ERRCODE, ERR_BLOCK and the header in agreement (R104, R106, R412), and a decode
in progress inside its bounds (R121, R135, R136). The decode in progress is the model's choice (entries 4, 19). -/
def Obligations.StepKeepsSessionLegal : Prop :=
  ∀ s t : State, s.sessionLegal ∧ s.decodeLegal → step s = .next t → t.sessionLegal ∧ t.decodeLegal

/-- The reset state meets every invariant. The forms they speak of are the model's choice (entries 4, 8, 14, 19). -/
def Obligations.ResetIsLegal : Prop := State.reset.legal
end

