-- ==== Sys2Proof/Laws/Format.lean ====
section
/-! SUPPORT. Lemmas about the number formats of Machine/Format.lean and about field reads: bounds and bits of a stream
field, when a read succeeds, and the differential field. -/

namespace Sys2Proof.Machine

/-! ### Little-endian integers -/

/-- Two bytes put together, the second one higher, as a number. -/
theorem toNat_append_byte {n : Nat} (hi : BitVec n) (lo : Byte) :
    (hi ++ lo : BitVec (n + 8)).toNat = lo.toNat + 256 * hi.toNat := by
  have h := lo.isLt
  rw [BitVec.toNat_append, ← Nat.shiftLeft_add_eq_or_of_lt h, Nat.shiftLeft_eq]
  omega

/-- The number of a 16-bit pair (R13, R207). -/
theorem pair16_toNat (b0 b1 : Byte) : (pair16 b0 b1).toNat = b0.toNat + 256 * b1.toNat :=
  toNat_append_byte b1 b0

/-- The number of a 32-bit quadruple (R13, R207). -/
theorem quad32_toNat (b0 b1 b2 b3 : Byte) :
    (quad32 b0 b1 b2 b3).toNat = b0.toNat + 256 * (b1.toNat + 256 * (b2.toNat + 256 * b3.toNat)) := by
  have h0 := b0.isLt
  have h1 := b1.isLt
  have h2 := b2.isLt
  have e1 : (b1 ++ b0 : BitVec (8 + 8)).toNat = b0.toNat + 256 * b1.toNat := toNat_append_byte b1 b0
  have e2 : (b2 ++ (b1 ++ b0) : BitVec (8 + (8 + 8))).toNat = b0.toNat + 256 * (b1.toNat + 256 * b2.toNat) := by
    rw [BitVec.toNat_append, e1, ← Nat.shiftLeft_add_eq_or_of_lt (by omega), Nat.shiftLeft_eq]; omega
  show (b3 ++ (b2 ++ (b1 ++ b0)) : BitVec (8 + (8 + (8 + 8)))).toNat = _
  rw [BitVec.toNat_append, e2, ← Nat.shiftLeft_add_eq_or_of_lt (by omega), Nat.shiftLeft_eq]
  omega

/-- `sint16` of two bytes (R13). -/
theorem pair16_toInt (b0 b1 : Byte) : (pair16 b0 b1).toInt = (b0.toNat + 256 * b1.toNat : Int).bmod 65536 := by
  rw [BitVec.toInt_eq_toNat_bmod, pair16_toNat]; rfl

/-! ### Fields of a byte sequence -/

theorem streamBit_lt (byteAt : Nat → Byte) (p : Nat) : streamBit byteAt p < 2 := by
  unfold streamBit; split <;> decide

/-- A field of `n` bits is below `2^n` (R703). -/
theorem streamField_lt (byteAt : Nat → Byte) (p n : Nat) : streamField byteAt p n < 2 ^ n := by
  induction n with
  | zero => simp [streamField]
  | succ n ih =>
    have hb := streamBit_lt byteAt (p + n)
    have hm : streamBit byteAt (p + n) * 2 ^ n ≤ 1 * 2 ^ n := Nat.mul_le_mul_right _ (by omega)
    simp only [streamField, Nat.pow_succ]
    omega

/-- A field cut after `n` bits: the first part is the remainder modulo `2^n` (R208). -/
theorem streamField_mod (byteAt : Nat → Byte) (p n k : Nat) :
    streamField byteAt p (n + k) % 2 ^ n = streamField byteAt p n := by
  induction k with
  | zero => exact Nat.mod_eq_of_lt (streamField_lt byteAt p n)
  | succ k ih =>
    have : streamBit byteAt (p + (n + k)) * 2 ^ (n + k)
        = 2 ^ n * (streamBit byteAt (p + (n + k)) * 2 ^ k) := by rw [Nat.pow_add]; ring
    show (streamField byteAt p (n + k) + streamBit byteAt (p + (n + k)) * 2 ^ (n + k)) % 2 ^ n = _
    rw [this, Nat.add_mul_mod_self_left, ih]

/-- A field read of 1 to 8 bits answers a value exactly when the bitstream is not exhausted (R703 to R705). -/
theorem readField_eq (m : ExhaustMode) (byteAt : Nat → Byte) (len p n : Nat) (h1 : 1 ≤ n) (h8 : n ≤ 8) :
    readField m byteAt len p n = if exhausted m p n len then .exhausted else .value (streamField byteAt p n) := by
  have h : ¬ (n = 0 ∨ 8 < n) := by omega
  simp [readField, h]

/-- A value read is the stream's field (R703). -/
theorem readField_value {m : ExhaustMode} {byteAt : Nat → Byte} {len p n v : Nat}
    (h : readField m byteAt len p n = .value v) :
    v = streamField byteAt p n ∧ exhausted m p n len = false ∧ 1 ≤ n ∧ n ≤ 8 := by
  unfold readField at h
  split at h
  · cases h
  · split at h
    · cases h
    · cases h
      rename_i h1 h2
      exact ⟨rfl, by simpa using h2, by omega, by omega⟩

/-- A read that stays inside one that succeeds succeeds (R705). -/
theorem exhausted_mono {m : ExhaustMode} {p n q k len : Nat} (h : exhausted m p n len = false) (hk : q + k ≤ p + n) :
    exhausted m q k len = false := by
  cases m <;> simp [exhausted] at * <;> omega

/-- A read that is not exhausted ends inside the bitstream, in both modes (R705). -/
theorem exhausted_bound {m : ExhaustMode} {p n len : Nat} (h : exhausted m p n len = false) : p + n ≤ 8 * len := by
  cases m <;> simp [exhausted] at h <;> omega

/-- Strictly inside the bitstream a read succeeds in both modes (R705). -/
theorem exhausted_inside {m : ExhaustMode} {p n len : Nat} (h : p + n < 8 * len) : exhausted m p n len = false := by
  cases m <;> simp [exhausted] <;> omega

/-- The width of a DIFF's field at a level of a compressed stream (R320). -/
theorem diffBits_range {lvl : Int} (h0 : 0 ≤ lvl) (h5 : lvl ≤ 5) : 3 ≤ diffBits lvl ∧ diffBits lvl ≤ 8 := by
  unfold diffBits; split <;> omega

/-- The width of a BIG's field at a level of a compressed stream (R320). -/
theorem bigBits_range {lvl : Int} (h0 : 0 ≤ lvl) (h5 : lvl ≤ 5) : 6 ≤ bigBits lvl ∧ bigBits lvl ≤ 8 := by
  unfold bigBits; split <;> omega

/-- The sign of a field put together from a sign and a magnitude (R321). -/
theorem fieldNeg_signMag {b : Nat} {neg : Bool} {mag : BitVec 7} (h : mag.toNat < 2 ^ (b - 1)) :
    fieldNeg b (signMagField b neg mag) = neg := by
  have hp : 0 < 2 ^ (b - 1) := Nat.two_pow_pos _
  cases neg
  · simp [fieldNeg, signMagField, Nat.div_eq_of_lt h]
  · have : (mag.toNat + 2 ^ (b - 1)) / 2 ^ (b - 1) = 1 := by
      rw [Nat.add_div_right _ hp, Nat.div_eq_of_lt h]
    simp [fieldNeg, signMagField, this]

/-- The magnitude of a field put together from a sign and a magnitude (R321). -/
theorem fieldMag_signMag {b : Nat} {neg : Bool} {mag : BitVec 7} (h : mag.toNat < 2 ^ (b - 1)) :
    fieldMag b (signMagField b neg mag) = mag := by
  have : signMagField b neg mag % 2 ^ (b - 1) = mag.toNat := by
    cases neg <;> simp [signMagField, Nat.mod_eq_of_lt h]
  simp [fieldMag, this]

/-- A field of `b` bits is its sign and magnitude put together (R321). -/
theorem signMag_field {b d : Nat} (h1 : 1 ≤ b) (h8 : b ≤ 8) (h : d < 2 ^ b) :
    signMagField b (fieldNeg b d) (fieldMag b d) = d ∧ (fieldMag b d).toNat < 2 ^ (b - 1) := by
  have hp : 0 < 2 ^ (b - 1) := Nat.two_pow_pos _
  have hb : 2 ^ b = 2 * 2 ^ (b - 1) := by rw [← Nat.pow_succ', Nat.succ_eq_add_one, Nat.sub_add_cancel h1]
  have hlt : d % 2 ^ (b - 1) < 2 ^ (b - 1) := Nat.mod_lt _ hp
  have h7 : 2 ^ (b - 1) ≤ 2 ^ 7 := Nat.pow_le_pow_right (by decide) (by omega)
  have hm : (fieldMag b d).toNat = d % 2 ^ (b - 1) := by
    simp only [fieldMag, BitVec.toNat_ofNat]; exact Nat.mod_eq_of_lt (by omega)
  refine ⟨?_, by omega⟩
  have hq : d / 2 ^ (b - 1) < 2 := by rw [Nat.div_lt_iff_lt_mul hp]; omega
  have hd := Nat.div_add_mod d (2 ^ (b - 1))
  rcases Nat.le_one_iff_eq_zero_or_eq_one.mp (Nat.le_of_lt_succ hq) with h0 | h0
  · have hn : fieldNeg b d = false := by simp [fieldNeg, h0]
    rw [h0] at hd
    simp only [signMagField, hm, hn, Bool.false_eq_true, if_false]
    omega
  · have hn : fieldNeg b d = true := by simp [fieldNeg, h0]
    rw [h0] at hd
    simp only [signMagField, hm, hn, if_true]
    omega

end Sys2Proof.Machine
end

