-- ==== Sys2Proof/Laws/State.lean ====
section
/-! SUPPORT. The small lemmas of the state: for every update of Machine/Ops.lean, Operands.lean, Flags.lean and
Block.lean, one lemma per field, so that no later proof unfolds a record update; and the views that an update keeps. -/

namespace Sys2Proof.Machine

set_option Elab.async false

/-! ### State.consume -/

@[simp] theorem State.consume_sess (bytes : List Byte) (s : State) : (s.consume bytes).sess = s.sess := rfl
@[simp] theorem State.consume_result (bytes : List Byte) (s : State) : (s.consume bytes).result = s.result := rfl
@[simp] theorem State.consume_mode (bytes : List Byte) (s : State) : (s.consume bytes).mode = s.mode := rfl
@[simp] theorem State.consume_errCode (bytes : List Byte) (s : State) : (s.consume bytes).errCode = s.errCode := rfl
@[simp] theorem State.consume_curBlock (bytes : List Byte) (s : State) : (s.consume bytes).curBlock = s.curBlock := rfl
@[simp] theorem State.consume_lastLen (bytes : List Byte) (s : State) : (s.consume bytes).lastLen = s.lastLen := rfl
@[simp] theorem State.consume_errBlock (bytes : List Byte) (s : State) : (s.consume bytes).errBlock = s.errBlock := rfl
@[simp] theorem State.consume_hdr (bytes : List Byte) (s : State) : (s.consume bytes).hdr = s.hdr := rfl
@[simp] theorem State.consume_off (bytes : List Byte) (s : State) : (s.consume bytes).off = s.off := rfl
@[simp] theorem State.consume_scratch (bytes : List Byte) (s : State) : (s.consume bytes).scratch = s.scratch := rfl
@[simp] theorem State.consume_scrLen (bytes : List Byte) (s : State) : (s.consume bytes).scrLen = s.scrLen := rfl
@[simp] theorem State.consume_running0 (bytes : List Byte) (s : State) : (s.consume bytes).running0 = s.running0 := rfl
@[simp] theorem State.consume_running1 (bytes : List Byte) (s : State) : (s.consume bytes).running1 = s.running1 := rfl
@[simp] theorem State.consume_flip (bytes : List Byte) (s : State) : (s.consume bytes).flip = s.flip := rfl
@[simp] theorem State.consume_runlength (bytes : List Byte) (s : State) : (s.consume bytes).runlength = s.runlength := rfl
@[simp] theorem State.consume_brBase (bytes : List Byte) (s : State) : (s.consume bytes).brBase = s.brBase := rfl
@[simp] theorem State.consume_brLen (bytes : List Byte) (s : State) : (s.consume bytes).brLen = s.brLen := rfl
@[simp] theorem State.consume_brPos (bytes : List Byte) (s : State) : (s.consume bytes).brPos = s.brPos := rfl
@[simp] theorem State.consume_total (bytes : List Byte) (s : State) : (s.consume bytes).total = s.total := rfl
@[simp] theorem State.consume_idx (bytes : List Byte) (s : State) : (s.consume bytes).idx = s.idx := rfl
@[simp] theorem State.consume_srcPos (bytes : List Byte) (s : State) : (s.consume bytes).srcPos = s.srcPos + bytes.length := rfl
@[simp] theorem State.consume_snkPos (bytes : List Byte) (s : State) : (s.consume bytes).snkPos = s.snkPos := rfl
@[simp] theorem State.consume_phase (bytes : List Byte) (s : State) : (s.consume bytes).phase = s.phase := rfl
@[simp] theorem State.consume_outBuf (bytes : List Byte) (s : State) : (s.consume bytes).outBuf = s.outBuf := rfl
@[simp] theorem State.consume_src (bytes : List Byte) (s : State) : (s.consume bytes).src = ⟨s.src.rest.drop bytes.length, s.src.answers.tail⟩ := rfl
@[simp] theorem State.consume_sink (bytes : List Byte) (s : State) : (s.consume bytes).sink = s.sink := rfl
@[simp] theorem State.consume_host (bytes : List Byte) (s : State) : (s.consume bytes).host = s.host := rfl
@[simp] theorem State.consume_busData (bytes : List Byte) (s : State) : (s.consume bytes).busData = s.busData := rfl
@[simp] theorem State.consume_freeCtr (bytes : List Byte) (s : State) : (s.consume bytes).freeCtr = s.freeCtr := rfl
@[simp] theorem State.consume_params (bytes : List Byte) (s : State) : (s.consume bytes).params = s.params := rfl

/-! ### State.accept -/

@[simp] theorem State.accept_sess (bytes : List Byte) (s : State) : (s.accept bytes).sess = s.sess := rfl
@[simp] theorem State.accept_result (bytes : List Byte) (s : State) : (s.accept bytes).result = s.result := rfl
@[simp] theorem State.accept_mode (bytes : List Byte) (s : State) : (s.accept bytes).mode = s.mode := rfl
@[simp] theorem State.accept_errCode (bytes : List Byte) (s : State) : (s.accept bytes).errCode = s.errCode := rfl
@[simp] theorem State.accept_curBlock (bytes : List Byte) (s : State) : (s.accept bytes).curBlock = s.curBlock := rfl
@[simp] theorem State.accept_lastLen (bytes : List Byte) (s : State) : (s.accept bytes).lastLen = s.lastLen := rfl
@[simp] theorem State.accept_errBlock (bytes : List Byte) (s : State) : (s.accept bytes).errBlock = s.errBlock := rfl
@[simp] theorem State.accept_hdr (bytes : List Byte) (s : State) : (s.accept bytes).hdr = s.hdr := rfl
@[simp] theorem State.accept_off (bytes : List Byte) (s : State) : (s.accept bytes).off = s.off := rfl
@[simp] theorem State.accept_scratch (bytes : List Byte) (s : State) : (s.accept bytes).scratch = s.scratch := rfl
@[simp] theorem State.accept_scrLen (bytes : List Byte) (s : State) : (s.accept bytes).scrLen = s.scrLen := rfl
@[simp] theorem State.accept_running0 (bytes : List Byte) (s : State) : (s.accept bytes).running0 = s.running0 := rfl
@[simp] theorem State.accept_running1 (bytes : List Byte) (s : State) : (s.accept bytes).running1 = s.running1 := rfl
@[simp] theorem State.accept_flip (bytes : List Byte) (s : State) : (s.accept bytes).flip = s.flip := rfl
@[simp] theorem State.accept_runlength (bytes : List Byte) (s : State) : (s.accept bytes).runlength = s.runlength := rfl
@[simp] theorem State.accept_brBase (bytes : List Byte) (s : State) : (s.accept bytes).brBase = s.brBase := rfl
@[simp] theorem State.accept_brLen (bytes : List Byte) (s : State) : (s.accept bytes).brLen = s.brLen := rfl
@[simp] theorem State.accept_brPos (bytes : List Byte) (s : State) : (s.accept bytes).brPos = s.brPos := rfl
@[simp] theorem State.accept_total (bytes : List Byte) (s : State) : (s.accept bytes).total = s.total := rfl
@[simp] theorem State.accept_idx (bytes : List Byte) (s : State) : (s.accept bytes).idx = s.idx := rfl
@[simp] theorem State.accept_srcPos (bytes : List Byte) (s : State) : (s.accept bytes).srcPos = s.srcPos := rfl
@[simp] theorem State.accept_snkPos (bytes : List Byte) (s : State) : (s.accept bytes).snkPos = s.snkPos + bytes.length := rfl
@[simp] theorem State.accept_phase (bytes : List Byte) (s : State) : (s.accept bytes).phase = s.phase := rfl
@[simp] theorem State.accept_outBuf (bytes : List Byte) (s : State) : (s.accept bytes).outBuf = s.outBuf := rfl
@[simp] theorem State.accept_src (bytes : List Byte) (s : State) : (s.accept bytes).src = s.src := rfl
@[simp] theorem State.accept_sink (bytes : List Byte) (s : State) : (s.accept bytes).sink = ⟨s.sink.bytes ++ bytes, s.sink.answers.tail⟩ := rfl
@[simp] theorem State.accept_host (bytes : List Byte) (s : State) : (s.accept bytes).host = s.host := rfl
@[simp] theorem State.accept_busData (bytes : List Byte) (s : State) : (s.accept bytes).busData = s.busData := rfl
@[simp] theorem State.accept_freeCtr (bytes : List Byte) (s : State) : (s.accept bytes).freeCtr = s.freeCtr := rfl
@[simp] theorem State.accept_params (bytes : List Byte) (s : State) : (s.accept bytes).params = s.params := rfl

/-! ### raiseFrom -/

@[simp] theorem raiseFrom_sess (rest0 : List Byte) (e : ErrCode) (s : State) : (raiseFrom rest0 e s).sess = .error := rfl
@[simp] theorem raiseFrom_result (rest0 : List Byte) (e : ErrCode) (s : State) : (raiseFrom rest0 e s).result = .error := rfl
@[simp] theorem raiseFrom_mode (rest0 : List Byte) (e : ErrCode) (s : State) : (raiseFrom rest0 e s).mode = s.mode := rfl
@[simp] theorem raiseFrom_errCode (rest0 : List Byte) (e : ErrCode) (s : State) : (raiseFrom rest0 e s).errCode = e := rfl
@[simp] theorem raiseFrom_curBlock (rest0 : List Byte) (e : ErrCode) (s : State) : (raiseFrom rest0 e s).curBlock = s.curBlock := rfl
@[simp] theorem raiseFrom_lastLen (rest0 : List Byte) (e : ErrCode) (s : State) : (raiseFrom rest0 e s).lastLen = 0 := rfl
@[simp] theorem raiseFrom_errBlock (rest0 : List Byte) (e : ErrCode) (s : State) : (raiseFrom rest0 e s).errBlock = s.curBlock := rfl
@[simp] theorem raiseFrom_hdr (rest0 : List Byte) (e : ErrCode) (s : State) : (raiseFrom rest0 e s).hdr = s.hdr := rfl
@[simp] theorem raiseFrom_off (rest0 : List Byte) (e : ErrCode) (s : State) : (raiseFrom rest0 e s).off = s.off := rfl
@[simp] theorem raiseFrom_scratch (rest0 : List Byte) (e : ErrCode) (s : State) : (raiseFrom rest0 e s).scratch = s.scratch := rfl
@[simp] theorem raiseFrom_scrLen (rest0 : List Byte) (e : ErrCode) (s : State) : (raiseFrom rest0 e s).scrLen = s.scrLen := rfl
@[simp] theorem raiseFrom_running0 (rest0 : List Byte) (e : ErrCode) (s : State) : (raiseFrom rest0 e s).running0 = s.running0 := rfl
@[simp] theorem raiseFrom_running1 (rest0 : List Byte) (e : ErrCode) (s : State) : (raiseFrom rest0 e s).running1 = s.running1 := rfl
@[simp] theorem raiseFrom_flip (rest0 : List Byte) (e : ErrCode) (s : State) : (raiseFrom rest0 e s).flip = s.flip := rfl
@[simp] theorem raiseFrom_runlength (rest0 : List Byte) (e : ErrCode) (s : State) : (raiseFrom rest0 e s).runlength = s.runlength := rfl
@[simp] theorem raiseFrom_brBase (rest0 : List Byte) (e : ErrCode) (s : State) : (raiseFrom rest0 e s).brBase = s.brBase := rfl
@[simp] theorem raiseFrom_brLen (rest0 : List Byte) (e : ErrCode) (s : State) : (raiseFrom rest0 e s).brLen = s.brLen := rfl
@[simp] theorem raiseFrom_brPos (rest0 : List Byte) (e : ErrCode) (s : State) : (raiseFrom rest0 e s).brPos = s.brPos := rfl
@[simp] theorem raiseFrom_total (rest0 : List Byte) (e : ErrCode) (s : State) : (raiseFrom rest0 e s).total = s.total := rfl
@[simp] theorem raiseFrom_idx (rest0 : List Byte) (e : ErrCode) (s : State) : (raiseFrom rest0 e s).idx = s.idx := rfl
@[simp] theorem raiseFrom_srcPos (rest0 : List Byte) (e : ErrCode) (s : State) : (raiseFrom rest0 e s).srcPos = Config.freeSrcPos s.freeCtr := rfl
@[simp] theorem raiseFrom_snkPos (rest0 : List Byte) (e : ErrCode) (s : State) : (raiseFrom rest0 e s).snkPos = s.snkPos := rfl
@[simp] theorem raiseFrom_phase (rest0 : List Byte) (e : ErrCode) (s : State) : (raiseFrom rest0 e s).phase = .idle := rfl
@[simp] theorem raiseFrom_outBuf (rest0 : List Byte) (e : ErrCode) (s : State) : (raiseFrom rest0 e s).outBuf = [] := rfl
@[simp] theorem raiseFrom_src (rest0 : List Byte) (e : ErrCode) (s : State) : (raiseFrom rest0 e s).src = ⟨rest0.drop (Config.freeSrcSkip s.freeCtr), s.src.answers⟩ := rfl
@[simp] theorem raiseFrom_sink (rest0 : List Byte) (e : ErrCode) (s : State) : (raiseFrom rest0 e s).sink = s.sink := rfl
@[simp] theorem raiseFrom_host (rest0 : List Byte) (e : ErrCode) (s : State) : (raiseFrom rest0 e s).host = s.host := rfl
@[simp] theorem raiseFrom_busData (rest0 : List Byte) (e : ErrCode) (s : State) : (raiseFrom rest0 e s).busData = s.busData := rfl
@[simp] theorem raiseFrom_freeCtr (rest0 : List Byte) (e : ErrCode) (s : State) : (raiseFrom rest0 e s).freeCtr = s.freeCtr + 1 := rfl
@[simp] theorem raiseFrom_params (rest0 : List Byte) (e : ErrCode) (s : State) : (raiseFrom rest0 e s).params = s.params := rfl

/-! ### raiseError -/

@[simp] theorem raiseError_sess (e : ErrCode) (s : State) : (raiseError e s).sess = .error := rfl
@[simp] theorem raiseError_result (e : ErrCode) (s : State) : (raiseError e s).result = .error := rfl
@[simp] theorem raiseError_mode (e : ErrCode) (s : State) : (raiseError e s).mode = s.mode := rfl
@[simp] theorem raiseError_errCode (e : ErrCode) (s : State) : (raiseError e s).errCode = e := rfl
@[simp] theorem raiseError_curBlock (e : ErrCode) (s : State) : (raiseError e s).curBlock = s.curBlock := rfl
@[simp] theorem raiseError_lastLen (e : ErrCode) (s : State) : (raiseError e s).lastLen = 0 := rfl
@[simp] theorem raiseError_errBlock (e : ErrCode) (s : State) : (raiseError e s).errBlock = s.curBlock := rfl
@[simp] theorem raiseError_hdr (e : ErrCode) (s : State) : (raiseError e s).hdr = s.hdr := rfl
@[simp] theorem raiseError_off (e : ErrCode) (s : State) : (raiseError e s).off = s.off := rfl
@[simp] theorem raiseError_scratch (e : ErrCode) (s : State) : (raiseError e s).scratch = s.scratch := rfl
@[simp] theorem raiseError_scrLen (e : ErrCode) (s : State) : (raiseError e s).scrLen = s.scrLen := rfl
@[simp] theorem raiseError_running0 (e : ErrCode) (s : State) : (raiseError e s).running0 = s.running0 := rfl
@[simp] theorem raiseError_running1 (e : ErrCode) (s : State) : (raiseError e s).running1 = s.running1 := rfl
@[simp] theorem raiseError_flip (e : ErrCode) (s : State) : (raiseError e s).flip = s.flip := rfl
@[simp] theorem raiseError_runlength (e : ErrCode) (s : State) : (raiseError e s).runlength = s.runlength := rfl
@[simp] theorem raiseError_brBase (e : ErrCode) (s : State) : (raiseError e s).brBase = s.brBase := rfl
@[simp] theorem raiseError_brLen (e : ErrCode) (s : State) : (raiseError e s).brLen = s.brLen := rfl
@[simp] theorem raiseError_brPos (e : ErrCode) (s : State) : (raiseError e s).brPos = s.brPos := rfl
@[simp] theorem raiseError_total (e : ErrCode) (s : State) : (raiseError e s).total = s.total := rfl
@[simp] theorem raiseError_idx (e : ErrCode) (s : State) : (raiseError e s).idx = s.idx := rfl
@[simp] theorem raiseError_srcPos (e : ErrCode) (s : State) : (raiseError e s).srcPos = Config.freeSrcPos s.freeCtr := rfl
@[simp] theorem raiseError_snkPos (e : ErrCode) (s : State) : (raiseError e s).snkPos = s.snkPos := rfl
@[simp] theorem raiseError_phase (e : ErrCode) (s : State) : (raiseError e s).phase = .idle := rfl
@[simp] theorem raiseError_outBuf (e : ErrCode) (s : State) : (raiseError e s).outBuf = [] := rfl
@[simp] theorem raiseError_src (e : ErrCode) (s : State) : (raiseError e s).src = ⟨s.src.rest.drop (Config.freeSrcSkip s.freeCtr), s.src.answers⟩ := rfl
@[simp] theorem raiseError_sink (e : ErrCode) (s : State) : (raiseError e s).sink = s.sink := rfl
@[simp] theorem raiseError_host (e : ErrCode) (s : State) : (raiseError e s).host = s.host := rfl
@[simp] theorem raiseError_busData (e : ErrCode) (s : State) : (raiseError e s).busData = s.busData := rfl
@[simp] theorem raiseError_freeCtr (e : ErrCode) (s : State) : (raiseError e s).freeCtr = s.freeCtr + 1 := rfl
@[simp] theorem raiseError_params (e : ErrCode) (s : State) : (raiseError e s).params = s.params := rfl

/-! ### State.cleared -/

@[simp] theorem State.cleared_sess (s : State) : (s.cleared).sess = State.reset.sess := rfl
@[simp] theorem State.cleared_result (s : State) : (s.cleared).result = State.reset.result := rfl
@[simp] theorem State.cleared_mode (s : State) : (s.cleared).mode = State.reset.mode := rfl
@[simp] theorem State.cleared_errCode (s : State) : (s.cleared).errCode = State.reset.errCode := rfl
@[simp] theorem State.cleared_curBlock (s : State) : (s.cleared).curBlock = State.reset.curBlock := rfl
@[simp] theorem State.cleared_lastLen (s : State) : (s.cleared).lastLen = State.reset.lastLen := rfl
@[simp] theorem State.cleared_errBlock (s : State) : (s.cleared).errBlock = State.reset.errBlock := rfl
@[simp] theorem State.cleared_hdr (s : State) : (s.cleared).hdr = State.reset.hdr := rfl
@[simp] theorem State.cleared_off (s : State) : (s.cleared).off = State.reset.off := rfl
@[simp] theorem State.cleared_scratch (s : State) : (s.cleared).scratch = State.reset.scratch := rfl
@[simp] theorem State.cleared_scrLen (s : State) : (s.cleared).scrLen = State.reset.scrLen := rfl
@[simp] theorem State.cleared_running0 (s : State) : (s.cleared).running0 = State.reset.running0 := rfl
@[simp] theorem State.cleared_running1 (s : State) : (s.cleared).running1 = State.reset.running1 := rfl
@[simp] theorem State.cleared_flip (s : State) : (s.cleared).flip = State.reset.flip := rfl
@[simp] theorem State.cleared_runlength (s : State) : (s.cleared).runlength = State.reset.runlength := rfl
@[simp] theorem State.cleared_brBase (s : State) : (s.cleared).brBase = State.reset.brBase := rfl
@[simp] theorem State.cleared_brLen (s : State) : (s.cleared).brLen = State.reset.brLen := rfl
@[simp] theorem State.cleared_brPos (s : State) : (s.cleared).brPos = State.reset.brPos := rfl
@[simp] theorem State.cleared_total (s : State) : (s.cleared).total = State.reset.total := rfl
@[simp] theorem State.cleared_idx (s : State) : (s.cleared).idx = State.reset.idx := rfl
@[simp] theorem State.cleared_srcPos (s : State) : (s.cleared).srcPos = State.reset.srcPos := rfl
@[simp] theorem State.cleared_snkPos (s : State) : (s.cleared).snkPos = State.reset.snkPos := rfl
@[simp] theorem State.cleared_phase (s : State) : (s.cleared).phase = State.reset.phase := rfl
@[simp] theorem State.cleared_outBuf (s : State) : (s.cleared).outBuf = State.reset.outBuf := rfl
@[simp] theorem State.cleared_src (s : State) : (s.cleared).src = s.src := rfl
@[simp] theorem State.cleared_sink (s : State) : (s.cleared).sink = s.sink := rfl
@[simp] theorem State.cleared_host (s : State) : (s.cleared).host = s.host := rfl
@[simp] theorem State.cleared_busData (s : State) : (s.cleared).busData = s.busData := rfl
@[simp] theorem State.cleared_freeCtr (s : State) : (s.cleared).freeCtr = s.freeCtr := rfl
@[simp] theorem State.cleared_params (s : State) : (s.cleared).params = s.params := rfl

/-! ### State.loadScratch -/

@[simp] theorem State.loadScratch_sess (buf : List Byte) (s : State) : (s.loadScratch buf).sess = s.sess := rfl
@[simp] theorem State.loadScratch_result (buf : List Byte) (s : State) : (s.loadScratch buf).result = s.result := rfl
@[simp] theorem State.loadScratch_mode (buf : List Byte) (s : State) : (s.loadScratch buf).mode = s.mode := rfl
@[simp] theorem State.loadScratch_errCode (buf : List Byte) (s : State) : (s.loadScratch buf).errCode = s.errCode := rfl
@[simp] theorem State.loadScratch_curBlock (buf : List Byte) (s : State) : (s.loadScratch buf).curBlock = s.curBlock := rfl
@[simp] theorem State.loadScratch_lastLen (buf : List Byte) (s : State) : (s.loadScratch buf).lastLen = s.lastLen := rfl
@[simp] theorem State.loadScratch_errBlock (buf : List Byte) (s : State) : (s.loadScratch buf).errBlock = s.errBlock := rfl
@[simp] theorem State.loadScratch_hdr (buf : List Byte) (s : State) : (s.loadScratch buf).hdr = s.hdr := rfl
@[simp] theorem State.loadScratch_off (buf : List Byte) (s : State) : (s.loadScratch buf).off = s.off := rfl
@[simp] theorem State.loadScratch_scratch (buf : List Byte) (s : State) : (s.loadScratch buf).scratch = ramLoad 0 buf := rfl
@[simp] theorem State.loadScratch_scrLen (buf : List Byte) (s : State) : (s.loadScratch buf).scrLen = buf.length := rfl
@[simp] theorem State.loadScratch_running0 (buf : List Byte) (s : State) : (s.loadScratch buf).running0 = s.running0 := rfl
@[simp] theorem State.loadScratch_running1 (buf : List Byte) (s : State) : (s.loadScratch buf).running1 = s.running1 := rfl
@[simp] theorem State.loadScratch_flip (buf : List Byte) (s : State) : (s.loadScratch buf).flip = s.flip := rfl
@[simp] theorem State.loadScratch_runlength (buf : List Byte) (s : State) : (s.loadScratch buf).runlength = s.runlength := rfl
@[simp] theorem State.loadScratch_brBase (buf : List Byte) (s : State) : (s.loadScratch buf).brBase = s.brBase := rfl
@[simp] theorem State.loadScratch_brLen (buf : List Byte) (s : State) : (s.loadScratch buf).brLen = s.brLen := rfl
@[simp] theorem State.loadScratch_brPos (buf : List Byte) (s : State) : (s.loadScratch buf).brPos = s.brPos := rfl
@[simp] theorem State.loadScratch_total (buf : List Byte) (s : State) : (s.loadScratch buf).total = s.total := rfl
@[simp] theorem State.loadScratch_idx (buf : List Byte) (s : State) : (s.loadScratch buf).idx = s.idx := rfl
@[simp] theorem State.loadScratch_srcPos (buf : List Byte) (s : State) : (s.loadScratch buf).srcPos = s.srcPos := rfl
@[simp] theorem State.loadScratch_snkPos (buf : List Byte) (s : State) : (s.loadScratch buf).snkPos = s.snkPos := rfl
@[simp] theorem State.loadScratch_phase (buf : List Byte) (s : State) : (s.loadScratch buf).phase = s.phase := rfl
@[simp] theorem State.loadScratch_outBuf (buf : List Byte) (s : State) : (s.loadScratch buf).outBuf = s.outBuf := rfl
@[simp] theorem State.loadScratch_src (buf : List Byte) (s : State) : (s.loadScratch buf).src = s.src := rfl
@[simp] theorem State.loadScratch_sink (buf : List Byte) (s : State) : (s.loadScratch buf).sink = s.sink := rfl
@[simp] theorem State.loadScratch_host (buf : List Byte) (s : State) : (s.loadScratch buf).host = s.host := rfl
@[simp] theorem State.loadScratch_busData (buf : List Byte) (s : State) : (s.loadScratch buf).busData = s.busData := rfl
@[simp] theorem State.loadScratch_freeCtr (buf : List Byte) (s : State) : (s.loadScratch buf).freeCtr = s.freeCtr := rfl
@[simp] theorem State.loadScratch_params (buf : List Byte) (s : State) : (s.loadScratch buf).params = s.params := rfl

/-! ### State.advanceSample -/

@[simp] theorem State.advanceSample_sess (s : State) : (s.advanceSample).sess = s.sess := rfl
@[simp] theorem State.advanceSample_result (s : State) : (s.advanceSample).result = s.result := rfl
@[simp] theorem State.advanceSample_mode (s : State) : (s.advanceSample).mode = s.mode := rfl
@[simp] theorem State.advanceSample_errCode (s : State) : (s.advanceSample).errCode = s.errCode := rfl
@[simp] theorem State.advanceSample_curBlock (s : State) : (s.advanceSample).curBlock = s.curBlock := rfl
@[simp] theorem State.advanceSample_lastLen (s : State) : (s.advanceSample).lastLen = s.lastLen := rfl
@[simp] theorem State.advanceSample_errBlock (s : State) : (s.advanceSample).errBlock = s.errBlock := rfl
@[simp] theorem State.advanceSample_hdr (s : State) : (s.advanceSample).hdr = s.hdr := rfl
@[simp] theorem State.advanceSample_off (s : State) : (s.advanceSample).off = s.off := rfl
@[simp] theorem State.advanceSample_scratch (s : State) : (s.advanceSample).scratch = s.scratch := rfl
@[simp] theorem State.advanceSample_scrLen (s : State) : (s.advanceSample).scrLen = s.scrLen := rfl
@[simp] theorem State.advanceSample_running0 (s : State) : (s.advanceSample).running0 = s.running0 := rfl
@[simp] theorem State.advanceSample_running1 (s : State) : (s.advanceSample).running1 = s.running1 := rfl
@[simp] theorem State.advanceSample_flip (s : State) : (s.advanceSample).flip = if s.stereo then !s.flip else s.flip := rfl
@[simp] theorem State.advanceSample_runlength (s : State) : (s.advanceSample).runlength = s.runlength := rfl
@[simp] theorem State.advanceSample_brBase (s : State) : (s.advanceSample).brBase = s.brBase := rfl
@[simp] theorem State.advanceSample_brLen (s : State) : (s.advanceSample).brLen = s.brLen := rfl
@[simp] theorem State.advanceSample_brPos (s : State) : (s.advanceSample).brPos = s.brPos := rfl
@[simp] theorem State.advanceSample_total (s : State) : (s.advanceSample).total = s.total := rfl
@[simp] theorem State.advanceSample_idx (s : State) : (s.advanceSample).idx = s.idx + 1 := rfl
@[simp] theorem State.advanceSample_srcPos (s : State) : (s.advanceSample).srcPos = s.srcPos := rfl
@[simp] theorem State.advanceSample_snkPos (s : State) : (s.advanceSample).snkPos = s.snkPos := rfl
@[simp] theorem State.advanceSample_phase (s : State) : (s.advanceSample).phase = s.phase := rfl
@[simp] theorem State.advanceSample_outBuf (s : State) : (s.advanceSample).outBuf = s.outBuf := rfl
@[simp] theorem State.advanceSample_src (s : State) : (s.advanceSample).src = s.src := rfl
@[simp] theorem State.advanceSample_sink (s : State) : (s.advanceSample).sink = s.sink := rfl
@[simp] theorem State.advanceSample_host (s : State) : (s.advanceSample).host = s.host := rfl
@[simp] theorem State.advanceSample_busData (s : State) : (s.advanceSample).busData = s.busData := rfl
@[simp] theorem State.advanceSample_freeCtr (s : State) : (s.advanceSample).freeCtr = s.freeCtr := rfl
@[simp] theorem State.advanceSample_params (s : State) : (s.advanceSample).params = s.params := rfl

/-! ### State.advanceBits -/

@[simp] theorem State.advanceBits_sess (n : Nat) (s : State) : (s.advanceBits n).sess = s.sess := rfl
@[simp] theorem State.advanceBits_result (n : Nat) (s : State) : (s.advanceBits n).result = s.result := rfl
@[simp] theorem State.advanceBits_mode (n : Nat) (s : State) : (s.advanceBits n).mode = s.mode := rfl
@[simp] theorem State.advanceBits_errCode (n : Nat) (s : State) : (s.advanceBits n).errCode = s.errCode := rfl
@[simp] theorem State.advanceBits_curBlock (n : Nat) (s : State) : (s.advanceBits n).curBlock = s.curBlock := rfl
@[simp] theorem State.advanceBits_lastLen (n : Nat) (s : State) : (s.advanceBits n).lastLen = s.lastLen := rfl
@[simp] theorem State.advanceBits_errBlock (n : Nat) (s : State) : (s.advanceBits n).errBlock = s.errBlock := rfl
@[simp] theorem State.advanceBits_hdr (n : Nat) (s : State) : (s.advanceBits n).hdr = s.hdr := rfl
@[simp] theorem State.advanceBits_off (n : Nat) (s : State) : (s.advanceBits n).off = s.off := rfl
@[simp] theorem State.advanceBits_scratch (n : Nat) (s : State) : (s.advanceBits n).scratch = s.scratch := rfl
@[simp] theorem State.advanceBits_scrLen (n : Nat) (s : State) : (s.advanceBits n).scrLen = s.scrLen := rfl
@[simp] theorem State.advanceBits_running0 (n : Nat) (s : State) : (s.advanceBits n).running0 = s.running0 := rfl
@[simp] theorem State.advanceBits_running1 (n : Nat) (s : State) : (s.advanceBits n).running1 = s.running1 := rfl
@[simp] theorem State.advanceBits_flip (n : Nat) (s : State) : (s.advanceBits n).flip = s.flip := rfl
@[simp] theorem State.advanceBits_runlength (n : Nat) (s : State) : (s.advanceBits n).runlength = s.runlength := rfl
@[simp] theorem State.advanceBits_brBase (n : Nat) (s : State) : (s.advanceBits n).brBase = s.brBase := rfl
@[simp] theorem State.advanceBits_brLen (n : Nat) (s : State) : (s.advanceBits n).brLen = s.brLen := rfl
@[simp] theorem State.advanceBits_brPos (n : Nat) (s : State) : (s.advanceBits n).brPos = s.brPos + n := rfl
@[simp] theorem State.advanceBits_total (n : Nat) (s : State) : (s.advanceBits n).total = s.total := rfl
@[simp] theorem State.advanceBits_idx (n : Nat) (s : State) : (s.advanceBits n).idx = s.idx := rfl
@[simp] theorem State.advanceBits_srcPos (n : Nat) (s : State) : (s.advanceBits n).srcPos = s.srcPos := rfl
@[simp] theorem State.advanceBits_snkPos (n : Nat) (s : State) : (s.advanceBits n).snkPos = s.snkPos := rfl
@[simp] theorem State.advanceBits_phase (n : Nat) (s : State) : (s.advanceBits n).phase = s.phase := rfl
@[simp] theorem State.advanceBits_outBuf (n : Nat) (s : State) : (s.advanceBits n).outBuf = s.outBuf := rfl
@[simp] theorem State.advanceBits_src (n : Nat) (s : State) : (s.advanceBits n).src = s.src := rfl
@[simp] theorem State.advanceBits_sink (n : Nat) (s : State) : (s.advanceBits n).sink = s.sink := rfl
@[simp] theorem State.advanceBits_host (n : Nat) (s : State) : (s.advanceBits n).host = s.host := rfl
@[simp] theorem State.advanceBits_busData (n : Nat) (s : State) : (s.advanceBits n).busData = s.busData := rfl
@[simp] theorem State.advanceBits_freeCtr (n : Nat) (s : State) : (s.advanceBits n).freeCtr = s.freeCtr := rfl
@[simp] theorem State.advanceBits_params (n : Nat) (s : State) : (s.advanceBits n).params = s.params := rfl

/-! ### State.bitReaderInit -/

@[simp] theorem State.bitReaderInit_sess (s : State) : (s.bitReaderInit).sess = s.sess := rfl
@[simp] theorem State.bitReaderInit_result (s : State) : (s.bitReaderInit).result = s.result := rfl
@[simp] theorem State.bitReaderInit_mode (s : State) : (s.bitReaderInit).mode = s.mode := rfl
@[simp] theorem State.bitReaderInit_errCode (s : State) : (s.bitReaderInit).errCode = s.errCode := rfl
@[simp] theorem State.bitReaderInit_curBlock (s : State) : (s.bitReaderInit).curBlock = s.curBlock := rfl
@[simp] theorem State.bitReaderInit_lastLen (s : State) : (s.bitReaderInit).lastLen = s.lastLen := rfl
@[simp] theorem State.bitReaderInit_errBlock (s : State) : (s.bitReaderInit).errBlock = s.errBlock := rfl
@[simp] theorem State.bitReaderInit_hdr (s : State) : (s.bitReaderInit).hdr = s.hdr := rfl
@[simp] theorem State.bitReaderInit_off (s : State) : (s.bitReaderInit).off = s.off := rfl
@[simp] theorem State.bitReaderInit_scratch (s : State) : (s.bitReaderInit).scratch = s.scratch := rfl
@[simp] theorem State.bitReaderInit_scrLen (s : State) : (s.bitReaderInit).scrLen = s.scrLen := rfl
@[simp] theorem State.bitReaderInit_running0 (s : State) : (s.bitReaderInit).running0 = s.running0 := rfl
@[simp] theorem State.bitReaderInit_running1 (s : State) : (s.bitReaderInit).running1 = s.running1 := rfl
@[simp] theorem State.bitReaderInit_flip (s : State) : (s.bitReaderInit).flip = s.flip := rfl
@[simp] theorem State.bitReaderInit_runlength (s : State) : (s.bitReaderInit).runlength = s.runlength := rfl
@[simp] theorem State.bitReaderInit_brBase (s : State) : (s.bitReaderInit).brBase = s.seedBytes := rfl
@[simp] theorem State.bitReaderInit_brLen (s : State) : (s.bitReaderInit).brLen = s.scrLen - s.seedBytes := rfl
@[simp] theorem State.bitReaderInit_brPos (s : State) : (s.bitReaderInit).brPos = 0 := rfl
@[simp] theorem State.bitReaderInit_total (s : State) : (s.bitReaderInit).total = s.total := rfl
@[simp] theorem State.bitReaderInit_idx (s : State) : (s.bitReaderInit).idx = s.idx := rfl
@[simp] theorem State.bitReaderInit_srcPos (s : State) : (s.bitReaderInit).srcPos = s.srcPos := rfl
@[simp] theorem State.bitReaderInit_snkPos (s : State) : (s.bitReaderInit).snkPos = s.snkPos := rfl
@[simp] theorem State.bitReaderInit_phase (s : State) : (s.bitReaderInit).phase = s.phase := rfl
@[simp] theorem State.bitReaderInit_outBuf (s : State) : (s.bitReaderInit).outBuf = s.outBuf := rfl
@[simp] theorem State.bitReaderInit_src (s : State) : (s.bitReaderInit).src = s.src := rfl
@[simp] theorem State.bitReaderInit_sink (s : State) : (s.bitReaderInit).sink = s.sink := rfl
@[simp] theorem State.bitReaderInit_host (s : State) : (s.bitReaderInit).host = s.host := rfl
@[simp] theorem State.bitReaderInit_busData (s : State) : (s.bitReaderInit).busData = s.busData := rfl
@[simp] theorem State.bitReaderInit_freeCtr (s : State) : (s.bitReaderInit).freeCtr = s.freeCtr := rfl
@[simp] theorem State.bitReaderInit_params (s : State) : (s.bitReaderInit).params = s.params := rfl

/-! ### State.blockDone -/

@[simp] theorem State.blockDone_sess (len : Int) (s : State) : (s.blockDone len).sess = if s.curBlock.toInt + 1 = s.hdr.blocks.toInt then .finished else s.sess := rfl
@[simp] theorem State.blockDone_result (len : Int) (s : State) : (s.blockDone len).result = .chunk := rfl
@[simp] theorem State.blockDone_mode (len : Int) (s : State) : (s.blockDone len).mode = s.mode := rfl
@[simp] theorem State.blockDone_errCode (len : Int) (s : State) : (s.blockDone len).errCode = s.errCode := rfl
@[simp] theorem State.blockDone_curBlock (len : Int) (s : State) : (s.blockDone len).curBlock = toWord (s.curBlock.toInt + 1) := rfl
@[simp] theorem State.blockDone_lastLen (len : Int) (s : State) : (s.blockDone len).lastLen = toWord len := rfl
@[simp] theorem State.blockDone_errBlock (len : Int) (s : State) : (s.blockDone len).errBlock = s.errBlock := rfl
@[simp] theorem State.blockDone_hdr (len : Int) (s : State) : (s.blockDone len).hdr = s.hdr := rfl
@[simp] theorem State.blockDone_off (len : Int) (s : State) : (s.blockDone len).off = s.off := rfl
@[simp] theorem State.blockDone_scratch (len : Int) (s : State) : (s.blockDone len).scratch = s.scratch := rfl
@[simp] theorem State.blockDone_scrLen (len : Int) (s : State) : (s.blockDone len).scrLen = s.scrLen := rfl
@[simp] theorem State.blockDone_running0 (len : Int) (s : State) : (s.blockDone len).running0 = s.running0 := rfl
@[simp] theorem State.blockDone_running1 (len : Int) (s : State) : (s.blockDone len).running1 = s.running1 := rfl
@[simp] theorem State.blockDone_flip (len : Int) (s : State) : (s.blockDone len).flip = s.flip := rfl
@[simp] theorem State.blockDone_runlength (len : Int) (s : State) : (s.blockDone len).runlength = s.runlength := rfl
@[simp] theorem State.blockDone_brBase (len : Int) (s : State) : (s.blockDone len).brBase = s.brBase := rfl
@[simp] theorem State.blockDone_brLen (len : Int) (s : State) : (s.blockDone len).brLen = s.brLen := rfl
@[simp] theorem State.blockDone_brPos (len : Int) (s : State) : (s.blockDone len).brPos = s.brPos := rfl
@[simp] theorem State.blockDone_total (len : Int) (s : State) : (s.blockDone len).total = s.total := rfl
@[simp] theorem State.blockDone_idx (len : Int) (s : State) : (s.blockDone len).idx = s.idx := rfl
@[simp] theorem State.blockDone_srcPos (len : Int) (s : State) : (s.blockDone len).srcPos = s.srcPos := rfl
@[simp] theorem State.blockDone_snkPos (len : Int) (s : State) : (s.blockDone len).snkPos = s.snkPos := rfl
@[simp] theorem State.blockDone_phase (len : Int) (s : State) : (s.blockDone len).phase = s.phase := rfl
@[simp] theorem State.blockDone_outBuf (len : Int) (s : State) : (s.blockDone len).outBuf = s.outBuf := rfl
@[simp] theorem State.blockDone_src (len : Int) (s : State) : (s.blockDone len).src = s.src := rfl
@[simp] theorem State.blockDone_sink (len : Int) (s : State) : (s.blockDone len).sink = s.sink := rfl
@[simp] theorem State.blockDone_host (len : Int) (s : State) : (s.blockDone len).host = s.host := rfl
@[simp] theorem State.blockDone_busData (len : Int) (s : State) : (s.blockDone len).busData = s.busData := rfl
@[simp] theorem State.blockDone_freeCtr (len : Int) (s : State) : (s.blockDone len).freeCtr = s.freeCtr := rfl
@[simp] theorem State.blockDone_params (len : Int) (s : State) : (s.blockDone len).params = s.params := rfl

/-! ### State.endBlock -/

@[simp] theorem State.endBlock_sess (s : State) : (s.endBlock).sess = if s.curBlock.toInt + 1 = s.hdr.blocks.toInt then .finished else s.sess := rfl
@[simp] theorem State.endBlock_result (s : State) : (s.endBlock).result = .chunk := rfl
@[simp] theorem State.endBlock_mode (s : State) : (s.endBlock).mode = s.mode := rfl
@[simp] theorem State.endBlock_errCode (s : State) : (s.endBlock).errCode = s.errCode := rfl
@[simp] theorem State.endBlock_curBlock (s : State) : (s.endBlock).curBlock = toWord (s.curBlock.toInt + 1) := rfl
@[simp] theorem State.endBlock_lastLen (s : State) : (s.endBlock).lastLen = toWord (s.total * s.w) := rfl
@[simp] theorem State.endBlock_errBlock (s : State) : (s.endBlock).errBlock = s.errBlock := rfl
@[simp] theorem State.endBlock_hdr (s : State) : (s.endBlock).hdr = s.hdr := rfl
@[simp] theorem State.endBlock_off (s : State) : (s.endBlock).off = s.off := rfl
@[simp] theorem State.endBlock_scratch (s : State) : (s.endBlock).scratch = s.scratch := rfl
@[simp] theorem State.endBlock_scrLen (s : State) : (s.endBlock).scrLen = s.scrLen := rfl
@[simp] theorem State.endBlock_running0 (s : State) : (s.endBlock).running0 = s.running0 := rfl
@[simp] theorem State.endBlock_running1 (s : State) : (s.endBlock).running1 = s.running1 := rfl
@[simp] theorem State.endBlock_flip (s : State) : (s.endBlock).flip = s.flip := rfl
@[simp] theorem State.endBlock_runlength (s : State) : (s.endBlock).runlength = s.runlength := rfl
@[simp] theorem State.endBlock_brBase (s : State) : (s.endBlock).brBase = s.brBase := rfl
@[simp] theorem State.endBlock_brLen (s : State) : (s.endBlock).brLen = s.brLen := rfl
@[simp] theorem State.endBlock_brPos (s : State) : (s.endBlock).brPos = s.brPos := rfl
@[simp] theorem State.endBlock_total (s : State) : (s.endBlock).total = s.total := rfl
@[simp] theorem State.endBlock_idx (s : State) : (s.endBlock).idx = s.idx := rfl
@[simp] theorem State.endBlock_srcPos (s : State) : (s.endBlock).srcPos = s.srcPos := rfl
@[simp] theorem State.endBlock_snkPos (s : State) : (s.endBlock).snkPos = s.snkPos := rfl
@[simp] theorem State.endBlock_phase (s : State) : (s.endBlock).phase = .idle := rfl
@[simp] theorem State.endBlock_outBuf (s : State) : (s.endBlock).outBuf = [] := rfl
@[simp] theorem State.endBlock_src (s : State) : (s.endBlock).src = s.src := rfl
@[simp] theorem State.endBlock_sink (s : State) : (s.endBlock).sink = s.sink := rfl
@[simp] theorem State.endBlock_host (s : State) : (s.endBlock).host = s.host := rfl
@[simp] theorem State.endBlock_busData (s : State) : (s.endBlock).busData = s.busData := rfl
@[simp] theorem State.endBlock_freeCtr (s : State) : (s.endBlock).freeCtr = s.freeCtr := rfl
@[simp] theorem State.endBlock_params (s : State) : (s.endBlock).params = s.params := rfl

/-! ### State.setRunning -/

@[simp] theorem State.setRunning_sess (c : Chan) (v : Sample) (s : State) : (s.setRunning c v).sess = s.sess := by cases c <;> rfl
@[simp] theorem State.setRunning_result (c : Chan) (v : Sample) (s : State) : (s.setRunning c v).result = s.result := by cases c <;> rfl
@[simp] theorem State.setRunning_mode (c : Chan) (v : Sample) (s : State) : (s.setRunning c v).mode = s.mode := by cases c <;> rfl
@[simp] theorem State.setRunning_errCode (c : Chan) (v : Sample) (s : State) : (s.setRunning c v).errCode = s.errCode := by cases c <;> rfl
@[simp] theorem State.setRunning_curBlock (c : Chan) (v : Sample) (s : State) : (s.setRunning c v).curBlock = s.curBlock := by cases c <;> rfl
@[simp] theorem State.setRunning_lastLen (c : Chan) (v : Sample) (s : State) : (s.setRunning c v).lastLen = s.lastLen := by cases c <;> rfl
@[simp] theorem State.setRunning_errBlock (c : Chan) (v : Sample) (s : State) : (s.setRunning c v).errBlock = s.errBlock := by cases c <;> rfl
@[simp] theorem State.setRunning_hdr (c : Chan) (v : Sample) (s : State) : (s.setRunning c v).hdr = s.hdr := by cases c <;> rfl
@[simp] theorem State.setRunning_off (c : Chan) (v : Sample) (s : State) : (s.setRunning c v).off = s.off := by cases c <;> rfl
@[simp] theorem State.setRunning_scratch (c : Chan) (v : Sample) (s : State) : (s.setRunning c v).scratch = s.scratch := by cases c <;> rfl
@[simp] theorem State.setRunning_scrLen (c : Chan) (v : Sample) (s : State) : (s.setRunning c v).scrLen = s.scrLen := by cases c <;> rfl
@[simp] theorem State.setRunning_running0 (c : Chan) (v : Sample) (s : State) : (s.setRunning c v).running0 = if c then s.running0 else v := by cases c <;> rfl
@[simp] theorem State.setRunning_running1 (c : Chan) (v : Sample) (s : State) : (s.setRunning c v).running1 = if c then v else s.running1 := by cases c <;> rfl
@[simp] theorem State.setRunning_flip (c : Chan) (v : Sample) (s : State) : (s.setRunning c v).flip = s.flip := by cases c <;> rfl
@[simp] theorem State.setRunning_runlength (c : Chan) (v : Sample) (s : State) : (s.setRunning c v).runlength = s.runlength := by cases c <;> rfl
@[simp] theorem State.setRunning_brBase (c : Chan) (v : Sample) (s : State) : (s.setRunning c v).brBase = s.brBase := by cases c <;> rfl
@[simp] theorem State.setRunning_brLen (c : Chan) (v : Sample) (s : State) : (s.setRunning c v).brLen = s.brLen := by cases c <;> rfl
@[simp] theorem State.setRunning_brPos (c : Chan) (v : Sample) (s : State) : (s.setRunning c v).brPos = s.brPos := by cases c <;> rfl
@[simp] theorem State.setRunning_total (c : Chan) (v : Sample) (s : State) : (s.setRunning c v).total = s.total := by cases c <;> rfl
@[simp] theorem State.setRunning_idx (c : Chan) (v : Sample) (s : State) : (s.setRunning c v).idx = s.idx := by cases c <;> rfl
@[simp] theorem State.setRunning_srcPos (c : Chan) (v : Sample) (s : State) : (s.setRunning c v).srcPos = s.srcPos := by cases c <;> rfl
@[simp] theorem State.setRunning_snkPos (c : Chan) (v : Sample) (s : State) : (s.setRunning c v).snkPos = s.snkPos := by cases c <;> rfl
@[simp] theorem State.setRunning_phase (c : Chan) (v : Sample) (s : State) : (s.setRunning c v).phase = s.phase := by cases c <;> rfl
@[simp] theorem State.setRunning_outBuf (c : Chan) (v : Sample) (s : State) : (s.setRunning c v).outBuf = s.outBuf := by cases c <;> rfl
@[simp] theorem State.setRunning_src (c : Chan) (v : Sample) (s : State) : (s.setRunning c v).src = s.src := by cases c <;> rfl
@[simp] theorem State.setRunning_sink (c : Chan) (v : Sample) (s : State) : (s.setRunning c v).sink = s.sink := by cases c <;> rfl
@[simp] theorem State.setRunning_host (c : Chan) (v : Sample) (s : State) : (s.setRunning c v).host = s.host := by cases c <;> rfl
@[simp] theorem State.setRunning_busData (c : Chan) (v : Sample) (s : State) : (s.setRunning c v).busData = s.busData := by cases c <;> rfl
@[simp] theorem State.setRunning_freeCtr (c : Chan) (v : Sample) (s : State) : (s.setRunning c v).freeCtr = s.freeCtr := by cases c <;> rfl
@[simp] theorem State.setRunning_params (c : Chan) (v : Sample) (s : State) : (s.setRunning c v).params = s.params := by cases c <;> rfl

/-! ### applyDiff -/

@[simp] theorem applyDiff_sess (neg : Bool) (mag : BitVec 7) (shift : Nat) (s : State) : (applyDiff neg mag shift s).sess = s.sess := by simp [applyDiff]
@[simp] theorem applyDiff_result (neg : Bool) (mag : BitVec 7) (shift : Nat) (s : State) : (applyDiff neg mag shift s).result = s.result := by simp [applyDiff]
@[simp] theorem applyDiff_mode (neg : Bool) (mag : BitVec 7) (shift : Nat) (s : State) : (applyDiff neg mag shift s).mode = s.mode := by simp [applyDiff]
@[simp] theorem applyDiff_errCode (neg : Bool) (mag : BitVec 7) (shift : Nat) (s : State) : (applyDiff neg mag shift s).errCode = s.errCode := by simp [applyDiff]
@[simp] theorem applyDiff_curBlock (neg : Bool) (mag : BitVec 7) (shift : Nat) (s : State) : (applyDiff neg mag shift s).curBlock = s.curBlock := by simp [applyDiff]
@[simp] theorem applyDiff_lastLen (neg : Bool) (mag : BitVec 7) (shift : Nat) (s : State) : (applyDiff neg mag shift s).lastLen = s.lastLen := by simp [applyDiff]
@[simp] theorem applyDiff_errBlock (neg : Bool) (mag : BitVec 7) (shift : Nat) (s : State) : (applyDiff neg mag shift s).errBlock = s.errBlock := by simp [applyDiff]
@[simp] theorem applyDiff_hdr (neg : Bool) (mag : BitVec 7) (shift : Nat) (s : State) : (applyDiff neg mag shift s).hdr = s.hdr := by simp [applyDiff]
@[simp] theorem applyDiff_off (neg : Bool) (mag : BitVec 7) (shift : Nat) (s : State) : (applyDiff neg mag shift s).off = s.off := by simp [applyDiff]
@[simp] theorem applyDiff_scratch (neg : Bool) (mag : BitVec 7) (shift : Nat) (s : State) : (applyDiff neg mag shift s).scratch = s.scratch := by simp [applyDiff]
@[simp] theorem applyDiff_scrLen (neg : Bool) (mag : BitVec 7) (shift : Nat) (s : State) : (applyDiff neg mag shift s).scrLen = s.scrLen := by simp [applyDiff]
@[simp] theorem applyDiff_flip (neg : Bool) (mag : BitVec 7) (shift : Nat) (s : State) : (applyDiff neg mag shift s).flip = s.flip := by simp [applyDiff]
@[simp] theorem applyDiff_runlength (neg : Bool) (mag : BitVec 7) (shift : Nat) (s : State) : (applyDiff neg mag shift s).runlength = s.runlength := by simp [applyDiff]
@[simp] theorem applyDiff_brBase (neg : Bool) (mag : BitVec 7) (shift : Nat) (s : State) : (applyDiff neg mag shift s).brBase = s.brBase := by simp [applyDiff]
@[simp] theorem applyDiff_brLen (neg : Bool) (mag : BitVec 7) (shift : Nat) (s : State) : (applyDiff neg mag shift s).brLen = s.brLen := by simp [applyDiff]
@[simp] theorem applyDiff_brPos (neg : Bool) (mag : BitVec 7) (shift : Nat) (s : State) : (applyDiff neg mag shift s).brPos = s.brPos := by simp [applyDiff]
@[simp] theorem applyDiff_total (neg : Bool) (mag : BitVec 7) (shift : Nat) (s : State) : (applyDiff neg mag shift s).total = s.total := by simp [applyDiff]
@[simp] theorem applyDiff_idx (neg : Bool) (mag : BitVec 7) (shift : Nat) (s : State) : (applyDiff neg mag shift s).idx = s.idx := by simp [applyDiff]
@[simp] theorem applyDiff_srcPos (neg : Bool) (mag : BitVec 7) (shift : Nat) (s : State) : (applyDiff neg mag shift s).srcPos = s.srcPos := by simp [applyDiff]
@[simp] theorem applyDiff_snkPos (neg : Bool) (mag : BitVec 7) (shift : Nat) (s : State) : (applyDiff neg mag shift s).snkPos = s.snkPos := by simp [applyDiff]
@[simp] theorem applyDiff_phase (neg : Bool) (mag : BitVec 7) (shift : Nat) (s : State) : (applyDiff neg mag shift s).phase = s.phase := by simp [applyDiff]
@[simp] theorem applyDiff_outBuf (neg : Bool) (mag : BitVec 7) (shift : Nat) (s : State) : (applyDiff neg mag shift s).outBuf = s.outBuf := by simp [applyDiff]
@[simp] theorem applyDiff_src (neg : Bool) (mag : BitVec 7) (shift : Nat) (s : State) : (applyDiff neg mag shift s).src = s.src := by simp [applyDiff]
@[simp] theorem applyDiff_sink (neg : Bool) (mag : BitVec 7) (shift : Nat) (s : State) : (applyDiff neg mag shift s).sink = s.sink := by simp [applyDiff]
@[simp] theorem applyDiff_host (neg : Bool) (mag : BitVec 7) (shift : Nat) (s : State) : (applyDiff neg mag shift s).host = s.host := by simp [applyDiff]
@[simp] theorem applyDiff_busData (neg : Bool) (mag : BitVec 7) (shift : Nat) (s : State) : (applyDiff neg mag shift s).busData = s.busData := by simp [applyDiff]
@[simp] theorem applyDiff_freeCtr (neg : Bool) (mag : BitVec 7) (shift : Nat) (s : State) : (applyDiff neg mag shift s).freeCtr = s.freeCtr := by simp [applyDiff]
@[simp] theorem applyDiff_params (neg : Bool) (mag : BitVec 7) (shift : Nat) (s : State) : (applyDiff neg mag shift s).params = s.params := by simp [applyDiff]

/-! ### Views that read only the header -/


theorem State.w_congr {s t : State} (h : t.hdr = s.hdr) : t.w = s.w := by
  simp [State.w, h]

theorem State.narrow_congr {s t : State} (h : t.hdr = s.hdr) : t.narrow = s.narrow := by
  simp [State.narrow, h]

theorem State.stereo_congr {s t : State} (h : t.hdr = s.hdr) : t.stereo = s.stereo := by
  simp [State.stereo, h]

theorem State.chans_congr {s t : State} (h : t.hdr = s.hdr) : t.chans = s.chans := by
  simp [State.chans, State.stereo, h]

theorem State.seedBytes_congr {s t : State} (h : t.hdr = s.hdr) : t.seedBytes = s.seedBytes := by
  simp [State.seedBytes, State.chans, State.stereo, State.w, h]

theorem State.rleOn_congr {s t : State} (h : t.hdr = s.hdr) : t.rleOn = s.rleOn := by
  simp [State.rleOn, h]

theorem State.level_congr {s t : State} (h : t.hdr = s.hdr) : t.level = s.level := by
  simp [State.level, h]

theorem State.modulus_congr {s t : State} (h : t.hdr = s.hdr) : t.modulus = s.modulus := by
  simp [State.modulus, h]

theorem State.codeCtx_congr {s t : State} (h : t.hdr = s.hdr) : t.codeCtx = s.codeCtx := by
  simp [State.codeCtx, State.rleOn, State.level, State.stereo, h]

theorem State.scratchByte_congr {s t : State} (h : t.scratch = s.scratch) : t.scratchByte = s.scratchByte := by
  funext a; simp [State.scratchByte, h]

theorem State.offEntry_congr {s t : State} (h : t.off = s.off) : t.offEntry = s.offEntry := by
  funext k; simp [State.offEntry, h]

/-! ### Reading an accumulator after a write -/

@[simp] theorem State.running_setRunning_same (c : Chan) (v : Sample) (s : State) : (s.setRunning c v).running c = v := by
  cases c <;> rfl

@[simp] theorem State.running_setRunning_other (c : Chan) (v : Sample) (s : State) :
    (s.setRunning c v).running (!c) = s.running (!c) := by
  cases c <;> rfl

@[simp] theorem running_applyDiff_same (neg : Bool) (mag : BitVec 7) (shift : Nat) (s : State) :
    (applyDiff neg mag shift s).running s.flip
      = wrapSample s.narrow ((s.running s.flip).toInt + differential neg mag shift) := by
  simp [applyDiff]

@[simp] theorem running_applyDiff_other (neg : Bool) (mag : BitVec 7) (shift : Nat) (s : State) :
    (applyDiff neg mag shift s).running (!s.flip) = s.running (!s.flip) := by
  simp [applyDiff]

end Sys2Proof.Machine
end

