-- ==== Sys2Proof/Laws/Ops.lean ====
section
/-! SUPPORT. For each shared operation of the machine, one lemma that says everything it can do: RAM reads and loads,
the ports, emission, sequencing, the end of a block, the fetch, and a step. Later proofs cite these and do not unfold
the operations. -/

namespace Sys2Proof.Machine

/-! ### RAMs -/

/-- A loaded RAM holds exactly the list, from its base on. -/
theorem ramRead_ramLoad {α : Type} (l : List α) (base i : Nat) :
    ramRead (ramLoad base l) i = if base ≤ i then l[i - base]? else none := by
  induction l generalizing base with
  | nil => simp [ramLoad, ramRead]
  | cons v rest ih =>
    simp only [ramLoad, ramRead, ih]
    split
    · subst_vars; simp
    · split
      · rw [if_pos (by omega), show i - base = (i - (base + 1)) + 1 by omega, List.getElem?_cons_succ]
      · rw [if_neg (by omega)]

theorem ramLoad_keys {α : Type} (l : List α) (base : Nat) : ∀ k ∈ (ramLoad base l).map Prod.fst, base ≤ k := by
  induction l generalizing base with
  | nil => simp [ramLoad]
  | cons v rest ih =>
    intro k hk
    simp only [ramLoad, List.map_cons, List.mem_cons] at hk
    rcases hk with rfl | hk
    · exact Nat.le_refl _
    · exact Nat.le_of_succ_le (ih (base + 1) k hk)

/-- A load gives the canonical form. -/
theorem ramLoad_wf {α : Type} (l : List α) (base : Nat) : Memory.wf (ramLoad base l) := by
  induction l generalizing base with
  | nil => simp [Memory.wf, ramLoad]
  | cons v rest ih =>
    simp only [Memory.wf, ramLoad, List.map_cons, List.pairwise_cons]
    exact ⟨fun k hk => ramLoad_keys rest (base + 1) k hk, ih (base + 1)⟩

theorem ramLoad_length {α : Type} (l : List α) (base : Nat) : (ramLoad base l).length = l.length := by
  induction l generalizing base with
  | nil => rfl
  | cons v rest ih => simp [ramLoad, ih]

/-! ### The ports -/

/-- Everything a `SrcRead` can answer (R233, R923). -/
theorem srcRead_cases (n : Nat) (s : State) :
    (srcRead n s = (.never, [], s) ∧ s.src.answers.headD .ok = .never)
    ∨ (∃ k, srcRead n s = (.ioerr, s.src.rest.take k, { s.consume (s.src.rest.take k) with freeCtr := s.freeCtr + 1 })
        ∧ k ≤ n ∧ s.src.answers.headD .ok = .ioerr)
    ∨ (srcRead n s = (.ok, s.src.rest.take n, s.consume (s.src.rest.take n)) ∧ n ≤ s.src.rest.length
        ∧ s.src.answers.headD .ok = .ok)
    ∨ (srcRead n s = (.eof, s.src.rest, s.consume s.src.rest) ∧ s.src.rest.length < n
        ∧ s.src.answers.headD .ok = .ok) := by
  unfold srcRead
  split
  · exact .inl ⟨rfl, ‹_›⟩
  · exact .inr (.inl ⟨_, rfl, Nat.min_le_right _ _, ‹_›⟩)
  · by_cases h : n ≤ s.src.rest.length
    · exact .inr (.inr (.inl ⟨by simp [h], h, ‹_›⟩))
    · refine .inr (.inr (.inr ⟨?_, by omega, ‹_›⟩))
      simp [h, List.take_of_length_le (show s.src.rest.length ≤ n by omega)]

/-- Everything a `SnkWrite` can answer (R234, R923). -/
theorem snkWrite_cases (bytes : List Byte) (s : State) :
    (snkWrite bytes s = (.never, s) ∧ s.sink.answers.headD .ok = .never)
    ∨ (∃ k, snkWrite bytes s = (.ioerr, { s with
          sink := ⟨s.sink.bytes ++ bytes.take k, s.sink.answers.tail⟩, freeCtr := s.freeCtr + 1 })
        ∧ s.sink.answers.headD .ok = .ioerr)
    ∨ (snkWrite bytes s = (.ok, s.accept bytes) ∧ s.sink.answers.headD .ok = .ok) := by
  unfold snkWrite
  split
  · exact .inl ⟨rfl, ‹_›⟩
  · exact .inr (.inl ⟨_, rfl, ‹_›⟩)
  · exact .inr (.inr ⟨rfl, ‹_›⟩)

/-! ### Emission -/

/-- Everything an emission can do (R640, R642): the sample waits, is written, raises SinkWriteError, or is never
answered. -/
theorem emit_cases (s : State) :
    (s.params.partialOut = .wholeBlocks
      ∧ emit s = .next ({ s with outBuf := s.outBuf ++ s.emitted }).advanceSample)
    ∨ (s.params.partialOut = .keepWritten
      ∧ ((s.sink.answers.headD .ok = .never ∧ emit s = .fault .sinkNeverAnswers)
        ∨ (∃ k, s.sink.answers.headD .ok = .ioerr ∧ emit s = .next (raiseError .sinkWriteError { s with
            sink := ⟨s.sink.bytes ++ s.emitted.take k, s.sink.answers.tail⟩, freeCtr := s.freeCtr + 1 }))
        ∨ (s.sink.answers.headD .ok = .ok ∧ emit s = .next (s.accept s.emitted).advanceSample))) := by
  unfold emit
  cases hp : s.params.partialOut
  · refine .inr ⟨rfl, ?_⟩
    rcases snkWrite_cases s.emitted s with ⟨h, ha⟩ | ⟨k, h, ha⟩ | ⟨h, ha⟩
    · exact .inl ⟨ha, by rw [h]⟩
    · exact .inr (.inl ⟨k, ha, by rw [h]⟩)
    · exact .inr (.inr ⟨ha, by rw [h]⟩)
  · exact .inl ⟨rfl, rfl⟩

/-! ### Sequencing -/

/-- Going on after an operation that answers a next state. -/
theorem thenBlock_next (t : State) (f : State → Step) :
    thenBlock (.next t) f = if t.phase = .idle then .next t else f t := rfl

/-- If going on answers a next state, the operation took an error or its continuation answered. -/
theorem thenBlock_inv {o : Step} {f : State → Step} {u : State} (h : thenBlock o f = .next u) :
    ∃ t, o = .next t ∧ ((t.phase = .idle ∧ u = t) ∨ (t.phase ≠ .idle ∧ f t = .next u)) := by
  cases o with
  | next t =>
    rw [thenBlock_next] at h
    split at h
    · cases h; exact ⟨_, rfl, .inl ⟨‹_›, rfl⟩⟩
    · exact ⟨t, rfl, .inr ⟨‹_›, h⟩⟩
  | fault r => cases h
  | refused r => cases h

/-- Everything the end of a block can do (R642, R508). -/
theorem finishBlock_cases (s : State) :
    (¬ (s.params.partialOut = .wholeBlocks ∧ 0 < s.total) ∧ finishBlock s = .next s.endBlock)
    ∨ (s.params.partialOut = .wholeBlocks ∧ 0 < s.total
      ∧ ((s.sink.answers.headD .ok = .never ∧ finishBlock s = .fault .sinkNeverAnswers)
        ∨ (∃ k, s.sink.answers.headD .ok = .ioerr ∧ finishBlock s = .next (raiseError .sinkWriteError { s with
            sink := ⟨s.sink.bytes ++ s.outBuf.take k, s.sink.answers.tail⟩, freeCtr := s.freeCtr + 1 }))
        ∨ (s.sink.answers.headD .ok = .ok ∧ finishBlock s = .next (s.accept s.outBuf).endBlock))) := by
  unfold finishBlock
  split
  · rename_i hp
    refine .inr ⟨hp.1, hp.2, ?_⟩
    rcases snkWrite_cases s.outBuf s with ⟨h, ha⟩ | ⟨k, h, ha⟩ | ⟨h, ha⟩
    · exact .inl ⟨ha, by rw [h]⟩
    · exact .inr (.inl ⟨k, ha, by rw [h]⟩)
    · exact .inr (.inr ⟨ha, by rw [h]⟩)
  · exact .inl ⟨‹_›, rfl⟩

/-- The loop's test (R600). -/
theorem afterSample_eq (s : State) : afterSample s = if s.total ≤ s.idx then finishBlock s else .next s := rfl

/-- One iteration of a run of a block. -/
theorem runBlock_succ (ex : Instr → State → Step) (n : Nat) (s : State) (h : s.phase ≠ .idle) :
    runBlock ex (n + 1) s = match blockStep ex s with
      | .next t => runBlock ex n t
      | .fault r => .fault r
      | .refused r => .refused r := by
  exact if_neg h

/-- A run of a block that is over changes nothing. -/
theorem runBlock_idle (ex : Instr → State → Step) (n : Nat) (s : State) (h : s.phase = .idle) :
    runBlock ex n s = .next s := by
  cases n with
  | zero => rfl
  | succ n => rw [runBlock, if_pos h]

/-- Inside a block the machine's dispatch and the block's dispatch agree: the commands are refused by both. -/
theorem exec_eq_execInBlock (s : State) (h : s.phase ≠ .idle) (i : Instr) : exec i s = execInBlock i s := by
  cases i <;> simp [exec, execInBlock, execNop, execOpen, execNext, execReset, whenReady, h]

/-- The fetch hands the code loop REPEAT, a code with BR_POS moved over it, an error, or a refused width (R606). -/
theorem fetchCode_cases (s : State) :
    (s.runlength ≠ 0 ∧ s.fetchCode = .run .repeatRun s)
    ∨ (s.runlength = 0 ∧ ((∃ i len, s.decodeNext = .code i len ∧ s.fetchCode = .run i (s.advanceBits len))
      ∨ (∃ used, s.decodeNext = .exhausted used
          ∧ s.fetchCode = .ended (raiseError .bitstreamExhausted (s.advanceBits used)))
      ∨ (s.decodeNext = .badWidth ∧ s.fetchCode = .badWidth))) := by
  unfold State.fetchCode
  by_cases h : s.runlength = 0
  · refine .inr ⟨h, ?_⟩
    simp only [h, ne_eq, not_true_eq_false, if_false]
    cases hd : s.decodeNext with
    | code i len => exact .inl ⟨i, len, rfl, rfl⟩
    | exhausted used => exact .inr (.inl ⟨used, rfl, rfl⟩)
    | badWidth => exact .inr (.inr ⟨rfl, rfl⟩)
  · exact .inl ⟨h, if_pos h⟩

/-- A step outside a block is the host's next operation, inside a block one iteration of its decode. -/
theorem step_idle {s : State} (h : s.phase = .idle) : step s = hostStep exec s := if_pos h

theorem step_busy {s : State} (h : s.phase ≠ .idle) : step s = blockStep exec s := if_neg h

/-- A run of `k + 1` steps whose first step answers a next state goes on from it. -/
theorem run_succ_of_step {s v : State} (k : Nat) (h : step s = .next v) :
    Sys2Proof.core.run (k + 1) s = Sys2Proof.core.run k v := by
  have h' : Sys2Proof.core.step s = .next v := h
  simp only [Host.Core.run, h']

/-- Inside a block a step is an iteration with the block's own dispatch. -/
theorem step_busy_inBlock {s : State} (h : s.phase ≠ .idle) : step s = blockStep execInBlock s := by
  rw [step_busy h]
  unfold blockStep
  cases hp : s.phase with
  | idle => exact absurd hp h
  | seeding c => simp only [exec_eq_execInBlock s h]
  | codes =>
    simp only
    split
    · rfl
    · rcases fetchCode_cases s with ⟨_, hf⟩ | ⟨_, ⟨i, len, _, hf⟩ | ⟨used, _, hf⟩ | ⟨_, hf⟩⟩ <;> rw [hf]
      · simp only [exec_eq_execInBlock s h]
      · simp only [exec_eq_execInBlock (s.advanceBits len) h]

end Sys2Proof.Machine
end

