-- ==== Sys2Proof/Laws/Decode.lean ====
section
/-! SUPPORT. What decoding a code can answer (Decode.lean),
    and that every code is a change of the datapath followed by
one emission (Machine/Codes.lean). -/

namespace Sys2Proof.Machine

/-- `u` is `s` but for the accumulators and `runlength`. -/
abbrev DatapathOnly (s u : State) : Prop :=
  u = { s with running0 := u.running0, running1 := u.running1, runlength := u.runlength }

/-- Writing an accumulator changes the datapath only. -/
theorem setRunning_datapathOnly (c : Chan) (v : Sample) (s : State) : DatapathOnly s (s.setRunning c v) := by
  cases c <;> rfl

/-- A code after a field read means that the field was there. -/
theorem readThen_code {r : FieldRead} {used : Nat} {k : Nat → Decoded} {i : Instr} {len : Nat}
    (h : readThen r used k = .code i len) : ∃ v, r = .value v ∧ k v = .code i len := by
  cases r with
  | value v => exact ⟨v, rfl, h⟩
  | exhausted => cases h
  | badWidth => cases h

/-- The code of a normal differential (R334). -/
theorem decodeDiff_code {lvl : Int} {rd : Nat → Nat → FieldRead} {mk : Bool → BitVec 7 → Instr} {i : Instr}
    {len : Nat}
    (h : decodeDiff lvl rd mk = .code i len) :
    ∃ d, rd 3 (diffBits lvl) = .value d ∧ i = mk (fieldNeg (diffBits lvl) d) (fieldMag (diffBits lvl) d)
        ∧ len = 3 + diffBits lvl := by
  obtain ⟨d, h1, h2⟩ := readThen_code h
  cases h2; exact ⟨d, h1, rfl, rfl⟩

/-- The code of exponent 0 (R331 to R333). -/
theorem decodeHold_code {rle : Bool} {rd : Nat → Nat → FieldRead} {i : Instr} {len : Nat}
    (h : decodeHold rle rd = .code i len) :
    (rle = false ∧ i = .skip ∧ len = 3)
    ∨ (rle = true ∧ ((rd 3 1 = .value 0 ∧ i = .run0 ∧ len = 4)
      ∨ (∃ v, rd 4 2 = .value v ∧ v ≠ 3 ∧ i = .run2 (BitVec.ofNat 2 v) ∧ len = 6)
      ∨ (∃ k, rd 6 8 = .value k ∧ rd 4 2 = .value 3 ∧ i = .run8 (BitVec.ofNat 8 k) ∧ len = 14))) := by
  unfold decodeHold at h
  split at h
  · rename_i hr
    refine .inr ⟨hr, ?_⟩
    obtain ⟨f, h1, h⟩ := readThen_code h
    split at h
    · rename_i h0; cases h; subst h0; exact .inl ⟨h1, rfl, rfl⟩
    · obtain ⟨v, h2, h⟩ := readThen_code h
      split at h
      · rename_i h3; subst h3
        obtain ⟨k, h3, h⟩ := readThen_code h
        cases h; exact .inr (.inr ⟨k, h3, h2, rfl, rfl⟩)
      · cases h; exact .inr (.inl ⟨v, h2, ‹_›, rfl, rfl⟩)
  · rename_i hr
    cases h; exact .inl ⟨by simpa using hr, rfl, rfl⟩

/-- The code of exponent 7 (R335, R336). -/
theorem decodeSeven_code {lvl : Int} {rd : Nat → Nat → FieldRead} {i : Instr} {len : Nat}
    (h : decodeSeven lvl rd = .code i len) :
    (rd 3 1 = .value 1 ∧ i = .zero ∧ len = 4)
    ∨ (∃ d, rd 4 (bigBits lvl) = .value d ∧ i = .big (fieldNeg (bigBits lvl) d) (fieldMag (bigBits lvl) d)
        ∧ len = 4 + bigBits lvl) := by
  obtain ⟨z, h1, h⟩ := readThen_code h
  split at h
  · rename_i h0; subst h0; cases h; exact .inl ⟨h1, rfl, rfl⟩
  · obtain ⟨d, h2, h⟩ := readThen_code h
    cases h; exact .inr ⟨d, h2, rfl, rfl⟩

/-- A code by its exponent (R338). -/
theorem decodeCode_code {rle : Bool} {lvl : Int} {rd : Nat → Nat → FieldRead} {i : Instr} {len : Nat}
    (h : decodeCode rle lvl rd = .code i len) :
    ∃ e, rd 0 3 = .value e ∧
      ((e = 0 ∧ decodeHold rle rd = .code i len) ∨ (e = 1 ∧ decodeDiff lvl rd .diff1 = .code i len) ∨ (e = 2
          ∧ decodeDiff lvl rd .diff2 = .code i len)
       ∨ (e = 3 ∧ decodeDiff lvl rd .diff3 = .code i len) ∨ (e = 4 ∧ decodeDiff lvl rd .diff4 = .code i len)
       ∨ (e = 5 ∧ decodeDiff lvl rd .diff5 = .code i len) ∨ (e = 6 ∧ decodeDiff lvl rd .diff6 = .code i len)
       ∨ (7 ≤ e ∧ decodeSeven lvl rd = .code i len)) := by
  obtain ⟨e, h1, h⟩ := readThen_code h
  refine ⟨e, h1, ?_⟩
  match e, h with
  | 0, h => exact .inl ⟨rfl, h⟩
  | 1, h => exact .inr (.inl ⟨rfl, h⟩)
  | 2, h => exact .inr (.inr (.inl ⟨rfl, h⟩))
  | 3, h => exact .inr (.inr (.inr (.inl ⟨rfl, h⟩)))
  | 4, h => exact .inr (.inr (.inr (.inr (.inl ⟨rfl, h⟩))))
  | 5, h => exact .inr (.inr (.inr (.inr (.inr (.inl ⟨rfl, h⟩)))))
  | 6, h => exact .inr (.inr (.inr (.inr (.inr (.inr (.inl ⟨rfl, h⟩))))))
  | n + 7, h => exact .inr (.inr (.inr (.inr (.inr (.inr (.inr ⟨by omega, h⟩))))))

/-- A decode never answers SEED, REPEAT or a command, and a RUN code only with run-length on (R331, R332, R337). -/
theorem decodeCode_kind {rle : Bool} {lvl : Int} {rd : Nat → Nat → FieldRead} {i : Instr} {len : Nat}
    (h : decodeCode rle lvl rd = .code i len) :
    i.decidesSample = true ∧ i ≠ .repeatRun ∧ (rle = false → i ≠ .run0 ∧ (∀ k, i ≠ .run2 k)
        ∧ (∀ k, i ≠ .run8 k)) := by
  obtain ⟨e, h1, h⟩ := decodeCode_code h
  rcases h with ⟨-, h⟩ | ⟨-, h⟩ | ⟨-, h⟩ | ⟨-, h⟩ | ⟨-, h⟩ | ⟨-, h⟩ | ⟨-, h⟩ | ⟨-, h⟩
  · rcases decodeHold_code h with ⟨_, rfl, _⟩ | ⟨hr, ⟨_, rfl, _⟩ | ⟨v, _, _, rfl, _⟩
      | ⟨v, _, _, rfl, _⟩⟩ <;> simp [Instr.decidesSample, *]
  iterate 6 (· obtain ⟨d, _, rfl, _⟩ := decodeDiff_code h; simp [Instr.decidesSample])
  · rcases decodeSeven_code h with ⟨_, rfl, _⟩ | ⟨d, _, rfl, _⟩ <;> simp [Instr.decidesSample]

/-- A decoded code ends inside the bits that are there. -/
theorem decodeCode_end {rle : Bool} {lvl : Int} {m : ExhaustMode} {b : Nat → Byte} {nb p : Nat} {i : Instr}
    {len : Nat}
    (h : decodeCode rle lvl (fun q n => readField m b nb (p + q) n) = .code i len) : p + len ≤ 8 * nb ∧ 3 ≤ len
        ∧ len ≤ 14 := by
  have key : ∀ q n v, readField m b nb (p + q) n = .value v → p + q + n ≤ 8 * nb ∧ n ≤ 8 := by
    intro q n v hv
    obtain ⟨_, h1, _, h3⟩ := readField_value hv
    exact ⟨exhausted_bound h1, h3⟩
  obtain ⟨e, h1, h⟩ := decodeCode_code h
  have k0 := key _ _ _ h1
  rcases h with ⟨-, h⟩ | ⟨-, h⟩ | ⟨-, h⟩ | ⟨-, h⟩ | ⟨-, h⟩ | ⟨-, h⟩ | ⟨-, h⟩ | ⟨-, h⟩
  · rcases decodeHold_code h with ⟨_, rfl, rfl⟩ | ⟨hr, ⟨hv, rfl, rfl⟩ | ⟨v, hv, _, rfl, rfl⟩ | ⟨v, hv, _, rfl, rfl⟩⟩
    · omega
    all_goals (have := key _ _ _ hv; omega)
  iterate 6 (· obtain ⟨d, hv, rfl, rfl⟩ := decodeDiff_code h; have := key _ _ _ hv; omega)
  · rcases decodeSeven_code h with ⟨hv, rfl, rfl⟩ | ⟨d, hv, rfl, rfl⟩ <;> have := key _ _ _ hv <;> omega

/-- Where every field read within 14 bits answers a value, a decode answers a code. -/
theorem decodeCode_total {rle : Bool} {lvl : Int} {rd : Nat → Nat → FieldRead} (h0 : 0 ≤ lvl) (h5 : lvl ≤ 5)
    (h : ∀ q n, 1 ≤ n → n ≤ 8 → q + n ≤ 14 → ∃ v, rd q n = .value v) :
    ∃ i len, decodeCode rle lvl rd = .code i len := by
  obtain ⟨d3, d8⟩ := diffBits_range h0 h5
  obtain ⟨b6, b8⟩ := bigBits_range h0 h5
  obtain ⟨e, he⟩ := h 0 3 (by omega) (by omega) (by omega)
  obtain ⟨f, hf⟩ := h 3 1 (by omega) (by omega) (by omega)
  obtain ⟨v, hv⟩ := h 4 2 (by omega) (by omega) (by omega)
  obtain ⟨k, hk⟩ := h 6 8 (by omega) (by omega) (by omega)
  obtain ⟨d, hd⟩ := h 3 _ (by omega) d8 (by omega)
  obtain ⟨g, hg⟩ := h 4 _ (by omega) b8 (by omega)
  unfold decodeCode decodeHold decodeDiff decodeSeven
  simp only [he, hf, hv, hk, hd, hg, readThen]
  repeat' split
  all_goals exact ⟨_, _, rfl⟩

/-- With more than 14 bits left a decode answers a code. -/
theorem decodeCode_ample {rle : Bool} {lvl : Int} {m : ExhaustMode} {b : Nat → Byte} {nb p : Nat}
    (h0 : 0 ≤ lvl) (h5 : lvl ≤ 5) (h : p + 14 < 8 * nb) :
    ∃ i len, decodeCode rle lvl (fun q n => readField m b nb (p + q) n) = .code i len := by
  apply decodeCode_total h0 h5
  intro q n h1 h8 hq
  exact ⟨_, by rw [readField_eq _ _ _ _ _ h1 h8, exhausted_inside (by omega)]; rfl⟩

/-- Every code is a change of the datapath followed by one emission (R606). -/
theorem code_is_emit (i : Instr) (hi : i.decidesSample = true) (s : State) :
    ∃ u, execInBlock i s = emit u ∧ DatapathOnly s u := by
  cases i <;> simp [Instr.decidesSample] at hi
  case zero => exact ⟨_, rfl, setRunning_datapathOnly _ _ _⟩
  case diff1 | diff2 | diff3 | diff4 | diff5 | diff6 | big => exact ⟨_, rfl, setRunning_datapathOnly _ _ _⟩
  all_goals exact ⟨_, rfl, rfl⟩

/-- An emission that answers a next state: a failed write, a sample that waits, or a sample written. -/
theorem emit_inv {s t : State} (h : emit s = .next t) :
    (∃ k, s.params.partialOut = .keepWritten ∧ s.sink.answers.headD .ok = .ioerr
        ∧ t = raiseError .sinkWriteError { s with
            sink := ⟨s.sink.bytes ++ s.emitted.take k, s.sink.answers.tail⟩, freeCtr := s.freeCtr + 1 })
    ∨ (s.params.partialOut = .wholeBlocks ∧ t = ({ s with outBuf := s.outBuf ++ s.emitted }).advanceSample)
    ∨ (s.params.partialOut = .keepWritten ∧ s.sink.answers.headD .ok = .ok
        ∧ t = (s.accept s.emitted).advanceSample) := by
  rcases emit_cases s with ⟨hp, he⟩ | ⟨hp, ⟨_, he⟩ | ⟨k, ha, he⟩ | ⟨ha, he⟩⟩ <;> rw [he] at h <;> cases h
  · exact .inr (.inl ⟨hp, rfl⟩)
  · exact .inl ⟨k, hp, ha, rfl⟩
  · exact .inr (.inr ⟨hp, ha, rfl⟩)

end Sys2Proof.Machine
end

