-- ==== Sys2Proof/Laws/Block.lean ====
section
/-! SUPPORT. Everything a block decode can do (Machine/Block.lean, Machine/Sequencer.lean): an emission,
    one iteration, a
run of iterations to the end of the block, and a whole compressed NEXT. -/

namespace Sys2Proof.Machine

/-- `s` is `u` but for what an iteration of a block decode moves: the datapath, the BitReader, `i`, the phase,
    and what
an emission writes. -/
abbrev SameButDecode (u s : State) : Prop :=
  s = { u with
    running0 := s.running0, running1 := s.running1, flip := s.flip, runlength := s.runlength
    brBase := s.brBase, brLen := s.brLen, brPos := s.brPos, idx := s.idx, snkPos := s.snkPos
    phase := s.phase, outBuf := s.outBuf, sink := s.sink, freeCtr := s.freeCtr }

theorem SameButDecode.trans {u s t : State} (h1 : SameButDecode u s)
    (h2 : SameButDecode s t) : SameButDecode u t := by
  unfold SameButDecode at *
  rw [h1] at h2
  exact h2

/-- The bytes emitted between `u` and `s`, one sample for every step of `i`: in the sink under PREFIX, in the block's
buffer under NONE (R640, R642). -/
abbrev BytesSoFar (u s : State) : Prop :=
  (s.params.partialOut = .keepWritten → ∃ pcm, s.sink.bytes = u.sink.bytes ++ pcm
      ∧ pcm.length + u.idx * u.sampleSize = s.idx * u.sampleSize
      ∧ s.snkPos = u.snkPos + pcm.length ∧ s.outBuf = u.outBuf)
  ∧ (s.params.partialOut = .wholeBlocks → s.sink = u.sink ∧ s.snkPos = u.snkPos
      ∧ s.outBuf.length + u.idx * u.sampleSize = u.outBuf.length + s.idx * u.sampleSize)

theorem SameButDecode.hdr {u s : State} (h : SameButDecode u s) : s.hdr = u.hdr := by rw [h]
theorem SameButDecode.params {u s : State} (h : SameButDecode u s) : s.params = u.params := by rw [h]
theorem SameButDecode.total {u s : State} (h : SameButDecode u s) : s.total = u.total := by rw [h]

theorem bytesSoFar_refl (s : State) : BytesSoFar s s := ⟨fun _ => ⟨[], by simp⟩, fun _ => ⟨rfl, rfl, rfl⟩⟩

theorem bytesSoFar_trans {u s t : State} (hu : SameButDecode u s) (hs : SameButDecode s t) (h1 : BytesSoFar u s)
    (h2 : BytesSoFar s t) : BytesSoFar u t := by
  have e : s.sampleSize = u.sampleSize := by simp [State.sampleSize, State.narrow, hu.hdr]
  have p : t.params = s.params := hs.params
  refine ⟨?_, ?_⟩ <;> intro hp
  · obtain ⟨a, a1, a2, a3, a4⟩ := h1.1 (by rw [← p]; exact hp)
    obtain ⟨b, b1, b2, b3, b4⟩ := h2.1 hp
    rw [e] at b2
    refine ⟨a ++ b, by rw [b1, a1, List.append_assoc], ?_, ?_, by rw [b4, a4]⟩ <;> rw [List.length_append] <;> omega
  · obtain ⟨a1, a2, a3⟩ := h1.2 (by rw [← p]; exact hp)
    obtain ⟨b1, b2, b3⟩ := h2.2 hp
    rw [e] at b3
    refine ⟨by rw [b1, a1], by rw [b2, a2], by omega⟩

/-- A sample has one byte or two (R341). -/
theorem emitted_length (s : State) : s.emitted.length = s.sampleSize := by
  unfold State.emitted sampleBytes State.sampleSize; split <;> rfl

/-- datapath changes -/
theorem DatapathOnly.loop {s u : State} (h : DatapathOnly s u) : SameButDecode s u := by
  unfold SameButDecode; rw [h]
theorem DatapathOnly.acc {s u : State} (h : DatapathOnly s u) : BytesSoFar s u := by
  rw [h]; exact ⟨fun _ => ⟨[], by simp⟩, fun _ => ⟨rfl, rfl, rfl⟩⟩

/-- An emission that answers a next state either raised SinkWriteError or emitted one sample. -/
theorem emit_raises_or_emits {s t : State} (h : emit s = .next t) :
    (∃ v, SameButDecode s v ∧ t = raiseError .sinkWriteError v ∧ s.sink.bytes <+: v.sink.bytes
        ∧ s.params.partialOut = .keepWritten
        ∧ s.sink.answers.headD .ok = .ioerr)
    ∨ (SameButDecode s t ∧ BytesSoFar s t ∧ t.idx = s.idx + 1 ∧ t.phase = s.phase ∧ t.running0 = s.running0
        ∧ t.running1 = s.running1
        ∧ t.runlength = s.runlength ∧ t.flip = (if s.stereo then !s.flip else s.flip) ∧ t.brPos = s.brPos
            ∧ t.brLen = s.brLen
        ∧ t.brBase = s.brBase) := by
  rcases emit_inv h with ⟨k, hp, ha, rfl⟩ | ⟨hp, rfl⟩ | ⟨hp, ha, rfl⟩
  · exact .inl ⟨_, rfl, rfl, by simp, hp, ha⟩
  · refine .inr ⟨rfl, ⟨?_, ?_⟩, rfl, rfl, rfl, rfl, rfl, rfl, rfl, rfl, rfl⟩
    · intro h'; rw [show ({ s with outBuf := s.outBuf ++ s.emitted } : State).advanceSample.params = s.params
        from rfl, hp] at h'; cases h'
    · intro _; refine ⟨rfl, rfl, ?_⟩
      show (s.outBuf ++ s.emitted).length + s.idx * s.sampleSize = s.outBuf.length + (s.idx + 1) * s.sampleSize
      rw [List.length_append, emitted_length, Nat.succ_mul]; omega
  · refine .inr ⟨rfl, ⟨?_, ?_⟩, rfl, rfl, rfl, rfl, rfl, rfl, rfl, rfl, rfl⟩
    · intro _; refine ⟨s.emitted, rfl, ?_, rfl, rfl⟩
      show s.emitted.length + s.idx * s.sampleSize = (s.idx + 1) * s.sampleSize
      rw [emitted_length, Nat.succ_mul]; omega
    · intro h'; rw [show (s.accept s.emitted).advanceSample.params = s.params from rfl, hp] at h'; cases h'

/-- The bytes in the sink once a block that started at `u` is over at `v`. -/
abbrev BytesInAll (u v : State) : Prop :=
  ∃ pcm, v.sink.bytes = u.sink.bytes ++ pcm ∧ v.snkPos = u.snkPos + pcm.length
    ∧ pcm.length + u.idx * u.sampleSize = (if u.params.partialOut = .wholeBlocks then u.outBuf.length else 0) +
        v.idx * u.sampleSize

/-- How a block decode that started at `u` ends: in an error, or with every sample emitted. -/
abbrev BlockEnded (u t : State) : Prop :=
  ∃ v, SameButDecode u v ∧ u.sink.bytes <+: v.sink.bytes ∧
    ((∃ e, (e = .bitstreamExhausted ∨ e = .sinkWriteError) ∧ t = raiseError e v)
    ∨ (t = v.endBlock ∧ v.idx = v.total ∧ BytesInAll u v))

/-- What has been emitted only extends the sink. -/
theorem sink_extends_of_bytesSoFar {u s : State} (h : BytesSoFar u s) : u.sink.bytes <+: s.sink.bytes := by
  cases hp : s.params.partialOut
  · obtain ⟨a, a1, _⟩ := h.1 hp; rw [a1]; exact List.prefix_append _ _
  · rw [(h.2 hp).1]

/-- The end of a block in which every sample has been emitted. -/
theorem finishBlock_ended {u s t : State} (h1 : SameButDecode u s) (h2 : BytesSoFar u s) (h3 : s.idx = s.total)
    (h5 : 0 < u.total)
    (h : finishBlock s = .next t) : BlockEnded u t := by
  have hp := h1.params
  rcases finishBlock_cases s with ⟨hc, he⟩ | ⟨hc, _, ⟨_, he⟩ | ⟨k, _, he⟩ | ⟨_, he⟩⟩ <;> rw [he] at h <;> cases h
  · have hk : s.params.partialOut = .keepWritten := by
      cases hh : s.params.partialOut; rfl
      exact absurd ⟨hh, by rw [h1.total]; exact h5⟩ hc
    obtain ⟨a, a1, a2, a3, a4⟩ := h2.1 hk
    refine ⟨s, h1, sink_extends_of_bytesSoFar h2, .inr ⟨rfl, h3, a, a1, a3, ?_⟩⟩
    rw [hp] at hk; rw [if_neg (by rw [hk]; simp)]; omega
  · refine ⟨{ s with sink := ⟨s.sink.bytes ++ s.outBuf.take k, s.sink.answers.tail⟩, freeCtr := s.freeCtr + 1 },
      SameButDecode.trans h1 rfl,
      (sink_extends_of_bytesSoFar h2).trans (List.prefix_append _ _), .inl ⟨_, .inr rfl, rfl⟩⟩
  · obtain ⟨a1, a2, a3⟩ := h2.2 hc
    refine ⟨s.accept s.outBuf, SameButDecode.trans h1 rfl,
        (sink_extends_of_bytesSoFar h2).trans (List.prefix_append _ _), .inr ⟨rfl, h3, s.outBuf, ?_, ?_, ?_⟩⟩
    · simp [a1]
    · simp [a2]
    · rw [hp] at hc; rw [if_pos hc]; exact a3

/-- `s` is in the middle of the block decode that started at `u`. -/
abbrev InBlock (u s : State) : Prop := SameButDecode u s ∧ BytesSoFar u s ∧ s.idx < s.total ∧ u.idx ≤ s.idx
    ∧ s.phase ≠ .idle

/-- A bound on the iterations a block decode still needs. -/
def iterationsLeft (s : State) : Nat :=
  match s.phase with
  | .idle => 0
  | .seeding false => s.total - s.idx + 2
  | .seeding true => s.total - s.idx + 1
  | .codes => s.total - s.idx

/-- After a sample the block is over, or nothing has happened. -/
theorem afterSample_ended_or_stays {u s t : State} (h1 : SameButDecode u s) (h2 : BytesSoFar u s)
    (h3 : s.idx ≤ s.total) (h5 : u.idx ≤ s.idx) (h4 : s.phase = .codes) (hu : 0 < u.total)
    (h : afterSample s = .next t) : BlockEnded u t ∨ (InBlock u t ∧ t = s) := by
  rw [afterSample_eq] at h
  split at h
  · exact .inl (finishBlock_ended h1 h2 (by omega) hu h)
  · cases h; exact .inr ⟨⟨h1, h2, by omega, h5, by simp [h4]⟩, rfl⟩

theorem raiseError_phase_eq (e : ErrCode) (v : State) : (raiseError e v).phase = .idle := rfl

/-- What follows the last seed (R600, R605, R701): the emission of the seeds, or nothing, at the start of the
bitstream. -/
theorem startCodes_eq (s : State) : startCodes s = match s.params.seedMode with
    | .seedEmit => thenBlock (emitSeeds s.chans s.atBitstream) afterSample
    | .codeEvery => afterSample s.atBitstream := by
  have h : ({ s.bitReaderInit with phase := .codes } : State) = s.atBitstream := by
    simp [State.bitReaderInit, State.seedBytes, State.chans, State.stereo, State.w]
  show (match s.params.seedMode with
    | .seedEmit => thenBlock (emitSeeds s.chans ({ s.bitReaderInit with phase := .codes } : State)) afterSample
    | .codeEvery => afterSample ({ s.bitReaderInit with phase := .codes } : State)) = _
  rw [h]

/-- The direct emission of the seeds ends the block with an error, or has emitted some of them. -/
theorem emitSeeds_ended_or_emitted {u : State} : ∀ (n : Nat) (s t : State), SameButDecode u s → BytesSoFar u s →
    s.idx ≤ s.total → u.idx ≤ s.idx → s.phase = .codes →
    emitSeeds n s = .next t → (t.phase = .idle ∧ BlockEnded u t) ∨ (SameButDecode u t ∧ BytesSoFar u t
        ∧ t.idx ≤ t.total ∧ s.idx ≤ t.idx ∧ t.phase = .codes
      ∧ t.brPos = s.brPos ∧ t.brLen = s.brLen ∧ t.brBase = s.brBase ∧ t.runlength = s.runlength
          ∧ (s.stereo = false → t.flip = s.flip)
      ∧ t.running0 = s.running0 ∧ t.running1 = s.running1) := by
  intro n
  induction n with
  | zero => intro s t h1 h2 h3 h5 h4 h; cases h; exact .inr ⟨h1, h2, h3, Nat.le_refl _, h4, rfl, rfl, rfl, rfl,
      fun _ => rfl, rfl, rfl⟩
  | succ n ih =>
    intro s t h1 h2 h3 h5 h4 h
    unfold emitSeeds at h
    split at h
    · cases h; exact .inr ⟨h1, h2, h3, Nat.le_refl _, h4, rfl, rfl, rfl, rfl, fun _ => rfl, rfl, rfl⟩
    · rename_i hlt
      obtain ⟨v, he, hv⟩ := thenBlock_inv h
      rcases emit_raises_or_emits he with ⟨w, w1, rfl, w3, _⟩ | ⟨a1, a2, a3, a4, a5, a6, a7, a8, a9, a10, a11⟩
      · rcases hv with ⟨_, rfl⟩ | ⟨hh, _⟩
        · exact .inl ⟨rfl, w, SameButDecode.trans h1 w1, (sink_extends_of_bytesSoFar h2).trans w3, .inl ⟨_,
            .inr rfl, rfl⟩⟩
        · exact absurd rfl hh
      · have hvp : v.phase = .codes := by rw [a4, h4]
        rcases hv with ⟨hh, _⟩ | ⟨_, hv⟩
        · rw [hvp] at hh; cases hh
        · have ht := a1.total
          rcases ih v t (SameButDecode.trans h1 a1) (bytesSoFar_trans h1 a1 h2 a2)
              (by omega) (by omega) hvp hv with hx | ⟨b1, b2, b3, b4, b5, b6, b7, b8, b9, b10, b11, b12⟩
          · exact .inl hx
          · have hst : v.stereo = s.stereo := by simp [State.stereo, a1.hdr]
            refine .inr ⟨b1, b2, b3,
                by omega, b5, by rw [b6, a9],
                by rw [b7, a10], by rw [b8, a11], by rw [b9, a7], ?_, by rw [b11, a5], by rw [b12, a6]⟩
            intro hs
            rw [b10 (by rw [hst]; exact hs), a8, hs]; simp

/-- One iteration ends the block, or stays inside it with fewer iterations left. -/
theorem blockStep_ended_or_decreases {u s t : State} (hu : 0 < u.total) (hi : InBlock u s)
    (h : blockStep execInBlock s = .next t) :
    BlockEnded u t ∨ (InBlock u t ∧ iterationsLeft t < iterationsLeft s) := by
  obtain ⟨h1, h2, h3, h5, h4⟩ := hi
  unfold blockStep at h
  cases hp : s.phase with
  | idle => exact absurd hp h4
  | seeding c =>
    rw [hp] at h
    simp only at h
    obtain ⟨v, he, hv⟩ := thenBlock_inv h
    simp only [execInBlock, execSeed] at he
    split at he
    · cases he
      rcases hv with ⟨_, rfl⟩ | ⟨hh, _⟩
      · exact .inl ⟨s, h1, sink_extends_of_bytesSoFar h2, .inl ⟨_, .inl rfl, rfl⟩⟩
      · exact absurd rfl hh
    · cases he
      have d := setRunning_datapathOnly c (s.seedValue c) s
      have e1 := SameButDecode.trans h1 d.loop
      have e2 := bytesSoFar_trans h1 d.loop h2 d.acc
      generalize hv' : s.setRunning c (s.seedValue c) = v at *
      have vi : v.idx = s.idx := by rw [d]
      have vt : v.total = s.total := by rw [d]
      have vp : v.phase = s.phase := by rw [d]
      rcases hv with ⟨hh, _⟩ | ⟨_, hv⟩
      · rw [vp, hp] at hh; cases hh
      unfold afterSeed at hv
      split at hv
      · rename_i hc
        cases hv
        refine .inr ⟨⟨SameButDecode.trans e1 rfl, e2, by simpa [vi, vt], by simpa [vi] using h5, by simp⟩, ?_⟩
        simp [iterationsLeft, hp, hc.1, vi, vt]
      · simp only [startCodes] at hv
        generalize hw : ({ v.bitReaderInit with phase := .codes } : State) = w at hv
        have f1 : SameButDecode u w := by rw [← hw]; exact SameButDecode.trans e1 rfl
        have f2 : BytesSoFar u w := by rw [← hw]; exact e2
        have wi : w.idx = s.idx := by rw [← hw, ← vi]; rfl
        have wt : w.total = s.total := by rw [← hw, ← vt]; rfl
        have wp : w.phase = .codes := by rw [← hw]
        have fin : ∀ x, SameButDecode u x → BytesSoFar u x → x.idx ≤ x.total → s.idx ≤ x.idx → x.phase = .codes →
            afterSample x = .next t →
            BlockEnded u t ∨ (InBlock u t ∧ iterationsLeft t < iterationsLeft s) := by
          intro x x1 x2 x3 x5 x4 hx
          rcases afterSample_ended_or_stays x1 x2 x3 (by omega) x4 hu hx with hx | ⟨hy, rfl⟩
          · exact .inl hx
          · refine .inr ⟨hy, ?_⟩
            have := x1.total; have := h1.total
            cases c <;> simp [iterationsLeft, x4, hp] <;> omega
        split at hv
        · obtain ⟨y, hy, hz⟩ := thenBlock_inv hv
          rcases emitSeeds_ended_or_emitted _ w y f1 f2
              (by omega) (by omega) wp hy with ⟨y1, y2⟩ | ⟨y1, y2, y3, y4, y5, -⟩
          · rcases hz with ⟨_, rfl⟩ | ⟨hh, _⟩
            · exact .inl y2
            · exact absurd y1 hh
          · rcases hz with ⟨hh, _⟩ | ⟨_, hz⟩
            · rw [y5] at hh; cases hh
            · exact fin y y1 y2 y3 (by omega) y5 hz
        · exact fin w f1 f2 (by omega) (by omega) wp hv
  | codes =>
    rw [hp] at h
    simp only [show ¬ s.total ≤ s.idx by omega, if_false] at h
    have run : ∀ (i : Instr) (x : State), i.decidesSample = true → SameButDecode u x → BytesSoFar u x →
        x.idx = s.idx → x.phase = .codes →
        thenBlock (execInBlock i x) afterSample = .next t → BlockEnded u t ∨ (InBlock u t
            ∧ iterationsLeft t < iterationsLeft s) := by
      intro i x hi x1 x2 x3 x4 hx
      obtain ⟨y, hy, d⟩ := code_is_emit i hi x
      rw [hy] at hx
      have e1 := SameButDecode.trans x1 d.loop
      have e2 := bytesSoFar_trans x1 d.loop x2 d.acc
      have yi : y.idx = x.idx := by rw [d]
      have yp : y.phase = x.phase := by rw [d]
      obtain ⟨v, he, hv⟩ := thenBlock_inv hx
      rcases emit_raises_or_emits he with ⟨w, w1, rfl, w3, _⟩ | ⟨a1, a2, a3, a4, -⟩
      · rcases hv with ⟨_, rfl⟩ | ⟨hh, _⟩
        · exact .inl ⟨w, SameButDecode.trans e1 w1, (sink_extends_of_bytesSoFar e2).trans w3, .inl ⟨_, .inr rfl, rfl⟩⟩
        · exact absurd rfl hh
      · have hvp : v.phase = .codes := by rw [a4, yp, x4]
        have := x1.total; have := e1.total; have := a1.total; have := h1.total
        rcases hv with ⟨hh, _⟩ | ⟨_, hv⟩
        · rw [hvp] at hh; cases hh
        · rcases afterSample_ended_or_stays (SameButDecode.trans e1 a1) (bytesSoFar_trans e1 a1 e2 a2)
            (by omega) (by omega) hvp hu hv with hx | ⟨hx, rfl⟩
          · exact .inl hx
          · refine .inr ⟨hx, ?_⟩
            simp [iterationsLeft, hvp, hp]; omega
    rcases fetchCode_cases s with ⟨_, hf⟩ | ⟨_, ⟨i, len, hd, hf⟩ | ⟨used, hd, hf⟩
        | ⟨_, hf⟩⟩ <;> rw [hf] at h <;> simp only at h
    · exact run _ s rfl h1 h2 rfl hp h
    · exact run i (s.advanceBits len) (decodeCode_kind hd).1 (SameButDecode.trans h1 rfl) h2 rfl hp h
    · cases h
      exact .inl ⟨s.advanceBits used, SameButDecode.trans h1 rfl, sink_extends_of_bytesSoFar h2, .inl ⟨_,
          .inl rfl, rfl⟩⟩
    · cases h

/-- A block that has ended leaves no command executing. -/
theorem phase_of_blockEnded {u t : State} (h : BlockEnded u t) : t.phase = .idle := by
  obtain ⟨v, _, _, ⟨e, _, rfl⟩ | ⟨rfl, _⟩⟩ := h <;> rfl

/-- Inside a block at least one iteration is left. -/
theorem iterationsLeft_pos {s : State} (h : s.phase ≠ .idle) (h' : s.idx < s.total) : 0 < iterationsLeft s := by
  unfold iterationsLeft; split <;> first | contradiction | omega

/-- A run with enough iterations ends the block. -/
theorem runBlock_ended {u : State} (hu : 0 < u.total) : ∀ (n : Nat) (s t : State), InBlock u s →
    iterationsLeft s ≤ n → runBlock execInBlock n s = .next t → BlockEnded u t := by
  intro n
  induction n with
  | zero => intro s t hi hm _; have := iterationsLeft_pos hi.2.2.2.2 hi.2.2.1; omega
  | succ n ih =>
    intro s t hi hm h
    rw [runBlock_succ _ _ _ hi.2.2.2.2] at h
    split at h
    · rename_i v hv
      rcases blockStep_ended_or_decreases hu hi hv with hx | ⟨hx, hlt⟩
      · rw [runBlock_idle _ _ _ (phase_of_blockEnded hx)] at h
        cases h; exact hx
      · exact ih v t hx (by omega) h
    · cases h
    · cases h
/-- `v` is `s` but for what a NEXT in STREAMING moves before the register file: the scratch, the datapath,
    the BitReader,
the loop registers, the ports and the free-value counter. -/
abbrev SameButBlock (s v : State) : Prop :=
  v = { s with
    scratch := v.scratch, scrLen := v.scrLen
    running0 := v.running0, running1 := v.running1, flip := v.flip, runlength := v.runlength
    brBase := v.brBase, brLen := v.brLen, brPos := v.brPos, total := v.total, idx := v.idx, srcPos := v.srcPos,
        snkPos := v.snkPos
    phase := v.phase, outBuf := v.outBuf, src := v.src, sink := v.sink, freeCtr := v.freeCtr }

theorem SameButBlock.trans {u s t : State} (h1 : SameButBlock u s) (h2 : SameButBlock s t) : SameButBlock u t := by
  unfold SameButBlock at *
  rw [h1] at h2
  exact h2

theorem SameButDecode.keep {u s : State} (h : SameButDecode u s) : SameButBlock u s := by
  unfold SameButBlock; unfold SameButDecode at h; rw [h]

/-- Everything the start of DecodeBlock can do (R600 to R602). -/
theorem beginDecode_inv {size : Int} {s u : State} (h : beginDecode size s = .next u) :
    ∃ v, SameButBlock s v ∧ v.scratch = s.scratch ∧ v.scrLen = s.scrLen ∧ v.sink = s.sink ∧ v.snkPos = s.snkPos
        ∧ v.src = s.src ∧ v.srcPos = s.srcPos ∧ v.freeCtr = s.freeCtr ∧ v.idx = 0 ∧ v.outBuf = []
        ∧ v.runlength = 0 ∧ v.flip = false
      ∧ v.total = (size.tdiv s.w).toNat ∧ v.running0 = s.running0 ∧ v.running1 = s.running1
      ∧ ((v.total = 0 ∧ u = v.endBlock) ∨ (0 < v.total ∧ v.phase = .seeding false ∧ u = v)) := by
  unfold beginDecode at h
  simp only at h
  split at h
  · rename_i h0
    rcases finishBlock_cases
        ({ s with total := (size.tdiv s.w).toNat, idx := 0, runlength := 0, flip := false, outBuf := [] }) with
        ⟨_, hf⟩ | ⟨_, h', _⟩
    · rw [hf] at h; cases h
      exact ⟨{ s with total := (size.tdiv s.w).toNat, idx := 0, runlength := 0, flip := false, outBuf := [] },
          rfl, rfl, rfl, rfl, rfl, rfl, rfl, rfl, rfl, rfl, rfl, rfl, rfl, rfl, rfl, .inl ⟨h0, rfl⟩⟩
    · simp only at h'; omega
  · rename_i h0
    cases h
    exact ⟨{ s with total := (size.tdiv s.w).toNat, idx := 0, runlength := 0, flip := false, outBuf := [], phase := .seeding false }, rfl, rfl, rfl, rfl, rfl, rfl, rfl, rfl, rfl, rfl, rfl, rfl, rfl, rfl, rfl, .inr ⟨by simp only; omega, rfl, rfl⟩⟩

/-- The samples of block CUR_BLOCK (R511, R601). -/
abbrev State.blockSamples (s : State) : Int := if s.notLastBlock then s.hdr.blockSize.toInt else s.hdr.restSize.toInt

/-- A scratch load that answers a next state fits the RAM, and the decode has begun (R512, R210). -/
theorem loadBlock_inv {size : Int} {buf : List Byte} {s u : State} (h : loadBlock size buf s = .next u) :
    s.scratchExceeded buf.length = false ∧ beginDecode size (s.loadScratch buf) = .next u := by
  unfold loadBlock at h
  split at h
  · cases h
  · rename_i hx; exact ⟨by simpa using hx, h⟩

/-- A scratch load of a block that fits the RAM begins the decode (R512, R210). -/
theorem loadBlock_of_fits {size n : Int} {buf : List Byte} {s : State} (h : s.scratchHolds n)
    (hn : (buf.length : Int) ≤ n) : loadBlock size buf s = beginDecode size (s.loadScratch buf) := by
  have : s.scratchExceeded buf.length = false := by
    unfold State.scratchExceeded
    cases hm : s.params.maxScratch with
    | none => rfl
    | some cap => have := h cap hm; simp only [decide_eq_false_iff_not]; omega
  simp [loadBlock, this]

/-- Everything CompBlock can do before the decode (R510 to R512): an error with nothing written, or the scratch loaded and
DecodeBlock begun. -/
theorem startBlock_inv {s u : State} (h : startBlock s = .next u) :
    (∃ r e v, (e = .blockSizeOverflow ∨ e = .sourceReadError) ∧ SameButBlock s v ∧ v.scratch = s.scratch
        ∧ v.sink = s.sink ∧ v.snkPos = s.snkPos ∧ v.flip = s.flip ∧ v.runlength = s.runlength
        ∧ v.running0 = s.running0 ∧ v.running1 = s.running1 ∧ u = raiseFrom r e v)
    ∨ (∃ buf v, SameButBlock s v ∧ v.scratch = ramLoad 0 buf ∧ v.scrLen = buf.length ∧ v.sink = s.sink
        ∧ v.snkPos = s.snkPos ∧ v.running0 = s.running0 ∧ v.running1 = s.running1
        ∧ beginDecode (State.blockSamples s * s.w) v = .next u) := by
  unfold startBlock at h
  split at h
  · rename_i hn
    unfold startInnerBlock at h
    split at h
    · cases h; exact .inl ⟨_, _, s, .inl rfl, rfl, rfl, rfl, rfl, rfl, rfl, rfl, rfl, rfl⟩
    rcases srcRead_cases s.compressedLength.toNat s with ⟨hr, _⟩ | ⟨k, hr, _⟩ | ⟨hr, _⟩
        | ⟨hr, _⟩ <;> rw [hr] at h <;> simp only at h
    · cases h
    · cases h; exact .inl ⟨_, _, { s.consume (s.src.rest.take k) with freeCtr := s.freeCtr + 1 }, .inr rfl, rfl,
        rfl, rfl, rfl, rfl, rfl, rfl, rfl, rfl⟩
    · exact .inr ⟨s.src.rest.take s.compressedLength.toNat,
        (s.consume (s.src.rest.take s.compressedLength.toNat)).loadScratch (s.src.rest.take
        s.compressedLength.toNat), rfl, rfl, rfl, rfl, rfl, rfl, rfl,
        by simp only [State.blockSamples, hn, if_true]; exact (loadBlock_inv h).2⟩
    · cases h; exact .inl ⟨_, _, s.consume s.src.rest, .inr rfl, rfl, rfl, rfl, rfl, rfl, rfl, rfl, rfl, rfl⟩
  · rename_i hn
    have hn' : s.notLastBlock = false := by simpa using hn
    unfold startFinalBlock at h
    split at h
    · exact .inr ⟨[], s.loadScratch [], rfl, rfl, rfl, rfl, rfl, rfl, rfl,
        by simp only [State.blockSamples, hn', Bool.false_eq_true, if_false]; exact (loadBlock_inv h).2⟩
    rcases srcRead_cases s.readBound.toNat s with ⟨hr, _⟩ | ⟨k, hr, _⟩ | ⟨hr, _⟩
        | ⟨hr, _⟩ <;> rw [hr] at h <;> simp only at h
    · cases h
    · cases h; exact .inl ⟨_, _, { s.consume (s.src.rest.take k) with freeCtr := s.freeCtr + 1 }, .inr rfl, rfl,
        rfl, rfl, rfl, rfl, rfl, rfl, rfl, rfl⟩
    · exact .inr ⟨s.src.rest.take s.readBound.toNat,
        (s.consume (s.src.rest.take s.readBound.toNat)).loadScratch (s.src.rest.take s.readBound.toNat), rfl,
        rfl, rfl, rfl, rfl, rfl, rfl, by simp only [State.blockSamples, hn', Bool.false_eq_true, if_false]; exact (loadBlock_inv h).2⟩
    · exact .inr ⟨s.src.rest, (s.consume (s.src.rest)).loadScratch (s.src.rest), rfl, rfl, rfl, rfl, rfl, rfl,
        rfl, by simp only [State.blockSamples, hn', Bool.false_eq_true, if_false]; exact (loadBlock_inv h).2⟩

/-- The fuel of a block is enough. -/
theorem iterationsLeft_begin {v : State} (h : v.phase = .seeding false) : iterationsLeft v ≤ v.blockFuel := by
  simp [iterationsLeft, h, State.blockFuel]; omega

/-- Everything a NEXT on a compressed block can do (R510 to R514, R508). -/
theorem compressedBlock_inv {s t : State} (h : compressedBlock s = .next t) :
    ∃ v, SameButBlock s v ∧ s.sink.bytes <+: v.sink.bytes
        ∧ (v.scratch = s.scratch ∨ ∃ buf, v.scratch = ramLoad 0 buf) ∧
      ((∃ r e, e ≠ .none ∧ e ≠ .noSession ∧ t = raiseFrom r e v)
       ∨ (t = v.endBlock ∧ v.total = ((State.blockSamples s * s.w).tdiv s.w).toNat ∧
          ∃ pcm, v.sink.bytes = s.sink.bytes ++ pcm ∧ v.snkPos = s.snkPos + pcm.length
              ∧ pcm.length = v.total * s.sampleSize)) := by
  unfold compressedBlock at h
  split at h
  swap; cases h
  swap; cases h
  rename_i u hu
  rcases startBlock_inv hu with ⟨r, e, v, he, v1, v2, v3, v4, _, _, _, _, rfl⟩
      | ⟨buf, v, v1, v2, v3, v4, v5, _, _, hb⟩
  · rw [runBlock_idle _ _ _ (by rfl)] at h; cases h
    exact ⟨v, v1, by rw [v3], .inl v2, .inl ⟨r, e,
        by rcases he with rfl | rfl <;> simp, by rcases he with rfl | rfl <;> simp, rfl⟩⟩
  · obtain ⟨w, w1, w2, w3, w4, w5, w6, w7, w8, w9, w10, w11, w12, w13, w14, w15, hw⟩ := beginDecode_inv hb
    have ew : v.w = s.w := by simp only [State.w]; rw [v1]
    have k := SameButBlock.trans v1 w1
    rcases hw with ⟨h0, rfl⟩ | ⟨h0, hp, rfl⟩
    · rw [runBlock_idle _ _ _ (by rfl)] at h; cases h
      exact ⟨w, k, by rw [w4, v4], .inr ⟨buf,
          by rw [w2, v2]⟩, .inr ⟨rfl, by rw [w13, ew], [], by rw [w4, v4]; simp, by rw [w5, v5]; simp, by simp [h0]⟩⟩
    · have inv : InBlock u u := ⟨rfl, bytesSoFar_refl _, by omega, Nat.le_refl _, by simp [hp]⟩
      obtain ⟨x, x1, x2, hx⟩ := runBlock_ended h0 _ _ _ inv (iterationsLeft_begin hp) h
      have kx := SameButBlock.trans k x1.keep
      have sc : x.scratch = u.scratch := by rw [x1]
      refine ⟨x, kx, by rw [← v4, ← w4]; exact x2, .inr ⟨buf, by rw [sc, w2, v2]⟩, ?_⟩
      rcases hx with ⟨e, he, rfl⟩ | ⟨rfl, hxi, pcm, p1, p2, p3⟩
      · exact .inl ⟨_, e, by rcases he with rfl | rfl <;> simp, by rcases he with rfl | rfl <;> simp, rfl⟩
      · refine .inr ⟨rfl, by rw [x1.total, w13, ew], pcm, by rw [p1, w4, v4], by rw [p2, w5, v5], ?_⟩
        rw [w9, w10, hxi] at p3
        have es : u.sampleSize = s.sampleSize :=
            by have uh : u.hdr = s.hdr := by { rw [k] }; unfold State.sampleSize State.narrow; rw [uh]
        rw [es] at p3
        by_cases hc : u.params.partialOut = .wholeBlocks
        · rw [if_pos hc] at p3; simp only [List.length_nil] at p3; omega
        · rw [if_neg hc] at p3; omega

end Sys2Proof.Machine
end

