-- ==== Sys2Proof/Laws/Commands.lean ====
section
/-! SUPPORT. Everything the commands and a step outside a block can do (Machine/Header.lean, Machine/Sequencer.lean,
Machine/Commands.lean, Machine/HostPort.lean). -/

namespace Sys2Proof.Machine

/-- A read whose bytes are there (R233). -/
theorem srcRead_ok {s : State} {n : Nat} (ha : s.sourceAnswers) (h : n ≤ s.src.rest.length) :
    srcRead n s = (.ok, s.src.rest.take n, s.consume (s.src.rest.take n)) := by
  rcases srcRead_cases n s with ⟨_, h'⟩ | ⟨k, _, _, h'⟩ | ⟨h', _⟩ | ⟨_, h', _⟩
  · rw [ha] at h'; cases h'
  · rw [ha] at h'; cases h'
  · exact h'
  · omega

/-- A read that meets the end of the source (R233). -/
theorem srcRead_eof {s : State} {n : Nat} (ha : s.sourceAnswers) (h : s.src.rest.length < n) :
    srcRead n s = (.eof, s.src.rest, s.consume s.src.rest) := by
  rcases srcRead_cases n s with ⟨_, h'⟩ | ⟨k, _, _, h'⟩ | ⟨_, h', _⟩ | ⟨h', _⟩
  · rw [ha] at h'; cases h'
  · rw [ha] at h'; cases h'
  · omega
  · exact h'

/-- A write the sink accepts (R234). -/
theorem snkWrite_ok {s : State} (h : s.sinkAccepts)
    (bytes : List Byte) : snkWrite bytes s = (.ok, s.accept bytes) := by
  rcases snkWrite_cases bytes s with ⟨_, h'⟩ | ⟨k, _, h'⟩ | ⟨h', _⟩
  · rw [h] at h'; cases h'
  · rw [h] at h'; cases h'
  · exact h'

/-- NEXT in STREAMING (R500). -/
theorem next_streaming {s : State} {m : Mode} (h : s.readyToStream m) :
    exec .nextCmd s = (match m with | .raw => rawBlock s | .compressed => compressedBlock s) := by
  obtain ⟨h1, h2, h3⟩ := h
  simp only [exec, execNext, whenReady, h1, if_true, nextUnit, h2, h3]
  cases m <;> rfl

/-- The length of block CUR_BLOCK from its two offsets (R510). -/
theorem compressedLength_eq (s : State)
    (h : 0 ≤ s.curBlock.toInt) : s.compressedLength = s.offEntry (s.curBlock.toNat + 1) - s.offEntry
    s.curBlock.toNat := by
  have : s.curBlock.toInt.toNat = s.curBlock.toNat :=
      by rw [BitVec.toInt_eq_toNat_cond] at *; split at h <;> simp_all; omega
  simp [State.compressedLength, this]

/-- The end of OPEN raises an error of validation, or reaches NOT_STARTED (R412, R427). -/
theorem openValidate_inv {s t : State} (h : openValidate s = .next t) :
    (∃ e, e ≠ .noSession ∧ e ≠ .none ∧ t = raiseError e s) ∨ (s.violation = none ∧ t = { s with
      sess := .notStarted, curBlock := -1, result := .none, errCode := .none, errBlock := -1, lastLen := 0 }) := by
  unfold openValidate at h
  split at h
  · rename_i e he
    refine .inl ⟨e, ?_, ?_, by cases h; rfl⟩
    all_goals
      rintro rfl
      unfold State.violation at he
      split at he
      · rename_i h1; unfold Header.layoutError at h1
        repeat' (split at h1)
        all_goals simp_all
      · split at he
        · rename_i h1; unfold Header.sizeError at h1
          repeat' (split at h1)
          all_goals simp_all
        · unfold State.offsetError at he
          repeat' (split at he)
          all_goals simp_all
  · cases h; exact .inr ⟨‹_›, rfl⟩

/-- What a header that passes validation satisfies (R420 to R426). -/
theorem violation_none {s : State} (h : s.violation = none) :
   (s.hdr.channels.toInt = 1 ∨ s.hdr.channels.toInt = 2)
  ∧ (s.hdr.bits.toInt = 8 ∨ s.hdr.bits.toInt = 16)
  ∧ (-1 ≤ s.hdr.level.toInt ∧ s.hdr.level.toInt ≤ 5)
  ∧ s.hdr.dataSize.toInt = s.hdr.samples.toInt * (s.hdr.bits.toInt.tdiv 8)
  ∧ s.hdr.samples.toInt = (s.hdr.blocks.toInt - 1) * s.hdr.blockSize.toInt + s.hdr.restSize.toInt
  ∧ (s.mode = .compressed → s.offEntry (s.hdr.blocks.toInt - 1).toNat < s.hdr.compSize.toInt) := by
  unfold State.violation at h
  split at h
  · cases h
  · rename_i h1
    split at h
    · cases h
    · rename_i h2
      unfold Header.layoutError at h1
      split at h1; cases h1
      split at h1; cases h1
      unfold Header.sizeError at h2
      split at h2; cases h2
      split at h2; cases h2
      split at h2; cases h2
      rename_i a1 a2 a3 a4 a5
      refine ⟨not_not.mp a1, not_not.mp a2, not_not.mp a3, not_not.mp a4, not_not.mp a5, ?_⟩
      intro hm
      unfold State.offsetError at h
      rw [if_neg (by simp [hm])] at h
      split at h; cases h
      split at h; cases h
      rename_i a6
      exact not_not.mp a6

/-- What a raw block leaves unchanged. -/
abbrev RawFrame (s v : State) : Prop := SameButBlock s v ∧ v.scratch = s.scratch ∧ v.running0 = s.running0
    ∧ v.running1 = s.running1 ∧ v.flip = s.flip ∧ v.runlength = s.runlength ∧ v.phase = s.phase
    ∧ v.outBuf = s.outBuf ∧ s.sink.bytes <+: v.sink.bytes

/-- The write of a raw block fails or completes it (R507, R508). -/
theorem rawWrite_inv {b : List Byte} {s t : State} (h : rawWrite b s = .next t) :
    (∃ v, RawFrame s v ∧ t = raiseError .sinkWriteError v)
    ∨ (∃ v, RawFrame s v ∧ t = v.blockDone b.length) := by
  unfold rawWrite at h
  rcases snkWrite_cases b s with ⟨hr, _⟩ | ⟨k, hr, _⟩ | ⟨hr, _⟩ <;> rw [hr] at h <;> simp only at h
  · cases h
  · cases h; exact .inl
      ⟨{ s with sink := ⟨s.sink.bytes ++ b.take k, s.sink.answers.tail⟩, freeCtr := s.freeCtr + 1 }, ⟨rfl, rfl,
      rfl, rfl, rfl, rfl, rfl, rfl, List.prefix_append _ _⟩, rfl⟩
  · cases h; exact .inr ⟨s.accept b, ⟨rfl, rfl, rfl, rfl, rfl, rfl, rfl, rfl, List.prefix_append _ _⟩, rfl⟩

/-- A raw block whose read failed raises SourceReadError (R506). -/
theorem rawReadFailed_inv {r : List Byte} {b : List Byte} {s t : State} (h : rawReadFailed r b s = .next t) :
    ∃ v, RawFrame s v ∧ t = raiseFrom r .sourceReadError v := by
  unfold rawReadFailed at h
  split at h
  · cases h; exact ⟨s, ⟨rfl, rfl, rfl, rfl, rfl, rfl, rfl, rfl, List.prefix_refl _⟩, rfl⟩
  · rcases snkWrite_cases b s with ⟨hr, _⟩ | ⟨k, hr, _⟩ | ⟨hr, _⟩ <;> rw [hr] at h <;> simp only at h
    · cases h
    · cases h; exact ⟨{ s with sink := ⟨s.sink.bytes ++ b.take k, s.sink.answers.tail⟩, freeCtr := s.freeCtr + 1 }, ⟨rfl, rfl, rfl, rfl, rfl, rfl, rfl, rfl, List.prefix_append _ _⟩, rfl⟩
    · cases h; exact ⟨s.accept b, ⟨rfl, rfl, rfl, rfl, rfl, rfl, rfl, rfl, List.prefix_append _ _⟩, rfl⟩

/-- Everything a NEXT on a raw block can do (R505 to R508). -/
theorem rawBlock_inv {s t : State} (h : rawBlock s = .next t) :
    ∃ v, RawFrame s v ∧ ((∃ r e, e ≠ .none ∧ e ≠ .noSession
        ∧ t = raiseFrom r e v) ∨ ∃ n : Nat, t = v.blockDone n) := by
  unfold rawBlock at h
  have tr : ∀ {w v : State}, RawFrame s w → RawFrame w v → RawFrame s v := by
    rintro w v ⟨a, b, c, d, e, f, g, i, j⟩ ⟨a', b', c', d', e', f', g', i', j'⟩
    exact ⟨SameButBlock.trans a a', b'.trans b, c'.trans c, d'.trans d, e'.trans e, f'.trans f, g'.trans g,
        i'.trans i, j.trans j'⟩
  have wr : ∀ {b w}, RawFrame s w → rawWrite b w = .next t → ∃ v, RawFrame s v ∧ ((∃ r e, e ≠ .none
      ∧ e ≠ .noSession ∧ t = raiseFrom r e v) ∨ ∃ n : Nat, t = v.blockDone n) := by
    intro b w hw hh
    rcases rawWrite_inv hh with ⟨v, hv, rfl⟩ | ⟨v, hv, rfl⟩
    · exact ⟨v, tr hw hv, .inl ⟨_, _, by simp, by simp, rfl⟩⟩
    · exact ⟨v, tr hw hv, .inr ⟨_, rfl⟩⟩
  have fl : ∀ {r b w}, RawFrame s w → rawReadFailed r b w = .next t → ∃ v, RawFrame s v ∧ ((∃ r e, e ≠ .none
      ∧ e ≠ .noSession ∧ t = raiseFrom r e v) ∨ ∃ n : Nat, t = v.blockDone n) := by
    intro r b w hw hh
    obtain ⟨v, hv, rfl⟩ := rawReadFailed_inv hh
    exact ⟨v, tr hw hv, .inl ⟨_, _, by simp, by simp, rfl⟩⟩
  have kc : ∀ b, RawFrame s (s.consume b) := fun b => ⟨rfl, rfl, rfl, rfl, rfl, rfl, rfl, rfl, List.prefix_refl _⟩
  have kc2 : ∀ b, RawFrame s { s.consume b with freeCtr := s.freeCtr + 1 } := fun b => ⟨rfl, rfl, rfl, rfl, rfl,
      rfl, rfl, rfl, List.prefix_refl _⟩
  rcases srcRead_cases s.rawSize.toNat s with ⟨hr, _⟩ | ⟨k, hr, _⟩ | ⟨hr, _⟩
      | ⟨hr, _⟩ <;> rw [hr] at h <;> simp only at h
  · cases h
  · exact fl (kc2 _) h
  · exact wr (kc _) h
  · split at h
    · exact fl (kc _) h
    · exact wr (kc _) h

/-- A read moves the source, SRC_POS and the free-value counter only. -/
theorem srcRead_keep (n : Nat)
    (s : State) : ∃ src p c, (srcRead n s).2.2 = { s with src := src, srcPos := p, freeCtr := c } := by
  rcases srcRead_cases n s with ⟨h, _⟩ | ⟨k, h, _⟩ | ⟨h, _⟩ | ⟨h, _⟩ <;> rw [h] <;> exact ⟨_, _, _, rfl⟩

/-- What OPEN leaves unchanged after the clearing, and what it records when it ends in ERROR. -/
abbrev OpenFrame (s t : State) : Prop :=
  t.scratch = s.scratch ∧ (t.off = s.off ∨ ∃ l, t.off = ramLoad 0 l) ∧ t.sink = s.sink
      ∧ t.running0 = s.running0 ∧ t.running1 = s.running1
  ∧ t.flip = s.flip ∧ t.runlength = s.runlength ∧ (t.phase = s.phase ∨ t.phase = .idle)
      ∧ (t.outBuf = s.outBuf ∨ t.outBuf = [])
  ∧ (t.sess = .error → t.errCode ≠ .none ∧ t.errBlock = s.curBlock ∧ t.curBlock = s.curBlock)

/-- Taking an error in OPEN. -/
theorem openFrame_raise {r e} {s : State} (h : e ≠ .none) : OpenFrame s (raiseFrom r e s) :=
  ⟨rfl, .inl rfl, rfl, rfl, rfl, rfl, rfl, .inr rfl, .inr rfl, fun _ => ⟨h, rfl, rfl⟩⟩

/-- The end of OPEN keeps its frame. -/
theorem openFrame_validate {s t : State} (h : openValidate s = .next t) : OpenFrame s t := by
  rcases openValidate_inv h with ⟨e, _, he, rfl⟩ | ⟨_, rfl⟩
  · exact openFrame_raise he
  · refine ⟨rfl, .inl rfl, rfl, rfl, rfl, rfl, rfl, .inl rfl, .inl rfl, ?_⟩; intro h; cases h

/-- The frame of OPEN from a state that differs in header, mode and source only. -/
theorem OpenFrame.of_update {s w t : State} (h : OpenFrame w t) (h1 : w.scratch = s.scratch)
    (h2 : w.off = s.off ∨ ∃ l, w.off = ramLoad 0 l) (h3 : w.sink = s.sink) (h4 : w.running0 = s.running0)
    (h5 : w.running1 = s.running1) (h6 : w.flip = s.flip) (h7 : w.runlength = s.runlength)
        (h8 : w.phase = s.phase) (h9 : w.outBuf = s.outBuf) (h10 : w.curBlock = s.curBlock) : OpenFrame s t := by
  obtain ⟨a1, a2, a3, a4, a5, a6, a7, a8, a9, a10⟩ := h
  refine ⟨a1.trans h1, ?_, a3.trans h3, a4.trans h4, a5.trans h5, a6.trans h6, a7.trans h7,
      by rwa [h8] at a8, by rwa [h9] at a9, by rw [h10] at a10; exact a10⟩
  rcases a2 with a2 | a2
  · rw [a2]; exact h2
  · exact .inr a2

/-- The frame of OPEN, from the cleared state (R400, R401). -/
theorem openFrame_open {s t : State} (h : exec .openCmd s = .next t) : OpenFrame s.cleared t := by
  simp only [exec, execOpen, whenReady] at h
  split at h
  swap; cases h
  generalize s.cleared = c at h
  have bnd : ∀ w, openBounded w = .next t → OpenFrame w t := by
    intro w h
    unfold openBounded at h
    split at h
    swap; cases h; exact openFrame_raise (by simp)
    split at h
    · exact openFrame_validate h
    · unfold openTable at h
      obtain ⟨a, b, d, hk⟩ := srcRead_keep (4 * w.hdr.blocks.toInt).toNat w
      split at h <;> rename_i hh <;> rw [hh] at hk <;> simp only at hk <;> subst hk
      · cases h
      · cases h; exact OpenFrame.of_update (openFrame_raise (by simp)) rfl (.inl rfl) rfl rfl rfl rfl rfl rfl rfl rfl
      · cases h; exact OpenFrame.of_update (openFrame_raise (by simp)) rfl (.inl rfl) rfl rfl rfl rfl rfl rfl rfl rfl
      · exact OpenFrame.of_update (openFrame_validate h) rfl (.inr ⟨_, rfl⟩) rfl rfl rfl rfl rfl rfl rfl rfl
  have mde : ∀ w, openMode w = .next t → OpenFrame w t := by
    intro w h
    unfold openMode at h
    split at h
    · split at h
      · rename_i e he
        cases h
        refine OpenFrame.of_update (openFrame_raise ?_) rfl (.inl rfl) rfl rfl rfl rfl rfl rfl rfl rfl
        rintro rfl
        unfold Header.layoutError at he
        repeat' split at he
        all_goals simp at he
      · exact OpenFrame.of_update (bnd _ h) rfl (.inl rfl) rfl rfl rfl rfl rfl rfl rfl rfl
    · exact OpenFrame.of_update (bnd _ h) rfl (.inl rfl) rfl rfl rfl rfl rfl rfl rfl rfl
  unfold openHeader at h
  obtain ⟨a, b, d, hk⟩ := srcRead_keep 44 c
  split at h <;> rename_i hh <;> rw [hh] at hk <;> simp only at hk <;> subst hk
  · cases h
  · cases h; exact OpenFrame.of_update (openFrame_raise (by simp)) rfl (.inl rfl) rfl rfl rfl rfl rfl rfl rfl rfl
  · cases h; exact OpenFrame.of_update (openFrame_raise (by simp)) rfl (.inl rfl) rfl rfl rfl rfl rfl rfl rfl rfl
  · exact OpenFrame.of_update (mde _ h) rfl (.inl rfl) rfl rfl rfl rfl rfl rfl rfl rfl

/-- Everything NEXT can do, by STATE and MODE (R500 to R504). -/
theorem next_inv {s t : State} (h : exec .nextCmd s = .next t) :
    s.phase = .idle ∧ (
    (s.sess = .idle ∧ t = s.reportNoSession) ∨ (s.sess = .error ∧ t = s.reportAborted) ∨ (s.sess = .finished
        ∧ t = s.reportEnd)
    ∨ (s.sess = .notStarted ∧ ((∃ k, t = raiseError .sinkWriteError { s with
          sink := ⟨s.sink.bytes ++ s.wavHeader.take k, s.sink.answers.tail⟩, freeCtr := s.freeCtr + 1 })
        ∨ t = { s.accept s.wavHeader with curBlock := 0, sess := .streaming, result := .chunk, lastLen := 44 }))
    ∨ (s.sess = .streaming ∧ s.mode = .raw ∧ rawBlock s = .next t)
    ∨ (s.sess = .streaming ∧ s.mode = .compressed ∧ compressedBlock s = .next t)) := by
  simp only [exec, execNext, whenReady] at h
  split at h
  swap; cases h
  rename_i hp
  refine ⟨hp, ?_⟩
  unfold nextUnit at h
  cases hs : s.sess <;> rw [hs] at h <;> simp only at h
  · cases h; exact .inl ⟨rfl, rfl⟩
  · unfold nextHeader at h
    rcases snkWrite_cases s.wavHeader s with ⟨hr, _⟩ | ⟨k, hr, _⟩ | ⟨hr, _⟩ <;> rw [hr] at h <;> simp only at h
    · cases h
    · cases h; exact .inr (.inr (.inr (.inl ⟨rfl, .inl ⟨k, rfl⟩⟩)))
    · cases h; exact .inr (.inr (.inr (.inl ⟨rfl, .inr rfl⟩)))
  · cases hm : s.mode <;> rw [hm] at h <;> simp only at h
    · exact .inr (.inr (.inr (.inr (.inl ⟨rfl, rfl, h⟩))))
    · exact .inr (.inr (.inr (.inr (.inr ⟨rfl, rfl, h⟩))))
  · cases h; exact .inr (.inr (.inl ⟨rfl, rfl⟩))
  · cases h; exact .inr (.inl ⟨rfl, rfl⟩)

/-- Everything a step outside a block can do. -/
theorem step_idle_inv {s t : State} (hp : s.phase = .idle) (h : step s = .next t) :
    (s.host = [] ∧ t = s) ∨ ∃ op rest, s.host = op :: rest ∧
      ((∃ v, op = .write 0 v ∧ exec (decodeCommand v) { s with host := rest } = .next t)
      ∨ (∃ o v, op = .write o v ∧ t = { s with host := rest }) ∨ (∃ o, op = .read o
          ∧ t = { s with host := rest, busData := s.regRead o })
      ∨ (∃ src, op = .connectSource src ∧ s.inSession = false ∧ t = { s with host := rest, src := src })
      ∨ (∃ a, op = .connectSink a ∧ s.inSession = false ∧ t = { s with host := rest, sink := ⟨[], a⟩ })) := by
  rw [step_idle hp] at h
  unfold hostStep at h
  split at h
  · cases h; exact .inl ⟨‹_›, rfl⟩
  · rename_i op rest ho
    refine .inr ⟨op, rest, ho, ?_⟩
    cases op with
    | write o v =>
      simp only [hostOp] at h
      split at h
      · rename_i h0; subst h0; exact .inl ⟨v, rfl, h⟩
      · cases h; exact .inr (.inl ⟨o, v, rfl, rfl⟩)
    | read o => cases h; exact .inr (.inr (.inl ⟨o, rfl, rfl⟩))
    | connectSource src =>
      simp only [hostOp, whenDisconnected] at h
      split at h
      · cases h
      · rename_i hn; cases h; exact .inr (.inr (.inr (.inl ⟨src, rfl, by simpa [State.inSession] using hn, rfl⟩)))
    | connectSink a =>
      simp only [hostOp, whenDisconnected] at h
      split at h
      · cases h
      · rename_i hn; cases h; exact .inr (.inr (.inr (.inr ⟨a, rfl, by simpa [State.inSession] using hn, rfl⟩)))

/-- A command word is one of the four commands (R350). -/
theorem decodeCommand_cases (v : Word) : decodeCommand v = .nop ∨ decodeCommand v = .openCmd
    ∨ decodeCommand v = .nextCmd ∨ decodeCommand v = .resetCmd := by
  unfold decodeCommand; split <;> simp

/-- NOP (R102). -/
theorem nop_inv {s t : State} (h : exec .nop s = .next t) : s.phase = .idle ∧ t = s := by
  simp only [exec, execNop, whenReady] at h; split at h <;> cases h; exact ⟨‹_›, rfl⟩
/-- RESET (R901). -/
theorem reset_inv {s t : State} (h : exec .resetCmd s = .next t) : s.phase = .idle ∧ t = s.cleared := by
  simp only [exec, execReset, whenReady] at h; split at h <;> cases h; exact ⟨‹_›, rfl⟩

end Sys2Proof.Machine
end

