-- ==== Sys2Proof/Laws/PerInstr.lean ====
section
/-! SUPPORT. The laws stated of every instruction, one lemma per constructor of Instr. -/

namespace Sys2Proof.Laws.EncodedLength

open Sys2Proof Sys2Proof.Machine

/-- A well-formed code is encoded in 3 to 14 bits, and its number fits in them (spec/43_bitstream_decode.md R656); the
other instructions are implicit or a value of CMD[1:0] (spec/30_encoding.md R337, R350). -/
def Statement (i : Instr) : Prop :=
  ∀ c : CodeCtx, i.wf c = true →
    match encode c.level i with
    | .bits len w => 3 ≤ len ∧ len ≤ 14 ∧ w < 2 ^ len
    | .command v => v.toNat < 4
    | .implicit => True

/-- The widths of the fields at the levels of a compressed stream: 3 to 8 bits (R320, R360). -/
theorem widths_le_eight {c : CodeCtx} (h : c.levelOk = true) :
    3 ≤ diffBits c.level ∧ diffBits c.level ≤ 8 ∧ 6 ≤ bigBits c.level ∧ bigBits c.level ≤ 8 := by
  simp only [CodeCtx.levelOk, Bool.and_eq_true, decide_eq_true_eq] at h
  unfold diffBits bigBits
  split <;> omega

/-- A sign and a magnitude within a field of `b` bits make a number of `b` bits (R321). -/
theorem signMagField_lt {b : Nat} (hb : 1 ≤ b) {neg : Bool} {mag : BitVec 7} (hm : mag.toNat < 2 ^ (b - 1)) :
    signMagField b neg mag < 2 ^ b := by
  obtain ⟨k, rfl⟩ : ∃ k, b = k + 1 := ⟨b - 1, by omega⟩
  simp only [signMagField, Nat.add_sub_cancel, Nat.pow_succ] at *
  split <;> omega

/-- The length of a normal differential, whatever its exponent (R334). -/
theorem encodeDiff_length {c : CodeCtx} {e : Nat} (he : e < 8) {neg : Bool} {mag : BitVec 7}
    (h : c.diffOk mag = true) :
    match encodeDiff c.level e neg mag with
    | .bits len w => 3 ≤ len ∧ len ≤ 14 ∧ w < 2 ^ len
    | .command v => v.toNat < 4
    | .implicit => True := by
  simp only [CodeCtx.diffOk, Bool.and_eq_true, decide_eq_true_eq] at h
  obtain ⟨h3, h8, -, -⟩ := widths_le_eight h.1
  have hf := signMagField_lt (neg := neg) (by omega) h.2
  simp only [encodeDiff]
  refine ⟨by omega, by omega, ?_⟩
  rw [Nat.pow_add]
  omega

theorem skip : Statement .skip := fun _ _ => by simp [encode]

theorem run0 : Statement .run0 := fun _ _ => by simp [encode]

theorem run2 (k : BitVec 2) : Statement (.run2 k) := fun _ _ => ⟨by decide, by decide, by have := k.isLt; omega⟩

theorem run8 (k : BitVec 8) : Statement (.run8 k) := fun _ _ => ⟨by decide, by decide, by have := k.isLt; omega⟩

theorem diff1 (neg : Bool) (mag : BitVec 7) : Statement (.diff1 neg mag) := fun _ h => encodeDiff_length (by decide) h

theorem diff2 (neg : Bool) (mag : BitVec 7) : Statement (.diff2 neg mag) := fun _ h => encodeDiff_length (by decide) h

theorem diff3 (neg : Bool) (mag : BitVec 7) : Statement (.diff3 neg mag) := fun _ h => encodeDiff_length (by decide) h

theorem diff4 (neg : Bool) (mag : BitVec 7) : Statement (.diff4 neg mag) := fun _ h => encodeDiff_length (by decide) h

theorem diff5 (neg : Bool) (mag : BitVec 7) : Statement (.diff5 neg mag) := fun _ h => encodeDiff_length (by decide) h

theorem diff6 (neg : Bool) (mag : BitVec 7) : Statement (.diff6 neg mag) := fun _ h => encodeDiff_length (by decide) h

theorem zero : Statement .zero := fun _ _ => by simp [encode]

theorem big (neg : Bool) (mag : BitVec 7) : Statement (.big neg mag) := by
  intro c h
  simp only [Instr.wf, CodeCtx.bigOk, Bool.and_eq_true, decide_eq_true_eq] at h
  obtain ⟨-, -, h6, h8⟩ := widths_le_eight h.1
  have hf := signMagField_lt (neg := neg) (by omega) h.2
  simp only [encode]
  refine ⟨by omega, by omega, ?_⟩
  rw [Nat.pow_add]
  omega

theorem seed (c : Chan) : Statement (.seed c) := fun _ _ => trivial

theorem repeatRun : Statement .repeatRun := fun _ _ => trivial

theorem nop : Statement .nop := fun _ _ => by simp [encode]

theorem openCmd : Statement .openCmd := fun _ _ => by simp [encode]

theorem nextCmd : Statement .nextCmd := fun _ _ => by simp [encode]

theorem resetCmd : Statement .resetCmd := fun _ _ => by simp [encode]

end Sys2Proof.Laws.EncodedLength
end

