-- ==== Sys2Proof/Tests/Slice0.lean ====
section
/-! SUPPORT. The model's own tests: the ill-formed terms that WellFormed refuses; words written out from
spec/30_encoding.md and what they decode to; vectors of spec/95_test_vectors.md, one step each; and for every
obligation that has hypotheses a state and operands that meet them all. -/

namespace Sys2Proof.Tests

set_option Elab.async false

open Sys2Proof Sys2Proof.Machine

/-! ### Helpers -/

/-- What a step leaves, seen through `f`; nothing where it stops. -/
def after {α : Type} (o : Step) (f : State → α) : Option α :=
  match o with
  | .next t => some (f t)
  | _ => none

/-- A step seen through `f` is a step that answers a next state. -/
theorem exists_of_after {α : Type} {o : Step} {f : State → α} {a : α} (h : after o f = some a) :
    ∃ t, o = .next t ∧ f t = a := by
  unfold after at h
  split at h
  · exact ⟨_, rfl, by simpa using h⟩
  · cases h

/-- A step that answers a next state with a property. -/
theorem next_with {o : Step} {P : State → Prop} [DecidablePred P] (h : after o (fun t => decide (P t)) = some true) :
    ∃ t, o = .next t ∧ P t := by
  obtain ⟨t, ht, e⟩ := exists_of_after h
  exact ⟨t, ht, of_decide_eq_true e⟩

/-- The reason for a refusal. -/
def refusal (o : Step) : Option Refusal :=
  match o with
  | .refused r => some r
  | _ => none

/-- The header `hdr(ch, bits, rate, lvl, rle, blocks, ds, cds, sc, bs, rs)` of spec/95_test_vectors.md. -/
def hdrBytes (ch bits rate lvl rle blocks ds cds sc bs rs : Int) : List Byte :=
  le16 ch ++ le16 bits ++ le32 rate ++ le32 lvl ++ le32 rle ++ le32 blocks ++ le32 ds ++ le32 cds ++ le32 sc
    ++ le32 bs ++ le32 rs ++ le32 0

/-- After reset, with a source connected. -/
def connected (bytes : List Byte) : State := { State.reset with src := ⟨bytes, []⟩ }

/-- In the code loop of a block of four samples: `ch` channels, `bits` per sample, level `lvl`, run-length flag `rle`,
`running[0] = v0`. -/
def inCodes (ch bits lvl rle : Int) (v0 : Sample) : State :=
  { State.reset with
    sess := .streaming, mode := .compressed, curBlock := 0, phase := .codes, total := 4, idx := 1, running0 := v0
    hdr := { Header.zero with
      channels := toWord ch, bits := toWord bits, level := toWord lvl, rle := toWord rle, blocks := 1 } }

/-- The session of V-S5 before block 0, with four more bytes at the source's end (a mono 16-bit stream at level 0 of
two blocks of two samples). -/
def blockZero : State :=
  { State.reset with
    sess := .streaming, mode := .compressed, curBlock := 0, srcPos := 52, snkPos := 44, off := [(0, 52), (1, 59)]
    hdr := ⟨1, 16, 44100, 0, 0, 2, 8, 63, 4, 2, 2⟩
    src := ⟨[1, 0, 0, 0, 0, 0, 0, 2, 0, 0, 0, 0xFF, 0xFF, 0xFF, 0xFF], []⟩ }

/-- The same session before its last block. -/
def blockOne : State :=
  { blockZero with curBlock := 1, srcPos := 59, src := ⟨[2, 0, 0, 0, 0xFF, 0xFF, 0xFF, 0xFF], []⟩ }

/-- Block 0 of that session after its seed has been emitted. -/
def inBlock : State :=
  { blockZero with
    scratch := ramLoad 0 [1, 0, 0, 0, 0, 0, 0], scrLen := 7, brBase := 2, brLen := 5, total := 2, idx := 1
    running0 := 1, phase := .codes, src := ⟨[2, 0, 0, 0, 0xFF, 0xFF, 0xFF, 0xFF], []⟩, srcPos := 59 }

/-- Block 0 of that session before its seed. -/
def atSeed : State := { inBlock with idx := 0, running0 := 0, brBase := 0, brLen := 0, phase := .seeding false }

/-- A stereo 16-bit block of `n` samples at the seed of channel `c`, channel 0 seeded with 10, channel 1 with 20, and
one byte of bitstream after the seeds. -/
def stereoSeed (c : Chan) (n : Nat) : State :=
  { inCodes 2 16 0 0 10 with
    scratch := ramLoad 0 [0x0A, 0, 0x14, 0, 0], scrLen := 5, idx := 0, total := n, phase := .seeding c }

/-- The session of program P1 (raw, one block of two samples) after OPEN. -/
def rawOpened : State :=
  { State.reset with
    sess := .notStarted, mode := .raw, srcPos := 44, src := ⟨[0x64, 0x00, 0x9C, 0xFF], []⟩
    hdr := ⟨1, 16, 44100, -1, 0, 1, 4, 0, 2, 65536, 2⟩ }

/-- The same session in STREAMING. -/
def rawStreaming : State := { rawOpened with sess := .streaming, curBlock := 0 }

/-- A raw session of two blocks of two bytes and one byte, of which the source has `n` bytes. -/
def rawInner (n : Nat) : State :=
  { rawStreaming with
    hdr := ⟨1, 8, 8000, -1, 0, 2, 3, 0, 3, 2, 1⟩, src := ⟨List.replicate n 7, []⟩ }

/-- A failed session. -/
def failed : State := raiseError .sourceReadError rawStreaming

/-- The host's next operation. -/
def hostDoes (op : HostOp) (s : State) : State := { s with host := [op] }

/-- The sink's answers from now on. -/
def sinkAnswers (l : List PortAnswer) (s : State) : State := { s with sink := { s.sink with answers := l } }

/-- The source's answers from now on. -/
def srcAnswers (l : List PortAnswer) (s : State) : State := { s with src := { s.src with answers := l } }

/-- A scratch RAM of `n` bytes (P_MAX_SCRATCH_BYTES). -/
def capped (n : Nat) (s : State) : State := { s with params := { s.params with maxScratch := some n } }

/-- Seeds under P_SEED_MODE = CODE_EVERY. -/
def codeEvery (s : State) : State := { s with params := { s.params with seedMode := .codeEvery } }

/-- Output under P_PARTIAL_OUTPUT = NONE. -/
def underNone (s : State) : State := { s with params := { s.params with partialOut := .wholeBlocks } }

theorem streaming_legal {s : State} (h : s.sess = .streaming)
    (hs : (0 ≤ s.curBlock.toInt ∧ s.curBlock.toInt < s.hdr.blocks.toInt)
      ∧ s.errBlock.toInt = -1 ∧ s.errCode = .none ∧ s.headerValid) : s.sessionLegal := by
  simp only [State.sessionLegal, h]; exact hs

theorem notStarted_legal {s : State} (h : s.sess = .notStarted)
    (hs : s.curBlock.toInt = -1 ∧ s.errBlock.toInt = -1 ∧ s.errCode = .none ∧ s.headerValid) : s.sessionLegal := by
  simp only [State.sessionLegal, h]; exact hs

/-! ### WellFormed refuses -/

/-- Run-length off, level 0, mono. -/
def plainCtx : CodeCtx := ⟨false, 0, false⟩

/-- Run-length on, level 0, mono. -/
def rleCtx : CodeCtx := ⟨true, 0, false⟩

theorem test_wf_skip_needs_rle_off : Instr.skip.wf rleCtx = false := by decide
theorem test_wf_run0_needs_rle : Instr.run0.wf plainCtx = false := by decide
theorem test_wf_run2_needs_rle : (Instr.run2 1).wf plainCtx = false := by decide
theorem test_wf_run2_is_never_three : (Instr.run2 3).wf rleCtx = false := by decide
theorem test_wf_run8_needs_rle : (Instr.run8 1).wf plainCtx = false := by decide
theorem test_wf_diff_magnitude : (Instr.diff1 false 16).wf plainCtx = false := by decide
theorem test_wf_diff_magnitude_level_two : (Instr.diff6 true 4).wf ⟨true, 2, false⟩ = false := by decide
theorem test_wf_diff_level : (Instr.diff3 false 0).wf ⟨false, 6, false⟩ = false := by decide
theorem test_wf_diff_raw_level : (Instr.diff3 false 0).wf ⟨false, -1, false⟩ = false := by decide
theorem test_wf_big_magnitude : (Instr.big false 64).wf ⟨false, 1, false⟩ = false := by decide
theorem test_wf_big_level : (Instr.big false 0).wf ⟨false, 6, false⟩ = false := by decide
theorem test_wf_seed_needs_stereo : (Instr.seed true).wf plainCtx = false := by decide

/-! ### Words written out from R330 to R336 and R350, and the table's words -/

theorem test_decode_skip : decodeBytes .lazyEnd false 0 [0b11111000] = .code .skip 3 := by decide
theorem test_decode_run0 : decodeBytes .lazyEnd true 0 [0b11110000] = .code .run0 4 := by decide
theorem test_decode_run2 : decodeBytes .lazyEnd true 0 [0b11011000] = .code (.run2 1) 6 := by decide
theorem test_decode_run8 : decodeBytes .lazyEnd true 2 [0x78, 0x01] = .code (.run8 5) 14 := by decide
theorem test_decode_diff1 : decodeBytes .lazyEnd false 0 [0x79] = .code (.diff1 false 15) 8 := by decide
theorem test_decode_diff2 : decodeBytes .lazyEnd false 1 [0x4A] = .code (.diff2 true 1) 7 := by decide
theorem test_decode_diff3 : decodeBytes .lazyEnd false 2 [0x1B] = .code (.diff3 false 3) 6 := by decide
theorem test_decode_diff4 : decodeBytes .lazyEnd true 3 [0x0C, 0x01] = .code (.diff4 true 1) 9 := by decide
theorem test_decode_diff5 : decodeBytes .lazyEnd true 4 [0xFD, 0x01] = .code (.diff5 false 63) 10 := by decide
theorem test_decode_diff6 : decodeBytes .lazyEnd true 5 [0x0E, 0x04] = .code (.diff6 true 1) 11 := by decide
theorem test_decode_zero : decodeBytes .lazyEnd false 4 [0b00001111] = .code .zero 4 := by decide
theorem test_decode_big : decodeBytes .lazyEnd false 0 [0xF7, 0x07] = .code (.big false 127) 12 := by decide
theorem test_decode_commands : [0, 1, 2, 3, 0xFFFFFFFD].map decodeCommand
    = [.nop, .openCmd, .nextCmd, .resetCmd, .openCmd] := by decide
theorem test_decode_ends_inside_a_code : decodeBytes .lazyEnd false 0 [] = .exhausted 0
    ∧ decodeBytes .eagerEnd false 0 [0x09] = .exhausted 3 ∧ decodeBytes .lazyEnd true 0 [0x38] = .exhausted 6 := by
  decide

theorem test_table_words : decodeTableWord 3 0 = some .skip ∧ decodeTableWord 8 0x0 = some .run0
    ∧ decodeTableWord 16 0x3FF8 = some (.run8 255) ∧ decodeTableWord 8 0x89 = some (.diff1 true 1)
    ∧ decodeTableWord 8 0xF = some .zero ∧ decodeTableWord 32 2 = some .nextCmd ∧ decodeTableWord 0 0 = none := by
  decide

/-! ### Formats (V-B and V-W) -/

/-- The bitstream `B5 03` of V-B1 to V-B6. -/
def b503 (i : Nat) : Byte := [0xB5, 0x03].getD i 0

theorem test_readBits : readField .lazyEnd b503 2 6 4 = .value 14 ∧ readField .lazyEnd b503 2 0 8 = .value 181
    ∧ readField .lazyEnd b503 2 7 8 = .value 7 ∧ readField .lazyEnd b503 2 8 3 = .value 3 := by decide

theorem test_readBits_at_the_end : readField .lazyEnd b503 2 8 8 = .value 3
    ∧ readField .eagerEnd b503 2 8 8 = .exhausted ∧ readField .lazyEnd b503 2 16 1 = .exhausted := by decide

theorem test_wavHeader_V_W3 : Machine.wavHeader 2147483647 2 16 48000
    = [0x52, 0x49, 0x46, 0x46, 0x23, 0, 0, 0x80, 0x57, 0x41, 0x56, 0x45, 0x66, 0x6D, 0x74, 0x20, 0x10, 0, 0, 0, 1, 0,
      2, 0, 0x80, 0xBB, 0, 0, 0, 0xEE, 2, 0, 4, 0, 0x10, 0, 0x64, 0x61, 0x74, 0x61, 0xFF, 0xFF, 0xFF, 0x7F] := by
  decide

theorem test_wavHeader_V_W4 : ((Machine.wavHeader 8 2 16 (-1)).drop 24).take 12
    = [0xFF, 0xFF, 0xFF, 0xFF, 0xFC, 0xFF, 0xFF, 0xFF, 4, 0, 0x10, 0] := by decide

/-! ### One step of each instruction -/

/-- V-X2: SKIP repeats 1000. -/
theorem test_skip : after (exec .skip (inCodes 1 16 2 0 1000)) (fun t => (t.sink.bytes, t.idx))
    = some ([0xE8, 0x03], 2) := by decide

/-- V-C1: RUN0 repeats -7. -/
theorem test_run0 : after (exec .run0 (inCodes 1 16 3 1 (-7))) (fun t => (t.sink.bytes, t.runlength))
    = some ([0xF9, 0xFF], 0) := by decide

/-- P2: RUN2 2. -/
theorem test_run2 : after (exec (.run2 2) (inCodes 1 16 2 1 1256)) (fun t => (t.sink.bytes, t.runlength))
    = some ([0xE8, 0x04], 2) := by decide

/-- V-C2: RUN8 255. -/
theorem test_run8 : after (exec (.run8 255) (inCodes 1 16 4 1 9)) (fun t => (t.sink.bytes, t.runlength))
    = some ([0x09, 0x00], 255) := by decide

/-- 5.1, level 0, DIFF 1 -1. -/
theorem test_diff1 : after (exec (.diff1 true 1) (inCodes 1 16 0 0 0)) (·.running0.toInt) = some (-8) := by decide

/-- V-A3: mono 8, level 3, 127 + 4 wraps. -/
theorem test_diff1_wraps_a_byte : after (exec (.diff1 false 1) (inCodes 1 8 3 0 127)) (·.sink.bytes)
    = some [0x83] := by decide

/-- V-A1: 32000 + 125*8 wraps. -/
theorem test_diff2 : after (exec (.diff2 false 125) (inCodes 1 16 5 0 32000)) (·.running0.toInt)
    = some (-32536) := by decide

/-- 5.1, level 1, DIFF 3 +7, 8-bit. -/
theorem test_diff3 : after (exec (.diff3 false 7) (inCodes 1 8 1 0 0)) (·.running0.toInt) = some (-64) := by decide

/-- 5.1, level 2, DIFF 4 +3. -/
theorem test_diff4 : after (exec (.diff4 false 3) (inCodes 1 16 2 0 0)) (·.running0.toInt) = some 768 := by decide

/-- 5.1, level 3, DIFF 5 +31. -/
theorem test_diff5 : after (exec (.diff5 false 31) (inCodes 1 16 3 0 0)) (·.running0.toInt) = some 1984 := by decide

/-- 5.1, level 4, DIFF 6 +63. -/
theorem test_diff6 : after (exec (.diff6 false 63) (inCodes 1 16 4 0 0)) (·.running0.toInt) = some 8064 := by decide

/-- V-C5: in stereo ZERO resets only `running[flip]`. -/
theorem test_zero : after (exec .zero { inCodes 2 16 2 0 (-3000) with running1 := -3000 })
    (fun t => (t.running0.toInt, t.running1.toInt, t.flip)) = some (0, -3000, true) := by decide

/-- 5.1, level 1, BIG +63 wraps to -1024; P2, level 2, BIG -1. -/
theorem test_big : after (exec (.big false 63) (inCodes 1 16 1 0 0)) (·.running0.toInt) = some (-1024)
    ∧ after (exec (.big true 1) (inCodes 1 16 2 0 0)) (·.running0.toInt) = some (-2048) := by decide

/-- V-D1: the second seed of stereo 16-bit. -/
theorem test_seed : after (exec (.seed true)
    { inCodes 2 16 0 0 10 with scratch := ramLoad 0 [0x0A, 0, 0x14, 0], scrLen := 4 })
    (fun t => (t.running0, t.running1, t.sink.bytes)) = some (10, 20, []) := by decide

/-- R605, R701: after the last seed, the first `min(C, T)` seeds under SEED_EMIT and none under CODE_EVERY, and the
bitstream begins after the seed bytes. -/
theorem test_after_the_last_seed :
    after (step (stereoSeed true 4)) (fun t => (t.sink.bytes, t.idx, t.brBase, t.brLen))
      = some ([0x0A, 0, 0x14, 0], 2, 4, 1)
    ∧ after (step (stereoSeed true 1)) (fun t => (t.sink.bytes, t.result)) = some ([0x0A, 0], .chunk)
    ∧ after (step (codeEvery (stereoSeed true 4))) (fun t => (t.sink.bytes, t.idx, t.brBase, t.brLen))
      = some ([], 0, 4, 1) := by decide +kernel

/-- V-D1: an 8-bit seed is signed. -/
theorem test_seed_byte : after (exec (.seed false) { inCodes 1 8 0 0 0 with scratch := [(0, 0x80)], scrLen := 1 })
    (·.running0.toInt) = some (-128) := by decide

/-- V-C4: REPEAT on the right channel. -/
theorem test_repeatRun : after (exec .repeatRun
    { inCodes 2 16 0 1 10 with running1 := 20, flip := true, runlength := 2 })
    (fun t => (t.sink.bytes, t.runlength, t.flip)) = some ([0x14, 0], 1, false) := by decide

theorem test_nop : after (exec .nop blockZero) (fun t => decide (t = blockZero)) = some true := by decide

/-- V-H2 and V-H19: OPEN of a raw and of a compressed stream. -/
theorem test_open : after (exec .openCmd (connected (hdrBytes 2 16 44100 (-1) 0 0 262152 0 131076 0 0)))
      (fun t => (t.sess, t.hdr.blocks, t.hdr.restSize)) = some (.notStarted, 3, 4)
    ∧ after (exec .openCmd (connected (hdrBytes 2 16 44100 3 1 3 20 200 10 4 2
        ++ [0x38, 0, 0, 0, 0x3C, 0, 0, 0, 0x40, 0, 0, 0])))
      (fun t => (t.sess, t.mode, t.off)) = some (.notStarted, .compressed, [(0, 56), (1, 60), (2, 64)]) := by
  decide +kernel

/-- V-H3, V-H5, V-H7, V-H8, V-H12, V-H14, V-H17, V-H20. -/
theorem test_open_errors :
    [hdrBytes 1 16 44100 (-1) 0 0 131072 0 65536 0 0, hdrBytes 1 16 44100 (-1) 0 0 (-5) 0 0 0 0,
      hdrBytes 3 12 44100 (-1) 0 0 4 0 2 0 0, hdrBytes 3 16 44100 0 0 2 8 100 4 2 2 ++ [0x34, 0, 0, 0, 0x36, 0],
      hdrBytes 1 16 44100 0 0 1 4 48 2 2 2 ++ [0x30, 0, 0, 0], (hdrBytes 1 16 44100 (-1) 0 0 4 0 2 0 0).take 43,
      hdrBytes 1 16 44100 (-2) 0 1 4 100 2 2 2 ++ [0x30, 0, 0, 0],
      hdrBytes 2 16 44100 3 1 3 20 200 11 4 3 ++ [0x38, 0, 0, 0, 0x3C, 0, 0, 0, 0x40, 0, 0, 0]].map
        (fun b => after (exec .openCmd (connected b)) (fun t => t.errCode.code))
    = [some 8, some 2, some 4, some 3, some 10, some 1, some 6, some 7] := by decide +kernel

/-- V-S1: NEXT straight after reset. -/
theorem test_next_idle : after (exec .nextCmd State.reset) (fun t => (t.sess, t.result, t.errCode.code, t.errBlock))
    = some (.idle, .error, 15, -1) := by decide

/-- V-S5, block 0, and V-S14's upper-bound read of the last block. -/
theorem test_next_blocks :
    after (exec .nextCmd blockZero) (fun t => (t.sink.bytes, t.curBlock, t.sess)) = some ([1, 0, 1, 0], 1, .streaming)
    ∧ after (exec .nextCmd blockOne) (fun t => (t.sink.bytes, t.srcPos, t.sess)) = some ([2, 0, 2, 0], 67, .finished) := by
  decide +kernel

/-- R901: RESET during a session. -/
theorem test_reset : after (exec .resetCmd blockZero) (fun t => (t.statusWord, t.curBlock, t.srcPos, t.hdr))
    = some (0, -1, 0, Header.zero) := by decide

/-- A table word placed where the step fetches: DIFF1 -1 at level 0, and the command NEXT. -/
theorem test_withFetchWord : after (step (State.reset.withFetchWord 8 0x89)) (·.running0.toInt) = some (-8)
    ∧ after (step (State.reset.withFetchWord 32 2)) (·.errCode) = some .noSession := by decide +kernel

/-! ### What the model refuses -/

theorem test_command_while_busy : refusal (exec .nextCmd inBlock) = some .commandWhileBusy := by decide
theorem test_scratch_too_small : refusal (exec .nextCmd (capped 6 blockZero)) = some .scratchTooSmall
    ∧ refusal (exec .nextCmd (capped 7 blockOne)) = some .scratchTooSmall := by
  decide +kernel
/-- R512: a last block whose read asks for 8 bytes and gets 7 is decoded in a scratch RAM of 7. -/
theorem test_short_final_read_fits : after (exec .nextCmd
    (capped 7 { blockOne with src := ⟨[2, 0, 0, 0, 0xFF, 0xFF, 0xFF], []⟩ })) (fun t => (t.sink.bytes, t.sess))
    = some ([2, 0, 2, 0], .finished) := by decide +kernel
theorem test_port_changed : refusal (step (hostDoes (.connectSource ⟨[], []⟩) blockZero)) = some .portChangedInSession := by
  decide
theorem test_read_width : refusal (step { State.reset with
    phase := .codes, total := 1, brLen := 2, scrLen := 2, scratch := ramLoad 0 [1, 0]
    hdr := { Header.zero with level := 6 } }) = some .readBitsWidth := by decide +kernel

/-! ### Witnesses: each meets the hypotheses of the obligation it names -/

theorem test_witness_DecodeOfEncodedCode :
    ((Instr.run8 255).wf rleCtx = true ∧ encode rleCtx.level (.run8 255) = .bits 14 0x3FF8
      ∧ exhausted .lazyEnd 2 14 2 = false ∧ streamField (fun i => [0xE3, 0xFF].getD i 0) 2 14 = 0x3FF8)
    ∧ ((Instr.diff1 true 15).wf plainCtx = true ∧ encode plainCtx.level (.diff1 true 15) = .bits 8 0xF9
      ∧ exhausted .eagerEnd 7 8 2 = false ∧ streamField (fun i => [0x80, 0x7C].getD i 0) 7 8 = 0xF9) := by decide

/-- Levels 0 and 5; RUN8 with its last bit missing under LAZY, and RUN8 that ends at the end under EAGER. -/
theorem test_witness_EveryBitSequenceBeginsWithOneCode :
    (((0 : Int) ≤ 0 ∧ (0 : Int) ≤ 5) ∧ ((0 : Int) ≤ 5 ∧ (5 : Int) ≤ 5))
    ∧ ((Instr.run8 127).wf rleCtx = true ∧ encode rleCtx.level (.run8 127) = .bits 14 0x1FF8
      ∧ streamField (fun i => [0xC0, 0xFF].getD i 0) 3 14 = 0x1FF8 ∧ exhausted .lazyEnd 3 14 2 = true)
    ∧ ((Instr.run8 255).wf rleCtx = true ∧ encode rleCtx.level (.run8 255) = .bits 14 0x3FF8
      ∧ streamField (fun i => [0xE3, 0xFF].getD i 0) 2 14 = 0x3FF8 ∧ exhausted .eagerEnd 2 14 2 = true) := by decide

theorem test_witness_CommandIsTheLowTwoBits :
    encode 0 .nop = .command 0 ∧ encode 0 .openCmd = .command 1 ∧ encode 0 .nextCmd = .command 2
    ∧ encode 0 .resetCmd = .command 3 := by decide

theorem test_witness_RunLengthFlagChangesOnlyExponentZero :
    readField .lazyEnd b503 2 0 3 = .value 5 ∧ (5 : Nat) ≠ 0 := by decide

theorem test_witness_ReadBitsValueAndExhaustion :
    (1 ≤ 1 ∧ 1 ≤ 8 ∧ readField .lazyEnd b503 2 15 1 ≠ .exhausted ∧ readField .lazyEnd b503 2 16 1 = .exhausted)
    ∧ (1 ≤ 8 ∧ 8 ≤ 8 ∧ readField .eagerEnd b503 2 7 8 ≠ .exhausted ∧ readField .eagerEnd b503 2 8 8 = .exhausted) := by
  decide

theorem test_witness_ScratchHoldsTheBlock : 0 < [(1 : Byte), 2].length ∧ 1 < [(1 : Byte), 2].length
    ∧ [(1 : Byte), 2].length ≤ 2 := by decide

theorem test_witness_ResetCommand : blockZero.phase = .idle ∧ failed.phase = .idle := by decide

theorem test_witness_HostReadsTheRegisterFile :
    ((0 : Nat) = 0) ∧ ((0x40 : Nat) ≤ 0x40) ∧ (3 % 4 ≠ 0 ∧ 0x3D % 4 ≠ 0) := by decide

theorem test_witness_StepRunsTheCommandWritten : (hostDoes (.write 0 0xFFFFFFFE) blockZero).phase = .idle
    ∧ (hostDoes (.write 0 0xFFFFFFFE) blockZero).host = .write 0 0xFFFFFFFE :: [] := by decide

/-- The six clauses: a seed due; the left seed of two; the last seed, under both modes, both outputs and with `T` of 1
and 2; a repeat and a code, with the block going on and at its end; and a code whose bits are not there. -/
theorem test_witness_StepRunsTheCodeAtTheCursor :
    atSeed.phase = .seeding false
    ∧ ((stereoSeed false 2).phase = .seeding false ∧ (stereoSeed false 2).hdr.channels = 2
      ∧ ∃ t, exec (.seed false) (stereoSeed false 2) = .next t ∧ t.phase ≠ .idle)
    ∧ ((atSeed.lastSeedDue false ∧ ∃ t, exec (.seed false) atSeed = .next t ∧ t.phase ≠ .idle)
      ∧ ((stereoSeed true 1).lastSeedDue true ∧ ∃ t, exec (.seed true) (stereoSeed true 1) = .next t ∧ t.phase ≠ .idle)
      ∧ (stereoSeed true 2).lastSeedDue true ∧ (codeEvery atSeed).params.seedMode = .codeEvery
      ∧ atSeed.params.seedMode = .seedEmit ∧ atSeed.sinkAlwaysAccepts
      ∧ (underNone atSeed).params.partialOut = .wholeBlocks)
    ∧ ((let s : State := { inBlock with runlength := 1 }; s.phase = .codes ∧ s.idx < s.total ∧ s.runlength ≠ 0
        ∧ ∃ t, exec .repeatRun s = .next t ∧ (t.phase = .codes ∧ t.total ≤ t.idx))
      ∧ (∃ t, exec .repeatRun { inBlock with runlength := 1, total := 3 } = .next t
        ∧ (t.phase = .codes ∧ t.idx < t.total)))
    ∧ ((inBlock.phase = .codes ∧ inBlock.idx < inBlock.total ∧ inBlock.runlength = 0)
      ∧ (inBlock.decodeNext = .code .skip 3 ∧ Instr.skip.wf inBlock.codeCtx = true
        ∧ ∃ t, exec .skip (inBlock.advanceBits 3) = .next t ∧ (t.phase = .codes ∧ t.total ≤ t.idx))
      ∧ ∃ t, exec .skip (({ inBlock with total := 3 } : State).advanceBits 3) = .next t
        ∧ (t.phase = .codes ∧ t.idx < t.total))
    ∧ (({ inBlock with brLen := 0 } : State).decodeNext = .exhausted 0
      ∧ ({ inBlock with scratch := ramLoad 0 [1, 0, 0x0F], brLen := 1, brPos := 1 } : State).decodeNext
        = .exhausted 4) := by
  refine ⟨by decide, ⟨by decide, by decide, next_with (by decide +kernel)⟩,
    ⟨⟨by decide, next_with (by decide +kernel)⟩, ⟨by decide, next_with (by decide +kernel)⟩, by decide, by decide,
      by decide, by decide, by decide⟩,
    ⟨⟨by decide, by decide, by decide, next_with (by decide +kernel)⟩, next_with (by decide +kernel)⟩,
    ⟨by decide, ⟨by decide +kernel, by decide, next_with (by decide +kernel)⟩, next_with (by decide +kernel)⟩,
    by decide +kernel⟩

theorem test_witness_OtherHostAccesses :
    ((hostDoes (.write 4 7) blockZero).phase = .idle ∧ (hostDoes (.write 4 7) blockZero).host = .write 4 7 :: []
      ∧ (4 : Nat) ≠ 0 ∧ (1 : Nat) ≠ 0)
    ∧ ((hostDoes (.read 0x3C) blockZero).phase = .idle ∧ (hostDoes (.read 0x3C) blockZero).host = .read 0x3C :: [])
    ∧ (blockZero.phase = .idle ∧ blockZero.host = []) := by decide

theorem test_witness_NopChangesNothing : blockZero.phase = .idle := by decide

theorem test_witness_CommandWhileBusyRefused : inBlock.busy = true ∧ atSeed.busy = true
    ∧ Instr.isCommand .nop = true ∧ Instr.isCommand .openCmd = true ∧ Instr.isCommand .nextCmd = true
    ∧ Instr.isCommand .resetCmd = true := by decide

/-- Both ways in which an emission succeeds; the statements of SKIP, RUN0, RUN2, RUN8 and ZERO ask nothing more. -/
theorem test_witness_SkipAndRun0EmitUnchanged :
    inBlock.canEmit ∧ (underNone (sinkAnswers [.ioerr] inBlock)).canEmit := by decide

theorem test_witness_Run2AndRun8SetTheRunLength :
    (inCodes 1 16 2 1 1256).canEmit ∧ (underNone (inCodes 1 16 2 1 1256)).canEmit := by decide

theorem test_witness_RepeatCountsDown :
    (0 < ({ inBlock with runlength := 1 } : State).runlength.toNat ∧ ({ inBlock with runlength := 1 } : State).canEmit)
    ∧ 0 < ({ inBlock with runlength := 255 } : State).runlength.toNat := by decide

theorem test_witness_DiffMovesTheSample :
    ((0 ≤ (inCodes 1 16 0 0 5).hdr.level.toInt ∧ (inCodes 1 16 0 0 5).hdr.level.toInt ≤ 5)
      ∧ ((inCodes 1 16 0 0 5).hdr.bits = 8 ∨ (inCodes 1 16 0 0 5).hdr.bits = 16) ∧ (inCodes 1 16 0 0 5).canEmit)
    ∧ ((0 ≤ (inCodes 2 8 5 1 5).hdr.level.toInt ∧ (inCodes 2 8 5 1 5).hdr.level.toInt ≤ 5)
      ∧ ((inCodes 2 8 5 1 5).hdr.bits = 8 ∨ (inCodes 2 8 5 1 5).hdr.bits = 16) ∧ (inCodes 2 8 5 1 5).canEmit) := by
  decide

theorem test_witness_BigMovesTheSample :
    ((0 ≤ (inCodes 1 16 3 0 5).hdr.level.toInt ∧ (inCodes 1 16 3 0 5).hdr.level.toInt ≤ 5)
      ∧ ((inCodes 1 16 3 0 5).hdr.bits = 8 ∨ (inCodes 1 16 3 0 5).hdr.bits = 16) ∧ (inCodes 1 16 3 0 5).canEmit)
    ∧ ((0 ≤ (inCodes 2 8 2 1 5).hdr.level.toInt ∧ (inCodes 2 8 2 1 5).hdr.level.toInt ≤ 5)
      ∧ ((inCodes 2 8 2 1 5).hdr.bits = 8 ∨ (inCodes 2 8 2 1 5).hdr.bits = 16) ∧ (inCodes 2 8 2 1 5).canEmit) := by
  decide

theorem test_witness_ZeroClearsTheSample :
    (inCodes 2 16 2 0 (-3000)).canEmit ∧ (underNone (inCodes 2 16 2 0 (-3000))).canEmit := by decide

/-- A scratch of exactly `C*w` bytes, of both widths. -/
theorem test_witness_SeedLoadsTheSample :
    (((inCodes 2 16 0 0 0).hdr.bits = 8 ∨ (inCodes 2 16 0 0 0).hdr.bits = 16)
      ∧ ({ inCodes 2 16 0 0 0 with scrLen := 4 } : State).seedBytes ≤ 4)
    ∧ (((inCodes 1 8 0 0 0).hdr.bits = 8 ∨ (inCodes 1 8 0 0 0).hdr.bits = 16)
      ∧ ({ inCodes 1 8 0 0 0 with scrLen := 1 } : State).seedBytes ≤ 1) := by decide

/-- One byte short of `C*w`. -/
theorem test_witness_SeedShortfallRaises :
    let s : State := { inCodes 2 16 0 0 0 with scrLen := 3 }
    (s.hdr.channels = 1 ∨ s.hdr.channels = 2) ∧ (s.hdr.bits = 8 ∨ s.hdr.bits = 16)
      ∧ (s.scrLen : Int) < s.hdr.channels.toInt * s.hdr.bits.toInt.tdiv 8 := by decide

/-- The hypotheses of R651's statement, with an exponent that its second clause covers. -/
abbrev shiftsOfEight (s : State) (e : Fin 6) : Prop :=
  (0 ≤ s.hdr.level.toInt ∧ s.hdr.level.toInt ≤ 5 ∧ s.hdr.bits = 8 ∧ s.samplesInRange ∧ s.canEmit)
    ∧ ((s.hdr.level.toInt = 0 ∧ e = 5) ∨ (s.hdr.level.toInt = 1 ∧ 4 ≤ e) ∨ (s.hdr.level.toInt = 2 ∧ 3 ≤ e))

theorem test_witness_ByteSamplesIgnoreShiftsOfEight :
    shiftsOfEight (inCodes 1 8 0 0 (-3)) 5 ∧ shiftsOfEight (inCodes 1 8 1 0 (-3)) 4
    ∧ shiftsOfEight (inCodes 1 8 1 0 127) 5 ∧ shiftsOfEight (inCodes 1 8 2 0 (-128)) 3
    ∧ shiftsOfEight (inCodes 1 8 2 0 (-3)) 5 := by
  refine ⟨?_, ?_, ?_, ?_, ?_⟩ <;> decide

/-- The second of the block's two samples is due in `inBlock`, whatever the sink will answer. -/
theorem inBlock_lastSampleDue (l : List PortAnswer) : (underNone (sinkAnswers l inBlock)).lastSampleDue :=
  ⟨rfl, rfl, .inr ⟨.skip, 3, (by decide +kernel : inBlock.decodeNext = .code .skip 3)⟩⟩

/-- The six writes: a code's sample, a seed's, the WAV header, a raw block (the last and another one), the end of a
block under NONE, and the step that gets there. -/
theorem test_witness_SampleWriteFailureRaises :
    ((∀ i ∈ [Instr.skip, .run0, .run2 1, .run8 9, .diff1 false 1, .diff2 false 1, .diff3 false 1, .diff4 false 1,
      .diff5 false 1, .diff6 false 1, .zero, .big true 1, .repeatRun], i.decidesSample = true)
      ∧ (sinkAnswers [.ioerr] inBlock).params.partialOut = .keepWritten ∧ (sinkAnswers [.ioerr] inBlock).sinkFails)
    ∧ (let s := sinkAnswers [.ioerr] atSeed; s.lastSeedDue false ∧ s.seedBytes ≤ s.scrLen
      ∧ s.params.seedMode = .seedEmit ∧ s.params.partialOut = .keepWritten ∧ s.sinkFails)
    ∧ (let s := sinkAnswers [.ioerr] rawOpened; s.phase = .idle ∧ s.sess = .notStarted ∧ s.sinkFails)
    ∧ ((let s := sinkAnswers [.ioerr] rawStreaming; s.readyToStream .raw ∧ s.sourceAnswers ∧ s.sinkFails
        ∧ ¬ s.curBlock.toInt < s.hdr.blocks.toInt - 1)
      ∧ (let s := sinkAnswers [.ioerr] (rawInner 2); s.readyToStream .raw ∧ s.sourceAnswers ∧ s.sinkFails
        ∧ s.curBlock.toInt < s.hdr.blocks.toInt - 1
        ∧ (s.hdr.blockSize.toInt * s.hdr.bits.toInt.tdiv 8).toNat ≤ s.src.rest.length))
    ∧ (let s := underNone (sinkAnswers [.ioerr] inBlock); s.params.partialOut = .wholeBlocks ∧ 0 < s.total ∧ s.sinkFails)
    ∧ (underNone (sinkAnswers [.ioerr] inBlock)).lastSampleDue :=
  ⟨by decide, by decide, by decide, ⟨by decide, by decide⟩, by decide, inBlock_lastSampleDue _⟩

/-- V-H1: one block, the least there can be. -/
theorem test_witness_OpenRawStream :
    let h := hdrBytes 1 16 44100 (-1) 0 0 4 0 2 0 0
    let s := connected (h ++ [0x64, 0, 0x9C, 0xFF])
    let f := parseHeader h
    let w := f.bits.toInt.tdiv 8
    let m := 65536 * w
    let restSize := (f.dataSize.toInt.tmod m).tdiv w
    let blocks := f.dataSize.toInt.tdiv m + (if 0 < restSize then 1 else 0)
    (s.phase = .idle ∧ s.sourceAnswers ∧ s.src.rest = h ++ [0x64, 0, 0x9C, 0xFF] ∧ h.length = 44)
      ∧ (f.level.toInt = -1 ∧ (f.channels.toInt = 1 ∨ f.channels.toInt = 2) ∧ (f.bits.toInt = 8 ∨ f.bits.toInt = 16))
      ∧ (0 < blocks ∧ blocks ≤ 1000000 ∧ f.dataSize.toInt = f.samples.toInt * w
        ∧ f.samples.toInt = (blocks - 1) * 65536 + restSize) := by decide +kernel

/-- The hypotheses of OPEN's statement for a compressed stream. -/
abbrev opensCompressed (h table rest : List Byte) : Prop :=
  let s := connected (h ++ (table ++ rest))
  let f := parseHeader h
  let w := f.bits.toInt.tdiv 8
  let entry := fun k => (quad32 (table.getD (4 * k) 0) (table.getD (4 * k + 1) 0) (table.getD (4 * k + 2) 0)
    (table.getD (4 * k + 3) 0)).toInt
  (s.phase = .idle ∧ s.src.answers = [] ∧ s.src.rest = h ++ (table ++ rest) ∧ h.length = 44)
    ∧ (0 ≤ f.level.toInt ∧ f.level.toInt ≤ 5) ∧ (f.channels.toInt = 1 ∨ f.channels.toInt = 2)
    ∧ (f.bits.toInt = 8 ∨ f.bits.toInt = 16) ∧ 0 < f.blocks.toInt ∧ f.blocks.toInt ≤ 1000000
    ∧ (table.length : Int) = 4 * f.blocks.toInt ∧ f.dataSize.toInt = f.samples.toInt * w
    ∧ f.samples.toInt = (f.blocks.toInt - 1) * f.blockSize.toInt + f.restSize.toInt
    ∧ entry (f.blocks.toInt.toNat - 1) < f.compSize.toInt

/-- V-H13 (level 0, one block, the last offset just below the size) and V-H19's shape at level 5. -/
theorem test_witness_OpenCompressedStream :
    opensCompressed (hdrBytes 1 16 44100 0 0 1 4 49 2 2 2) (le32 48) []
    ∧ opensCompressed (hdrBytes 2 16 44100 5 1 3 20 200 10 4 2) (le32 56 ++ le32 60 ++ le32 64) [1, 2] := by
  decide +kernel

theorem test_witness_OpenSuccessMeansValidHeader :
    ∃ t, exec .openCmd (connected (hdrBytes 1 16 44100 0 0 1 4 49 2 2 2 ++ le32 48)) = .next t ∧ t.sess ≠ .error := by
  obtain ⟨t, h, e⟩ := exists_of_after
    (o := exec .openCmd (connected (hdrBytes 1 16 44100 0 0 1 4 49 2 2 2 ++ le32 48))) (f := fun t => t.sess)
    (a := .notStarted) (by decide +kernel)
  exact ⟨t, h, by rw [e]; decide⟩

theorem test_witness_TruncatedHeaderRaises :
    ((connected []).phase = .idle ∧ (connected []).sourceAnswers ∧ (connected []).src.rest.length < 44)
    ∧ (connected (List.replicate 43 1)).src.rest.length < 44 := by decide

/-- V-H5 to V-H7, V-H3, V-H16, V-H1; V-H14, V-H8, V-H10, V-H11, V-H9, V-H18, V-H12, V-H13, and a layout error, a depth
error and a sample count of a compressed stream; a source that fails in either read. The second clause: V-H8 (six of
eight bytes) and V-H22 (none of 4,000,000). -/
theorem test_witness_ShortOffsetTableComesFirst :
    ([hdrBytes 1 16 44100 (-1) 0 0 (-5) 0 0 0 0, hdrBytes 1 12 44100 (-1) 0 0 4 0 2 0 0,
        hdrBytes 3 12 44100 (-1) 0 0 4 0 2 0 0, hdrBytes 1 16 44100 (-1) 0 0 131072 0 65536 0 0,
        hdrBytes 1 16 44100 (-1) 0 0 5 0 2 0 0, hdrBytes 1 16 44100 (-1) 0 0 4 0 2 0 0,
        (hdrBytes 1 16 44100 (-1) 0 0 4 0 2 0 0).take 43,
        hdrBytes 3 16 44100 0 0 2 8 100 4 2 2 ++ [0x34, 0, 0, 0, 0x36, 0], hdrBytes 1 16 44100 0 0 1000001 4 100 2 2 2,
        hdrBytes 1 16 44100 0 0 0 4 100 2 2 2, hdrBytes 1 16 44100 6 0 1 4 100 2 2 2 ++ le32 48,
        hdrBytes 1 16 44100 2 0 1 6 100 2 2 2 ++ le32 48, hdrBytes 1 16 44100 0 0 1 4 48 2 2 2 ++ le32 48,
        hdrBytes 1 16 44100 0 0 1 4 49 2 2 2 ++ le32 48, hdrBytes 3 12 44100 0 0 1 4 49 2 2 2 ++ le32 48,
        hdrBytes 2 12 44100 6 0 1 4 49 2 2 2 ++ le32 48, hdrBytes 1 16 44100 0 0 1 4 49 2 2 1 ++ le32 48].map
          (fun b => firstOpenError ⟨b, []⟩)
      = [.blockCountOutOfRange, .unsupportedBitDepth, .unsupportedChannelLayout, .inconsistentSampleCount,
        .inconsistentDataSize, .none, .truncatedHeader, .truncatedOffsetTable, .blockCountOutOfRange,
        .blockCountOutOfRange, .invalidCompressionLevel, .inconsistentDataSize, .lastOffsetOverrunsFile, .none,
        .unsupportedChannelLayout, .unsupportedBitDepth, .inconsistentSampleCount]
      ∧ firstOpenError ⟨[], [.ioerr]⟩ = .sourceReadError
      ∧ firstOpenError ⟨hdrBytes 3 16 44100 0 0 1 4 49 2 2 2, [.ok, .ioerr]⟩ = .sourceReadError
      ∧ (let s := srcAnswers [.ok, .ioerr] (connected []); s.phase = .idle ∧ s.src.answers.headD .ok ≠ .never
        ∧ s.src.answers.tail.headD .ok ≠ .never))
    ∧ (let h := hdrBytes 3 16 44100 0 0 2 8 100 4 2 2
      let rest : List Byte := [0x34, 0, 0, 0, 0x36, 0]
      (connected (h ++ rest)).phase = .idle ∧ (connected (h ++ rest)).src.answers = []
      ∧ (connected (h ++ rest)).src.rest = h ++ rest ∧ h.length = 44 ∧ (parseHeader h).level.toInt ≠ -1
      ∧ 0 < (parseHeader h).blocks.toInt ∧ (parseHeader h).blocks.toInt ≤ 1000000
      ∧ (rest.length : Int) < 4 * (parseHeader h).blocks.toInt)
    ∧ (let h := hdrBytes 1 16 44100 0 0 1000000 4 100 2 2 2;
      (parseHeader h).blocks.toInt ≤ 1000000 ∧ 0 < 4 * (parseHeader h).blocks.toInt) := by decide +kernel

/-- V-H3, and the same size with a sample count that does not agree. -/
theorem test_witness_WholeRawBlocksAreRejected :
    ∀ h ∈ [hdrBytes 1 16 44100 (-1) 0 0 131072 0 65536 0 0, hdrBytes 2 8 8000 (-1) 0 0 131072 0 65536 0 0],
      let s := connected (h ++ [1])
      let f := parseHeader h
      (s.phase = .idle ∧ s.sourceAnswers ∧ s.src.rest = h ++ [1] ∧ h.length = 44)
      ∧ f.level.toInt = -1 ∧ (f.channels.toInt = 1 ∨ f.channels.toInt = 2) ∧ (f.bits.toInt = 8 ∨ f.bits.toInt = 16)
      ∧ 0 < f.dataSize.toInt ∧ f.dataSize.toInt.tmod (65536 * f.bits.toInt.tdiv 8) = 0 := by decide +kernel

theorem test_witness_OpenNeverWritesTheSink : ∃ t, exec .openCmd blockZero = .next t ∧ t.sess = .error :=
  exists_of_after (f := fun t => t.sess) (by decide +kernel)

/-- A session in progress and the reset state, in the same environment. -/
theorem test_witness_OpenForgetsThePreviousSession :
    let u := connected blockZero.src.rest
    blockZero.phase = .idle ∧ u.phase = .idle ∧ blockZero.src = u.src ∧ blockZero.sink = u.sink
      ∧ blockZero.host = u.host ∧ blockZero.busData = u.busData ∧ blockZero.freeCtr = u.freeCtr
      ∧ blockZero.params = u.params := by decide

theorem test_witness_NextOutsideASession :
    (State.reset.phase = .idle ∧ State.reset.sess = .idle) ∧ (failed.phase = .idle ∧ failed.sess = .error)
    ∧ (({ rawStreaming with sess := .finished, curBlock := 1 } : State).phase = .idle
      ∧ ({ rawStreaming with sess := .finished, curBlock := 1 } : State).sess = .finished) := by decide

theorem test_witness_NextWritesTheWavHeader :
    rawOpened.phase = .idle ∧ rawOpened.sess = .notStarted ∧ rawOpened.sinkAccepts := by decide

/-- The last block with exactly its bytes, and a block before it with exactly its bytes. -/
theorem test_witness_RawBlockIsCopied :
    (rawStreaming.readyToStream .raw ∧ rawStreaming.sourceAnswers ∧ rawStreaming.sinkAccepts
      ∧ (rawStreaming.hdr.restSize.toInt * rawStreaming.hdr.bits.toInt.tdiv 8).toNat ≤ rawStreaming.src.rest.length
      ∧ ¬ rawStreaming.curBlock.toInt < rawStreaming.hdr.blocks.toInt - 1)
    ∧ ((rawInner 2).readyToStream .raw ∧ (rawInner 2).sourceAnswers ∧ (rawInner 2).sinkAccepts
      ∧ ((rawInner 2).hdr.blockSize.toInt * (rawInner 2).hdr.bits.toInt.tdiv 8).toNat ≤ (rawInner 2).src.rest.length
      ∧ (rawInner 2).curBlock.toInt < (rawInner 2).hdr.blocks.toInt - 1) := by decide

/-- One byte short at the final block and at another one, and a source that fails at both. -/
theorem test_witness_ShortRawReads :
    (let s : State := { rawStreaming with src := ⟨[0x64, 0, 0x9C], []⟩ };
      s.readyToStream .raw ∧ s.sourceAnswers ∧ s.sinkAccepts ∧ s.curBlock.toInt = s.hdr.blocks.toInt - 1
      ∧ (s.src.rest.length : Int) < s.hdr.restSize.toInt * s.hdr.bits.toInt.tdiv 8)
    ∧ (let s := rawInner 1;
      s.readyToStream .raw ∧ s.sourceAnswers ∧ s.sinkAccepts ∧ s.curBlock.toInt < s.hdr.blocks.toInt - 1
      ∧ (s.src.rest.length : Int) < s.hdr.blockSize.toInt * s.hdr.bits.toInt.tdiv 8)
    ∧ ∀ s ∈ [srcAnswers [.ioerr] rawStreaming, sinkAnswers [.ioerr] (srcAnswers [.ioerr] (rawInner 2))],
      s.readyToStream .raw ∧ s.sourceFails ∧ s.sink.answers.headD .ok ≠ .never := by decide

/-- V-S4 (a length equal to the bound), a length of -1 (as V-S7), a source one byte short, and a source that fails at
an inner block and at the last. -/
theorem test_witness_InnerCompressedBlockErrors :
    (blockZero.readyToStream .compressed ∧ 0 ≤ blockZero.curBlock.toInt
      ∧ blockZero.curBlock.toInt < blockZero.hdr.blocks.toInt - 1)
    ∧ (2 * blockZero.hdr.blockSize.toInt * blockZero.hdr.bits.toInt.tdiv 8
        ≤ ({ blockZero with off := [(0, 52), (1, 60)] } : State).offEntry 1
          - ({ blockZero with off := [(0, 52), (1, 60)] } : State).offEntry 0)
    ∧ (({ blockZero with off := [(0, 52), (1, 51)] } : State).offEntry 1
        - ({ blockZero with off := [(0, 52), (1, 51)] } : State).offEntry 0 < 0)
    ∧ (let s : State := { blockZero with src := ⟨[1, 0, 0, 0, 0, 0], []⟩ };
      0 ≤ s.offEntry 1 - s.offEntry 0
      ∧ s.offEntry 1 - s.offEntry 0 < 2 * s.hdr.blockSize.toInt * s.hdr.bits.toInt.tdiv 8
      ∧ s.sourceAnswers ∧ (s.src.rest.length : Int) < s.offEntry 1 - s.offEntry 0
      ∧ (srcAnswers [.ioerr] s).sourceFails)
    ∧ (let s := srcAnswers [.ioerr] blockOne;
      s.readyToStream .compressed ∧ s.curBlock.toInt = s.hdr.blocks.toInt - 1
      ∧ 0 < 2 * s.hdr.blockSize.toInt * s.hdr.bits.toInt.tdiv 8 ∧ s.sourceFails) := by
  decide +kernel

/-- V-S12's last block: no samples, a positive block size; without a capacity and with one of exactly the bytes read. -/
theorem test_witness_EmptyFinalBlock :
    ∀ s ∈ [blockOne, capped 8 blockOne].map (fun s => { s with hdr := ⟨1, 16, 44100, 0, 0, 2, 4, 57, 2, 2, 0⟩ }),
      s.readyToStream .compressed ∧ s.sourceAnswers ∧ (s.hdr.bits = 8 ∨ s.hdr.bits = 16) ∧ 0 ≤ s.curBlock.toInt
      ∧ s.curBlock.toInt = s.hdr.blocks.toInt - 1 ∧ s.hdr.restSize.toInt ≤ 0
      ∧ s.scratchHolds (min (2 * s.hdr.blockSize.toInt * s.hdr.bits.toInt.tdiv 8) s.src.rest.length)
      ∧ 0 < s.hdr.blockSize.toInt := by decide

theorem blockZero_legal : blockZero.sessionLegal := streaming_legal (by decide) (by decide +kernel)

theorem blockOne_legal : blockOne.sessionLegal := streaming_legal (by decide) (by decide +kernel)

/-- The hypotheses of the completion of a compressed block, but for the session's legality. -/
abbrev ample (s : State) : Prop :=
  let inner := s.curBlock.toInt < s.hdr.blocks.toInt - 1
  let w := s.hdr.bits.toInt.tdiv 8
  let bound := 2 * s.hdr.blockSize.toInt * w
  let len := s.offEntry (s.curBlock.toNat + 1) - s.offEntry s.curBlock.toNat
  let samples := if inner then s.hdr.blockSize.toInt else s.hdr.restSize.toInt
  let got : Int := if inner then len else min bound s.src.rest.length
  (s.readyToStream .compressed ∧ s.sourceAnswers ∧ s.sinkAlwaysAccepts)
    ∧ s.scratchHolds got ∧ (inner → 0 ≤ len ∧ len < bound ∧ len ≤ s.src.rest.length)
    ∧ 8 * (s.hdr.channels.toInt * w) + 14 * max 0 samples < 8 * got

/-- An inner block of 7 bytes and a last block of 8, for 2 samples of 16 bits each; a capacity of exactly the bytes
read. -/
theorem test_witness_AmpleBlockCompletes :
    (ample blockZero ∧ ample (capped 7 blockZero) ∧ blockZero.sessionLegal ∧ (capped 7 blockZero).sessionLegal
      ∧ blockZero.curBlock.toInt < blockZero.hdr.blocks.toInt - 1)
    ∧ (ample blockOne ∧ ample (capped 8 blockOne) ∧ blockOne.sessionLegal ∧ (capped 8 blockOne).sessionLegal
      ∧ ¬ blockOne.curBlock.toInt < blockOne.hdr.blocks.toInt - 1) :=
  ⟨⟨by decide +kernel, by decide +kernel, blockZero_legal, blockZero_legal, by decide⟩,
    ⟨by decide +kernel, by decide +kernel, blockOne_legal, blockOne_legal, by decide⟩⟩

/-- Both blocks complete, under PREFIX and under NONE. -/
theorem next_completes : ∀ s ∈ [blockZero, blockOne, underNone blockZero, underNone blockOne],
    ∃ t, exec .nextCmd s = .next t ∧ t.sess ≠ .error := by
  have h : ∀ s ∈ [blockZero, blockOne, underNone blockZero, underNone blockOne],
      after (exec .nextCmd s) (fun t => decide (t.sess ≠ .error)) = some true := by decide +kernel
  intro s hs
  obtain ⟨t, ht, e⟩ := exists_of_after (h s hs)
  exact ⟨t, ht, of_decide_eq_true e⟩

theorem test_witness_CompletedBlockAccounting :
    ∀ s ∈ [blockZero, blockOne], s.readyToStream .compressed ∧ s.sessionLegal
      ∧ ∃ t, exec .nextCmd s = .next t ∧ t.sess ≠ .error := by
  intro s hs
  have hn := next_completes s (by simp only [List.mem_cons] at hs ⊢; tauto)
  simp only [List.mem_cons, List.not_mem_nil, or_false] at hs
  rcases hs with rfl | rfl
  · exact ⟨by decide, blockZero_legal, hn⟩
  · exact ⟨by decide, blockOne_legal, hn⟩

/-- An inner block and the last. -/
theorem test_witness_NextIsARunOfSteps :
    ∀ s ∈ [blockZero, blockOne], s.readyToStream .compressed ∧ 0 ≤ s.curBlock.toInt
      ∧ (∃ u, startBlock s = .next u ∧ u.phase ≠ .idle) ∧ ∃ t, exec .nextCmd s = .next t := by
  intro s hs
  have hn := (next_completes s (by simp only [List.mem_cons] at hs ⊢; tauto)).imp fun _ h => h.1
  simp only [List.mem_cons, List.not_mem_nil, or_false] at hs
  rcases hs with rfl | rfl
  · exact ⟨by decide, by decide, next_with (by decide +kernel), hn⟩
  · exact ⟨by decide, by decide, next_with (by decide +kernel), hn⟩

theorem test_witness_CompletedBlocksAgreeAcrossOutputModes :
    blockZero.readyToStream .compressed ∧ blockZero.sink.answers = [] ∧ blockZero.params.partialOut = .keepWritten
      ∧ ∃ t, exec .nextCmd blockZero = .next t ∧ t.sess ≠ .error :=
  ⟨by decide, by decide, by decide, next_completes blockZero (by simp)⟩

theorem test_witness_BlocksAreIndependent :
    let u : State := { blockOne with running0 := 9, running1 := 8, flip := true, runlength := 7, scratch := [(3, 1)]
                                     scrLen := 4, brBase := 1, brLen := 2, brPos := 3, total := 5, idx := 6 }
    blockOne.phase = .idle ∧ u = { blockOne with
        running0 := u.running0, running1 := u.running1, flip := u.flip, runlength := u.runlength
        scratch := u.scratch, scrLen := u.scrLen, brBase := u.brBase, brLen := u.brLen, brPos := u.brPos
        total := u.total, idx := u.idx }
      ∧ ∃ t, exec .nextCmd blockOne = .next t :=
  ⟨by decide, rfl, (next_completes blockOne (by simp)).imp fun _ h => h.1⟩

/-- P1: two NEXTs are not yet the end, three are. -/
theorem test_witness_NextsUntilEnd :
    (rawOpened.phase = .idle ∧ rawOpened.sess = .notStarted ∧ rawOpened.sessionLegal ∧ rawOpened.result ≠ .finish)
    ∧ (∃ t, nexts 2 rawOpened = .next t ∧ (t.sess, t.result) = (SessState.finished, CmdResult.chunk))
    ∧ ∃ t, nexts 3 rawOpened = .next t ∧ (t.sess, t.result) = (SessState.finished, CmdResult.finish) :=
  ⟨⟨by decide, by decide, notStarted_legal (by decide) (by decide +kernel), by decide⟩,
    exists_of_after (f := fun t => (t.sess, t.result)) (by decide +kernel),
    exists_of_after (f := fun t => (t.sess, t.result)) (by decide +kernel)⟩

/-- The ten requests: OPEN's two reads, the reads of a raw, an inner and a last block, the WAV header, a raw block's
bytes (a final block, and one whose read failed), a code's sample, a seed's, and the end of a block under NONE. -/
theorem test_witness_UnansweredRequestIsStuck :
    ((srcAnswers [.never] (connected [])).phase = .idle ∧ (srcAnswers [.never] (connected [])).sourceSilent)
    ∧ (let h := hdrBytes 1 16 44100 0 0 1 4 49 2 2 2
      let s := srcAnswers [.ok, .never] (connected h)
      s.phase = .idle ∧ s.sourceAnswers ∧ s.src.answers.tail.headD .ok = .never ∧ s.src.rest = h ++ []
      ∧ h.length = 44 ∧ (parseHeader h).level.toInt ≠ -1 ∧ 0 < (parseHeader h).blocks.toInt
      ∧ (parseHeader h).blocks.toInt ≤ 1000000)
    ∧ (let s := srcAnswers [.never] rawStreaming; s.readyToStream .raw ∧ s.sourceSilent)
    ∧ ((let s := srcAnswers [.never] blockZero; s.readyToStream .compressed ∧ s.sourceSilent ∧ 0 ≤ s.curBlock.toInt
        ∧ s.curBlock.toInt < s.hdr.blocks.toInt - 1 ∧ 0 ≤ s.offEntry 1 - s.offEntry 0
        ∧ s.offEntry 1 - s.offEntry 0 < 2 * s.hdr.blockSize.toInt * s.hdr.bits.toInt.tdiv 8)
      ∧ (let s := srcAnswers [.never] blockOne; s.readyToStream .compressed ∧ s.sourceSilent
        ∧ s.curBlock.toInt = s.hdr.blocks.toInt - 1 ∧ 0 < 2 * s.hdr.blockSize.toInt * s.hdr.bits.toInt.tdiv 8))
    ∧ (let s := sinkAnswers [.never] rawOpened; s.phase = .idle ∧ s.sess = .notStarted ∧ s.sinkSilent)
    ∧ ((let s := underNone (sinkAnswers [.never] rawStreaming); s.readyToStream .raw ∧ ¬ s.sourceSilent ∧ s.sinkSilent
        ∧ s.sourceAnswers ∧ ¬ s.curBlock.toInt < s.hdr.blocks.toInt - 1)
      ∧ (let s := srcAnswers [.ioerr] (sinkAnswers [.never] rawStreaming); s.readyToStream .raw ∧ ¬ s.sourceSilent
        ∧ s.sinkSilent ∧ s.params.partialOut = .keepWritten))
    ∧ (Instr.decidesSample .zero = true ∧ (sinkAnswers [.never] inBlock).params.partialOut = .keepWritten
      ∧ (sinkAnswers [.never] inBlock).sinkSilent)
    ∧ (let s := sinkAnswers [.never] atSeed; s.lastSeedDue false ∧ s.seedBytes ≤ s.scrLen
      ∧ s.params.seedMode = .seedEmit ∧ s.params.partialOut = .keepWritten ∧ s.sinkSilent)
    ∧ (let s := underNone (sinkAnswers [.never] inBlock); s.params.partialOut = .wholeBlocks ∧ 0 < s.total
      ∧ s.sinkSilent)
    ∧ (underNone (sinkAnswers [.never] inBlock)).lastSampleDue :=
  ⟨by decide, by decide +kernel, by decide, ⟨by decide, by decide⟩, by decide, ⟨by decide, by decide⟩, by decide,
    by decide, by decide, inBlock_lastSampleDue _⟩

/-- A capacity one byte below what the read returns, for an inner block and for the last. -/
theorem test_witness_ScratchCapacityRefusal :
    (let s := capped 6 blockZero;
      s.readyToStream .compressed ∧ s.params.maxScratch = some 6 ∧ s.sourceAnswers ∧ 0 ≤ s.curBlock.toInt
      ∧ 6 < s.src.rest.length ∧ s.curBlock.toInt < s.hdr.blocks.toInt - 1
      ∧ (let len := s.offEntry (s.curBlock.toNat + 1) - s.offEntry s.curBlock.toNat;
        (6 : Int) < len ∧ len < 2 * s.hdr.blockSize.toInt * s.hdr.bits.toInt.tdiv 8 ∧ len ≤ s.src.rest.length))
    ∧ (let s := capped 7 blockOne;
      s.readyToStream .compressed ∧ s.params.maxScratch = some 7 ∧ s.sourceAnswers ∧ 0 ≤ s.curBlock.toInt
      ∧ 7 < s.src.rest.length ∧ s.curBlock.toInt = s.hdr.blocks.toInt - 1
      ∧ (7 : Int) < 2 * s.hdr.blockSize.toInt * s.hdr.bits.toInt.tdiv 8) := by decide +kernel

theorem test_witness_OnlyOpenAndResetLeaveError :
    (hostDoes (.write 0 3) failed).phase = .idle ∧ (hostDoes (.write 0 3) failed).sess = .error
      ∧ ∃ t, step (hostDoes (.write 0 3) failed) = .next t ∧ t.sess = .idle :=
  ⟨by decide, by decide, exists_of_after (f := fun t => t.sess) (by decide +kernel)⟩

/-- A step that writes the sink: NEXT of a block. -/
theorem test_witness_SinkIsAppendOnly :
    (∃ t, step (hostDoes (.write 0 2) blockZero) = .next t ∧ t.sink.bytes = [1, 0, 1, 0])
      ∧ ∀ answers rest, (hostDoes (.write 0 2) blockZero).host ≠ .connectSink answers :: rest :=
  ⟨exists_of_after (f := fun t => t.sink.bytes) (by decide +kernel), fun _ _ h => by cases h⟩

theorem test_witness_BusyIsNeverObserved : (hostDoes (.write 0 2) blockZero).busy = false
    ∧ ∃ t, step (hostDoes (.write 0 2) blockZero) = .next t ∧ t.curBlock = 1 :=
  ⟨by decide, exists_of_after (f := fun t => t.curBlock) (by decide +kernel)⟩

/-- A step outside a block and one inside. -/
theorem test_witness_StepKeepsRamsCanonical :
    ((hostDoes (.write 0 2) blockZero).ramsCanonical
      ∧ ∃ t, step (hostDoes (.write 0 2) blockZero) = .next t ∧ t.scratch.length = 7)
    ∧ (inBlock.ramsCanonical ∧ ∃ t, step inBlock = .next t ∧ t.idx = 2) :=
  ⟨⟨by decide, exists_of_after (f := fun t => t.scratch.length) (by decide +kernel)⟩,
    ⟨by decide, exists_of_after (f := fun t => t.idx) (by decide +kernel)⟩⟩

/-- An 8-bit mono block at the ends of the range, run-length off. -/
theorem test_witness_StepKeepsDatapathLegal :
    let s : State := { inCodes 1 8 0 0 127 with
      running1 := -128, scratch := ramLoad 0 [127, 9, 0], scrLen := 3, brBase := 1, brLen := 2 }
    s.narrow = true ∧ s.samplesInRange ∧ s.stereo = false ∧ s.rleOn = false ∧ s.datapathLegal
      ∧ ∃ t, step s = .next t ∧ t.running0.toInt = -121 :=
  ⟨by decide, by decide, by decide, by decide, by decide,
    exists_of_after (f := fun t => t.running0.toInt) (by decide +kernel)⟩

theorem inBlock_legal : inBlock.sessionLegal := streaming_legal (by decide) (by decide +kernel)

/-- A step outside a block and one inside. -/
theorem test_witness_StepKeepsSessionLegal :
    ((hostDoes (.write 0 2) blockZero).sessionLegal ∧ (hostDoes (.write 0 2) blockZero).decodeLegal
      ∧ ∃ t, step (hostDoes (.write 0 2) blockZero) = .next t ∧ t.curBlock = 1)
    ∧ (inBlock.sessionLegal ∧ inBlock.decodeLegal ∧ ∃ t, step inBlock = .next t ∧ t.idx = 2) :=
  ⟨⟨streaming_legal (by decide) (by decide +kernel), by decide,
      exists_of_after (f := fun t => t.curBlock) (by decide +kernel)⟩,
    ⟨inBlock_legal, by decide, exists_of_after (f := fun t => t.idx) (by decide +kernel)⟩⟩

end Sys2Proof.Tests
end

section
/-! PROOFS. The little-endian integers of R13 and R207: writing an integer's bytes and reading them back. -/

namespace Sys2Proof.Machine

/-- Reading the two bytes of a 16-bit pattern gives the pattern back (R13). -/
theorem pair16_extract (x : BitVec 16) : pair16 (x.extractLsb' 0 8) (x.extractLsb' 8 8) = x := by
  have join : (x.extractLsb' 8 8 ++ x.extractLsb' 0 8 : BitVec (8 + 8)) = x.extractLsb' 0 16 :=
    BitVec.extractLsb'_append_extractLsb'_eq_extractLsb' rfl
  exact join.trans BitVec.extractLsb'_eq_self

/-- Reading the four bytes of a 32-bit pattern gives the pattern back (R13). -/
theorem quad32_extract (x : Word) :
    quad32 (x.extractLsb' 0 8) (x.extractLsb' 8 8) (x.extractLsb' 16 8) (x.extractLsb' 24 8) = x := by
  have low : (x.extractLsb' 8 8 ++ x.extractLsb' 0 8 : BitVec (8 + 8)) = x.extractLsb' 0 16 :=
    BitVec.extractLsb'_append_extractLsb'_eq_extractLsb' rfl
  have mid : (x.extractLsb' 16 8 ++ x.extractLsb' 0 16 : BitVec (8 + 16)) = x.extractLsb' 0 24 :=
    BitVec.extractLsb'_append_extractLsb'_eq_extractLsb' rfl
  have top : (x.extractLsb' 24 8 ++ x.extractLsb' 0 24 : BitVec (8 + 24)) = x.extractLsb' 0 32 :=
    BitVec.extractLsb'_append_extractLsb'_eq_extractLsb' rfl
  calc quad32 _ _ _ _
      = (x.extractLsb' 24 8 ++ (x.extractLsb' 16 8 ++ (x.extractLsb' 8 8 ++ x.extractLsb' 0 8)) :
          BitVec (8 + (8 + (8 + 8)))) := rfl
    _ = x.extractLsb' 0 32 := by rw [low, mid, top]
    _ = x := BitVec.extractLsb'_eq_self

/-- The number of an integer's pattern is its residue (`mod 2^w` of R13). -/
theorem toNat_ofInt_eq_emod (w : Nat) (v : Int) : ((BitVec.ofInt w v).toNat : Int) = v % (2 ^ w : Nat) := by
  rw [BitVec.toNat_ofInt, Int.toNat_of_nonneg (Int.emod_nonneg v (by positivity))]

/-- The little-endian number of the bytes `le16` writes (R13). -/
theorem le16_number (v : Int) :
    ((le16 v).foldr (fun b acc => b.toNat + 256 * acc) 0 : Int) = v % 65536 := by
  have number := pair16_toNat ((BitVec.ofInt 16 v).extractLsb' 0 8) ((BitVec.ofInt 16 v).extractLsb' 8 8)
  rw [pair16_extract] at number
  calc ((le16 v).foldr (fun b acc => b.toNat + 256 * acc) 0 : Int)
      = (BitVec.ofInt 16 v).toNat := by rw [number]; simp [le16]
    _ = v % 65536 := toNat_ofInt_eq_emod 16 v

/-- The little-endian number of the bytes `le32` writes (R13). -/
theorem le32_number (v : Int) :
    ((le32 v).foldr (fun b acc => b.toNat + 256 * acc) 0 : Int) = v % 4294967296 := by
  have number := quad32_toNat ((BitVec.ofInt 32 v).extractLsb' 0 8) ((BitVec.ofInt 32 v).extractLsb' 8 8)
    ((BitVec.ofInt 32 v).extractLsb' 16 8) ((BitVec.ofInt 32 v).extractLsb' 24 8)
  rw [quad32_extract] at number
  calc ((le32 v).foldr (fun b acc => b.toNat + 256 * acc) 0 : Int)
      = (BitVec.ofInt 32 v).toNat := by rw [number]; simp [le32]
    _ = v % 4294967296 := toNat_ofInt_eq_emod 32 v

/-- `sint32` of four bytes (R13). -/
theorem quad32_toInt (b0 b1 b2 b3 : Byte) : (quad32 b0 b1 b2 b3).toInt
    = (b0.toNat + 256 * (b1.toNat + 256 * (b2.toNat + 256 * b3.toNat)) : Int).bmod 4294967296 := by
  rw [BitVec.toInt_eq_toNat_bmod, quad32_toNat]; rfl

/-- Settles O9: what is written reads back as the same pattern, and what is read is the number of its bytes. -/
theorem littleEndianIntegers : Obligations.LittleEndianIntegers :=
  ⟨fun v => ⟨rfl, le16_number v⟩, fun v => ⟨rfl, le32_number v⟩, pair16_toInt, quad32_toInt⟩

end Sys2Proof.Machine
end

section
/-! PROOFS. Reset, the register file and the host's accesses (R101 to R103, R150, R350, R401). -/

namespace Sys2Proof.Machine

/-! ### Commands -/

/-- The command is the remainder of CMD modulo 4 (R102). -/
theorem decodeCommand_eq (v : Word) : decodeCommand v =
    if v.toNat % 4 = 0 then .nop else if v.toNat % 4 = 1 then .openCmd
    else if v.toNat % 4 = 2 then .nextCmd else .resetCmd := by
  have low : (v.extractLsb' 0 2).toNat = v.toNat % 4 := by simp
  have lt : v.toNat % 4 < 4 := Nat.mod_lt _ (by decide)
  unfold decodeCommand
  rw [low]
  generalize v.toNat % 4 = r at lt
  interval_cases r <;> rfl

/-- Only the four commands are written to CMD, and each decodes from its value (R350). -/
theorem decodeCommand_of_encode {lvl : Int} {i : Instr} {v : Word} (h : encode lvl i = .command v) :
    decodeCommand v = i := by
  cases i <;> cases h <;> rfl

/-- Settles O4: the two low bits are the remainder modulo 4, and each command's value is one of its own. -/
theorem commandIsTheLowTwoBits : Obligations.CommandIsTheLowTwoBits :=
  ⟨decodeCommand_eq, fun _ _ _ => decodeCommand_of_encode⟩

/-- Settles O18: with no command executing NOP is not refused. -/
theorem nopChangesNothing : Obligations.NopChangesNothing := fun _ h => if_pos h

/-- Clearing a session keeps the environment alone (R151). -/
theorem State.cleared_congr {s u : State} (hsrc : s.src = u.src) (hsink : s.sink = u.sink) (hhost : s.host = u.host)
    (hbus : s.busData = u.busData) (hfree : s.freeCtr = u.freeCtr) (hpar : s.params = u.params) :
    s.cleared = u.cleared := by
  simp only [State.cleared, hsrc, hsink, hhost, hbus, hfree, hpar]

/-- OPEN starts from the cleared state (R400, R401). -/
theorem exec_open_idle {s : State} (h : s.phase = .idle) : exec .openCmd s = openHeader s.cleared := if_pos h

/-- Settles O38: OPEN sees the cleared state only. -/
theorem openForgetsThePreviousSession : Obligations.OpenForgetsThePreviousSession := by
  intro s u hs hu hsrc hsink hhost hbus hfree hpar
  rw [exec_open_idle hs, exec_open_idle hu, State.cleared_congr hsrc hsink hhost hbus hfree hpar]

/-! ### The host's operations -/

/-- A step with an operation pending. -/
theorem step_hostOp {s : State} {op : HostOp} {rest : List HostOp} (hp : s.phase = .idle) (ho : s.host = op :: rest) :
    step s = hostOp exec op { s with host := rest } := by
  rw [step_idle hp, hostStep, ho]

/-- Settles O15: the operation pending is a write of CMD. -/
theorem stepRunsTheCommandWritten : Obligations.StepRunsTheCommandWritten :=
  fun _ _ _ hp ho => step_hostOp hp ho

/-- Settles O17: a write elsewhere, a read, and no operation pending. -/
theorem otherHostAccesses : Obligations.OtherHostAccesses := by
  refine ⟨fun s offset v rest hp ho h0 => ?_, fun s offset rest hp ho => step_hostOp hp ho, fun s hp ho => ?_⟩
  · rw [step_hostOp hp ho]; exact if_neg h0
  · rw [step_idle hp, hostStep, ho]

/-! ### The register file -/

theorem SessState.code_lt (x : SessState) : x.code < 8 := by cases x <;> decide
theorem CmdResult.code_lt (x : CmdResult) : x.code < 4 := by cases x <;> decide
theorem Mode.code_lt (x : Mode) : x.code < 2 := by cases x <;> decide
theorem ErrCode.code_lt (x : ErrCode) : x.code < 16 := by cases x <;> decide

/-- Bit fields of STATUS that do not overlap add up (R103). -/
theorem State.statusWord_toNat (s : State) : s.statusWord.toNat =
    s.sess.code + 8 * s.busy.toNat + 16 * s.result.code + 64 * s.mode.code + 256 * s.errCode.code := by
  have := s.sess.code_lt
  have := s.result.code_lt
  have := s.mode.code_lt
  have := s.errCode.code_lt
  have := s.busy.toNat_lt
  simp only [State.statusWord, BitVec.toNat_ofNat]
  omega

/-- Every field of STATUS holds its code, and the bits outside the fields are 0 (R103). -/
theorem State.statusWord_fields (s : State) :
    (s.statusWord.extractLsb' 0 3).toNat = s.sess.code
    ∧ (s.statusWord.extractLsb' 3 1).toNat = s.busy.toNat
    ∧ (s.statusWord.extractLsb' 4 2).toNat = s.result.code
    ∧ (s.statusWord.extractLsb' 6 1).toNat = s.mode.code
    ∧ (s.statusWord.extractLsb' 7 1).toNat = 0
    ∧ (s.statusWord.extractLsb' 8 8).toNat = s.errCode.code
    ∧ (s.statusWord.extractLsb' 16 16).toNat = 0 := by
  have := s.sess.code_lt
  have := s.result.code_lt
  have := s.mode.code_lt
  have := s.errCode.code_lt
  have := s.busy.toNat_lt
  simp only [BitVec.extractLsb'_toNat, Nat.shiftRight_eq_div_pow, State.statusWord_toNat]
  omega

/-- CMD, and every offset that holds no register, reads 0 (R101). -/
theorem State.regRead_of_no_register (s : State) {offset : Nat}
    (h : offset = 0 ∨ 0x40 ≤ offset ∨ offset % 4 ≠ 0) : s.regRead offset = 0 := by
  unfold State.regRead
  split
  case h_16 => rfl
  all_goals omega

/-- Settles O14: the register map offset by offset, and STATUS field by field. -/
theorem hostReadsTheRegisterFile : Obligations.HostReadsTheRegisterFile := by
  intro s
  obtain ⟨hsess, hbusy, hresult, hmode, h7, herr, h16⟩ := s.statusWord_fields
  refine ⟨rfl, fun _ => s.regRead_of_no_register, ?_, ?_, ?_, ?_, h7, ?_, h16⟩
  · rw [hsess]; cases s.sess <;> rfl
  · rw [hbusy]; cases s.busy <;> rfl
  · rw [hresult]; cases s.result <;> rfl
  · rw [hmode]; cases s.mode <;> rfl
  · rw [herr]; cases s.errCode <;> rfl

/-! ### Reset -/

/-- Settles O12: the values of R150 as the definition of the reset state states them. -/
theorem resetValues : Obligations.ResetValues := by
  refine ⟨?registers, ?header, ?datapath⟩
  case registers => decide
  case header => rfl
  case datapath => decide

/-- Settles O60: the RAMs list nothing, the accumulators are 0 and STATE is IDLE. -/
theorem resetIsLegal : Obligations.ResetIsLegal := by
  refine ⟨by decide, by decide, by decide, ?session, by decide⟩
  exact ⟨by decide, by decide, .inl rfl⟩

end Sys2Proof.Machine
end

section
/-! PROOFS. What every step keeps: an induction principle over the steps, and the elementary changes of which every
iteration of a block decode is made. -/

namespace Sys2Proof.Machine

/-! ### Invariants of a step -/

/-- What the host's own accesses, OPEN, RESET, NEXT and each iteration of a block decode keep, every step keeps; OPEN
and RESET forget the state before (R151). -/
theorem step_keeps {P : State → Prop}
    (environment : ∀ (s : State) (host : List HostOp) (bus : Word) (src : Source) (sink : Sink),
      P s → P { s with host := host, busData := bus, src := src, sink := sink })
    (opening : ∀ s t : State, exec .openCmd s = .next t → P t)
    (clearing : ∀ s : State, P s.cleared)
    (unit : ∀ s t : State, P s → exec .nextCmd s = .next t → P t)
    (iteration : ∀ s t : State, s.phase ≠ .idle → P s → blockStep execInBlock s = .next t → P t)
    {s t : State} (hs : P s) (h : step s = .next t) : P t := by
  by_cases hp : s.phase = .idle
  · rcases step_idle_inv hp h with ⟨_, rfl⟩ | ⟨op, rest, _, hop⟩
    · exact hs
    have hrest : P { s with host := rest } := environment s rest s.busData s.src s.sink hs
    rcases hop with ⟨v, _, hex⟩ | ⟨_, _, _, rfl⟩ | ⟨o, _, rfl⟩ | ⟨src, _, _, rfl⟩ | ⟨a, _, _, rfl⟩
    · rcases decodeCommand_cases v with hc | hc | hc | hc <;> rw [hc] at hex
      · obtain ⟨_, rfl⟩ := nop_inv hex
        exact hrest
      · exact opening _ _ hex
      · exact unit _ _ hrest hex
      · obtain ⟨_, rfl⟩ := reset_inv hex
        exact clearing _
    · exact hrest
    · exact environment s rest (s.regRead o) s.src s.sink hs
    · exact environment s rest s.busData src s.sink hs
    · exact environment s rest s.busData s.src ⟨[], a⟩ hs
  · exact iteration s t hp hs (by rw [← step_busy_inBlock hp]; exact h)

/-! ### No command executes after a command -/

/-- OPEN ends with no command executing (R103). -/
theorem phase_of_open {s t : State} (h : exec .openCmd s = .next t) : t.phase = .idle := by
  obtain ⟨_, _, _, _, _, _, _, hphase, _⟩ := openFrame_open h
  rcases hphase with hphase | hphase <;> exact hphase

/-- NEXT ends with no command executing: a compressed block runs to its end (R103, R221). -/
theorem phase_of_next {s t : State} (h : exec .nextCmd s = .next t) : t.phase = .idle := by
  obtain ⟨hp, hunit⟩ := next_inv h
  rcases hunit with ⟨_, rfl⟩ | ⟨_, rfl⟩ | ⟨_, rfl⟩ | ⟨_, ⟨_, rfl⟩ | rfl⟩ | ⟨_, _, hraw⟩ | ⟨_, _, hcomp⟩
  iterate 3 exact hp
  · rfl
  · exact hp
  · obtain ⟨v, ⟨_, _, _, _, _, _, hphase, _⟩, ⟨_, _, _, _, rfl⟩ | ⟨_, rfl⟩⟩ := rawBlock_inv hraw
    · rfl
    · exact hphase.trans hp
  · obtain ⟨v, _, _, _, ⟨_, _, _, _, rfl⟩ | ⟨rfl, _⟩⟩ := compressedBlock_inv hcomp <;> rfl

theorem State.busy_eq_false_iff (s : State) : s.busy = false ↔ s.phase = .idle := by simp [State.busy]

/-- Settles O56: every command ends with no decode in progress, and no iteration starts in such a state. -/
theorem busyIsNeverObserved : Obligations.BusyIsNeverObserved := by
  intro s t hs h
  rw [State.busy_eq_false_iff] at hs ⊢
  exact step_keeps (P := fun s => s.phase = .idle) (fun _ _ _ _ _ hp => hp) (fun _ _ => phase_of_open)
    (fun _ => rfl) (fun _ _ _ => phase_of_next) (fun _ _ hbusy hp => absurd hp hbusy) hs h

/-! ### The elementary changes of a block decode -/

/-- One elementary change of which the iterations of a block decode are made (R600), whatever the state. -/
inductive DecodeMove : State → State → Prop
  /-- the sink answers a write, with no error raised yet (R234) -/
  | write (s : State) (sink : Sink) (pos ctr : Nat) : DecodeMove s { s with sink := sink, snkPos := pos, freeCtr := ctr }
  /-- a sample's bytes wait for the block's end (R642) -/
  | wait (s : State) (bytes : List Byte) : DecodeMove s { s with outBuf := bytes }
  /-- a sample has been emitted (R640, R641) -/
  | advance (s : State) : DecodeMove s s.advanceSample
  /-- an accumulator is written with an N-bit value (R603, R621, R630) -/
  | sample (s : State) (c : Chan) (v : Sample) (h : s.narrow = true → Sample.fitsByte v) : DecodeMove s (s.setRunning c v)
  /-- a RUN code, or a REPEAT of one (R611 to R613, R632) -/
  | runLength (s : State) (r : BitVec 8) (h : s.rleOn = true ∨ s.runlength ≠ 0) : DecodeMove s { s with runlength := r }
  /-- the bits of a code are consumed (R703) -/
  | read (s : State) (n : Nat) (h : s.brPos + n ≤ 8 * s.brLen) : DecodeMove s (s.advanceBits n)
  /-- the right channel's seed is due (R600) -/
  | otherSeed (s : State) (h : s.stereo = true) : DecodeMove s { s with phase := .seeding true }
  /-- the bitstream begins after the seeds, which were all there (R604, R701) -/
  | start (s : State) (h : s.seedBytes ≤ s.scrLen) : DecodeMove s { s.bitReaderInit with phase := .codes }
  /-- an error is taken (R820) -/
  | raise (s : State) (e : ErrCode) : DecodeMove s (raiseError e s)
  /-- a code's bits run out after some of its fields (R705) -/
  | exhaust (s : State) (n : Nat) : DecodeMove s (raiseError .bitstreamExhausted (s.advanceBits n))
  /-- the block is done (R514, R508) -/
  | finish (s : State) : DecodeMove s s.endBlock

/-- Elementary changes, one after the other. -/
abbrev DecodeMoves : State → State → Prop := Relation.ReflTransGen DecodeMove

/-- What every elementary change keeps, any number of them keeps. -/
theorem DecodeMoves.keep {P : State → Prop} (move : ∀ {s t : State}, DecodeMove s t → P s → P t) {s t : State}
    (h : DecodeMoves s t) (hs : P s) : P t := by
  induction h with
  | refl => exact hs
  | tail _ hm ih => exact move hm ih

/-- An emission (R640, R642). -/
theorem emit_moves {s t : State} (h : emit s = .next t) : DecodeMoves s t := by
  rcases emit_inv h with ⟨k, _, _, rfl⟩ | ⟨_, rfl⟩ | ⟨_, _, rfl⟩
  · exact .tail (.single (.write s _ s.snkPos _)) (.raise _ _)
  · exact .tail (.single (.wait s _)) (.advance _)
  · exact .tail (.single (.write s _ _ s.freeCtr)) (.advance _)

/-- The end of a block (R642, R508). -/
theorem finishBlock_moves {s t : State} (h : finishBlock s = .next t) : DecodeMoves s t := by
  rcases finishBlock_cases s with ⟨_, he⟩ | ⟨_, _, ⟨_, he⟩ | ⟨k, _, he⟩ | ⟨_, he⟩⟩ <;> rw [he] at h <;> cases h
  · exact .single (.finish s)
  · exact .tail (.single (.write s _ s.snkPos _)) (.raise _ _)
  · exact .tail (.single (.write s _ _ s.freeCtr)) (.finish _)

/-- Going on after an operation is its changes, then those of what follows. -/
theorem thenBlock_moves {o : Step} {f : State → Step} {s t : State} (first : ∀ {u}, o = .next u → DecodeMoves s u)
    (second : ∀ {u}, o = .next u → u.phase ≠ .idle → f u = .next t → DecodeMoves u t) (h : thenBlock o f = .next t) :
    DecodeMoves s t := by
  obtain ⟨u, ho, ⟨_, rfl⟩ | ⟨hp, hf⟩⟩ := thenBlock_inv h
  · exact first ho
  · exact (first ho).trans (second ho hp hf)

/-- The loop's test (R600). -/
theorem afterSample_moves {s t : State} (h : afterSample s = .next t) : DecodeMoves s t := by
  rw [afterSample_eq] at h
  split at h
  · exact finishBlock_moves h
  · cases h; exact .refl

/-- The direct emission of the seeds (R605). -/
theorem emitSeeds_moves {n : Nat} {s t : State} (h : emitSeeds n s = .next t) : DecodeMoves s t := by
  induction n generalizing s with
  | zero => cases h; exact .refl
  | succ n ih =>
    unfold emitSeeds at h
    split at h
    · cases h; exact .refl
    · exact thenBlock_moves emit_moves (fun _ _ => ih) h

/-- The start of the bitstream (R701, R605). -/
theorem startCodes_moves {s t : State} (hseeds : s.seedBytes ≤ s.scrLen) (h : startCodes s = .next t) :
    DecodeMoves s t := by
  refine .head (.start s hseeds) ?_
  simp only [startCodes] at h
  split at h
  · exact thenBlock_moves emitSeeds_moves (fun _ _ => afterSample_moves) h
  · exact afterSample_moves h

/-- What follows a seed (R600). -/
theorem afterSeed_moves {c : Chan} {s t : State} (hseeds : s.seedBytes ≤ s.scrLen) (h : afterSeed c s = .next t) :
    DecodeMoves s t := by
  unfold afterSeed at h
  split at h
  · rename_i hc; cases h; exact .single (.otherSeed s hc.2)
  · exact startCodes_moves hseeds h

/-- A byte sign-extended is an 8-bit value. -/
theorem fitsByte_signExtend (b : Byte) : Sample.fitsByte (b.signExtend 16) := by
  have he : (b.signExtend 16).toInt = b.toInt := BitVec.toInt_signExtend_of_le (by decide)
  have := b.toInt_lt
  have := b.le_toInt
  simp only [Sample.fitsByte, he]
  omega

/-- `wrap8` gives an 8-bit value (R650). -/
theorem fitsByte_wrapSample {narrow : Bool} (h : narrow = true) (v : Int) : Sample.fitsByte (wrapSample narrow v) := by
  rw [wrapSample, if_pos h]
  exact fitsByte_signExtend _

/-- A seed of an 8-bit session is an 8-bit value (R603). -/
theorem fitsByte_seedValue {s : State} (h : s.narrow = true) (c : Chan) : Sample.fitsByte (s.seedValue c) := by
  have hbits : s.hdr.bits = 8 := by simpa [State.narrow] using h
  have hw : s.w = 1 := by rw [State.w, hbits]; decide
  rw [State.seedValue, if_pos hw]
  exact fitsByte_signExtend _

/-- A seed that is there, read into its channel (R603, R604). -/
theorem execSeed_inv {c : Chan} {s t : State} (h : execSeed c s = .next t) :
    (s.scrLen < s.seedBytes ∧ t = raiseError .bitstreamExhausted s)
    ∨ (s.seedBytes ≤ s.scrLen ∧ t = s.setRunning c (s.seedValue c)) := by
  unfold execSeed at h
  split at h
  · cases h; exact .inl ⟨‹_›, rfl⟩
  · cases h; exact .inr ⟨by omega, rfl⟩

/-- A code or a REPEAT: `runlength` or the selected accumulator changes, if anything, and a sample is emitted (R606). -/
theorem code_moves {i : Instr} {s t : State} (hi : i.decidesSample = true)
    (hrun : (s.rleOn = true ∨ s.runlength ≠ 0)
      ∨ (i ≠ .run0 ∧ (∀ k, i ≠ .run2 k) ∧ (∀ k, i ≠ .run8 k) ∧ i ≠ .repeatRun))
    (h : execInBlock i s = .next t) : DecodeMoves s t := by
  have counts : ∀ {r}, (s.rleOn = true ∨ s.runlength ≠ 0) → emit { s with runlength := r } = .next t →
      DecodeMoves s t := fun hr he => .head (.runLength s _ hr) (emit_moves he)
  have writes : ∀ {v}, (s.narrow = true → Sample.fitsByte v) → emit (s.setRunning s.flip v) = .next t →
      DecodeMoves s t := fun hv he => .head (.sample s _ _ hv) (emit_moves he)
  cases i
  case skip => exact emit_moves h
  case run0 | run2 | run8 | repeatRun => exact counts (by simpa using hrun) h
  case diff1 | diff2 | diff3 | diff4 | diff5 | diff6 | big => exact writes (fun hn => fitsByte_wrapSample hn _) h
  case zero => exact writes (fun _ => by decide) h
  all_goals cases hi

/-- Every iteration of a block decode is made of elementary changes. -/
theorem blockStep_moves {s t : State} (h : blockStep execInBlock s = .next t) : DecodeMoves s t := by
  unfold blockStep at h
  split at h
  case h_1 => cases h; exact .refl
  case h_2 c _ =>
    refine thenBlock_moves (fun ho => ?_) (fun ho hp hf => ?_) h
    · rcases execSeed_inv ho with ⟨_, rfl⟩ | ⟨_, rfl⟩
      · exact .single (.raise s _)
      · exact .single (.sample s c _ fun hn => fitsByte_seedValue hn c)
    · rcases execSeed_inv ho with ⟨_, rfl⟩ | ⟨hseeds, rfl⟩
      · exact absurd rfl hp
      · refine afterSeed_moves ?_ hf
        simpa [State.seedBytes_congr (State.setRunning_hdr c (s.seedValue c) s)] using hseeds
  case h_3 =>
    split at h
    · exact finishBlock_moves h
    rcases fetchCode_cases s with ⟨hr, hf⟩ | ⟨_, ⟨i, len, hd, hf⟩ | ⟨used, _, hf⟩ | ⟨_, hf⟩⟩ <;> rw [hf] at h
    · exact thenBlock_moves (code_moves rfl (.inl (.inr hr))) (fun _ _ => afterSample_moves) h
    · obtain ⟨hi, hrep, hrle⟩ := decodeCode_kind hd
      obtain ⟨hend, _⟩ := decodeCode_end hd
      refine .head (.read s len hend) (thenBlock_moves (code_moves hi ?_) (fun _ _ => afterSample_moves) h)
      cases hon : s.rleOn
      · obtain ⟨h0, h2, h8⟩ := hrle hon
        exact .inr ⟨h0, h2, h8, hrep⟩
      · exact .inl (.inl hon)
    · cases h; exact .single (.exhaust s used)
    · cases h

end Sys2Proof.Machine
end

section
/-! PROOFS. The RAMs and the datapath: canonical form, the range of 8-bit samples, `flip` in mono and `runlength` with
run-length off (R120, R121, R130, R131, R610, R650). -/

namespace Sys2Proof.Machine

/-! ### The RAMs -/

/-- OPEN leaves both RAMs canonical: what it loads is a fresh list (R411). -/
theorem ramsCanonical_of_open {s t : State} (h : exec .openCmd s = .next t) : t.ramsCanonical := by
  obtain ⟨hscratch, hoff, _⟩ := openFrame_open h
  refine ⟨by rw [hscratch]; exact List.Pairwise.nil, ?_⟩
  rcases hoff with hoff | ⟨l, hoff⟩ <;> rw [hoff]
  · exact List.Pairwise.nil
  · exact ramLoad_wf l 0

/-- NEXT loads at most the scratch, with a fresh list (R512). -/
theorem rams_of_next {s t : State} (h : exec .nextCmd s = .next t) :
    t.off = s.off ∧ (t.scratch = s.scratch ∨ ∃ buf, t.scratch = ramLoad 0 buf) := by
  obtain ⟨_, hunit⟩ := next_inv h
  rcases hunit with ⟨_, rfl⟩ | ⟨_, rfl⟩ | ⟨_, rfl⟩ | ⟨_, ⟨_, rfl⟩ | rfl⟩ | ⟨_, _, hraw⟩ | ⟨_, _, hcomp⟩
  iterate 5 exact ⟨rfl, .inl rfl⟩
  · obtain ⟨v, ⟨hsame, hscratch, _⟩, ⟨_, _, _, _, rfl⟩ | ⟨_, rfl⟩⟩ := rawBlock_inv hraw <;>
      exact ⟨by show v.off = s.off; rw [hsame], .inl hscratch⟩
  · obtain ⟨v, hsame, _, hscratch, ⟨_, _, _, _, rfl⟩ | ⟨rfl, _⟩⟩ := compressedBlock_inv hcomp <;>
      exact ⟨by show v.off = s.off; rw [hsame], hscratch⟩

/-- No elementary change of a block decode touches a RAM. -/
theorem DecodeMove.rams {s t : State} (h : DecodeMove s t) : t.scratch = s.scratch ∧ t.off = s.off := by
  cases h
  case sample c v _ => exact ⟨State.setRunning_scratch c v s, State.setRunning_off c v s⟩
  all_goals exact ⟨rfl, rfl⟩

/-- Settles O57: commands load whole fresh lists, and iterations touch neither RAM. -/
theorem stepKeepsRamsCanonical : Obligations.StepKeepsRamsCanonical := by
  intro s t hs h
  refine step_keeps (P := State.ramsCanonical) (fun _ _ _ _ _ hc => hc) (fun _ _ => ramsCanonical_of_open)
    (fun _ => ⟨List.Pairwise.nil, List.Pairwise.nil⟩) ?next ?iteration hs h
  case next =>
    rintro s t ⟨hscratch, hoff⟩ h
    obtain ⟨hoff', hscratch'⟩ := rams_of_next h
    refine ⟨?_, by rw [hoff']; exact hoff⟩
    rcases hscratch' with hscratch' | ⟨buf, hscratch'⟩ <;> rw [hscratch']
    · exact hscratch
    · exact ramLoad_wf buf 0
  case iteration =>
    intro s t _ hs h
    refine (blockStep_moves h).keep (P := State.ramsCanonical) (fun hm hc => ?_) hs
    obtain ⟨hscratch, hoff⟩ := hm.rams
    rwa [State.ramsCanonical, hscratch, hoff]

/-! ### The datapath -/

/-- The range of the samples is a matter of the accumulators and of the width. -/
theorem State.samplesInRange_congr {s t : State} (hhdr : t.hdr = s.hdr) (h0 : t.running0 = s.running0)
    (h1 : t.running1 = s.running1) (hs : s.samplesInRange) : t.samplesInRange := by
  rwa [State.samplesInRange, State.narrow_congr hhdr, h0, h1]

/-- The rules of `flip` and `runlength` are a matter of those two and of the header. -/
theorem State.datapathLegal_congr {s t : State} (hhdr : t.hdr = s.hdr) (hflip : t.flip = s.flip)
    (hrun : t.runlength = s.runlength) (hs : s.datapathLegal) : t.datapathLegal := by
  rwa [State.datapathLegal, State.stereo_congr hhdr, State.rleOn_congr hhdr, hflip, hrun]

theorem State.samplesInRange_of_zero {t : State} (h0 : t.running0 = 0) (h1 : t.running1 = 0) : t.samplesInRange := by
  rw [State.samplesInRange, h0, h1]
  exact fun _ => by decide

theorem State.datapathLegal_of_zero {t : State} (hflip : t.flip = false) (hrun : t.runlength = 0) :
    t.datapathLegal := ⟨fun _ => hflip, fun _ => hrun⟩

/-- Every elementary change keeps 8-bit sessions at 8-bit values: what is written to an accumulator is one (R650). -/
theorem DecodeMove.samplesInRange {s t : State} (h : DecodeMove s t) (hs : s.samplesInRange) : t.samplesInRange := by
  cases h
  case sample c v hv =>
    intro hn
    rw [State.narrow_congr (State.setRunning_hdr c v s)] at hn
    obtain ⟨h0, h1⟩ := hs hn
    cases c
    · exact ⟨hv hn, h1⟩
    · exact ⟨h0, hv hn⟩
  all_goals exact hs

/-- Every elementary change keeps `flip` 0 in mono and `runlength` 0 with run-length off: an emission moves `flip` in
stereo only, and no RUN code exists with run-length off (R610, R641). -/
theorem DecodeMove.datapathLegal {s t : State} (h : DecodeMove s t) (hs : s.datapathLegal) : t.datapathLegal := by
  obtain ⟨hflip, hrun⟩ := hs
  cases h
  case advance =>
    refine ⟨fun hm => ?_, hrun⟩
    rw [State.stereo_congr (State.advanceSample_hdr s)] at hm
    simpa [hm] using hflip hm
  case sample c v _ =>
    exact State.datapathLegal_congr (State.setRunning_hdr c v s) (State.setRunning_flip c v s)
      (State.setRunning_runlength c v s) ⟨hflip, hrun⟩
  case runLength r hr =>
    refine ⟨hflip, fun hoff => ?_⟩
    rcases hr with hon | hne
    · exact absurd (hon.symm.trans hoff) (by decide)
    · exact absurd (hrun hoff) hne
  all_goals exact ⟨hflip, hrun⟩

/-- The iterations of a block decode, to its end or to the last of them (R600). -/
theorem runBlock_moves {n : Nat} {s t : State} (h : runBlock execInBlock n s = .next t) : DecodeMoves s t := by
  induction n generalizing s with
  | zero => cases h; exact .refl
  | succ n ih =>
    by_cases hp : s.phase = .idle
    · rw [runBlock_idle _ _ _ hp] at h; cases h; exact .refl
    · rw [runBlock_succ _ _ _ hp] at h
      split at h
      · exact (blockStep_moves ‹_›).trans (ih h)
      · cases h
      · cases h

/-- What comes before the decode leaves the accumulators as they are, and `flip` and `runlength` as they are or 0
(R600). -/
abbrev DatapathKept (s t : State) : Prop :=
  t.hdr = s.hdr ∧ t.running0 = s.running0 ∧ t.running1 = s.running1
  ∧ ((t.flip = s.flip ∧ t.runlength = s.runlength) ∨ (t.flip = false ∧ t.runlength = 0))

theorem DatapathKept.samplesInRange {s t : State} (h : DatapathKept s t) (hs : s.samplesInRange) :
    t.samplesInRange := by
  obtain ⟨hhdr, h0, h1, _⟩ := h
  exact State.samplesInRange_congr hhdr h0 h1 hs

theorem DatapathKept.datapathLegal {s t : State} (h : DatapathKept s t) (hs : s.datapathLegal) : t.datapathLegal := by
  obtain ⟨hhdr, _, _, ⟨hflip, hrun⟩ | ⟨hflip, hrun⟩⟩ := h
  · exact State.datapathLegal_congr hhdr hflip hrun hs
  · exact State.datapathLegal_of_zero hflip hrun

/-- The start of a compressed block (R510 to R512, R600). -/
theorem datapathKept_startBlock {s u : State} (h : startBlock s = .next u) : DatapathKept s u := by
  rcases startBlock_inv h with ⟨_, _, v, _, hsame, _, _, _, hflip, hrun, h0, h1, rfl⟩
      | ⟨_, v, hsame, _, _, _, _, h0, h1, hbegin⟩
  · exact ⟨by show v.hdr = s.hdr; rw [hsame], h0, h1, .inl ⟨hflip, hrun⟩⟩
  · have hv : v.hdr = s.hdr := by rw [hsame]
    obtain ⟨x, hx, _, _, _, _, _, _, _, _, _, hrun, hflip, _, x0, x1, hend⟩ := beginDecode_inv hbegin
    have hxv : x.hdr = v.hdr := by rw [hx]
    have kept : DatapathKept s x := ⟨hxv.trans hv, x0.trans h0, x1.trans h1, .inr ⟨hflip, hrun⟩⟩
    rcases hend with ⟨_, rfl⟩ | ⟨_, _, rfl⟩ <;> exact kept

/-- NEXT leaves the datapath as it is, but for clearing `flip` and `runlength` and for the iterations of a compressed
block. -/
theorem next_datapath {s t : State} (h : exec .nextCmd s = .next t) : ∃ u, DatapathKept s u ∧ DecodeMoves u t := by
  have atOnce : DatapathKept s t → ∃ u, DatapathKept s u ∧ DecodeMoves u t := fun hk => ⟨t, hk, .refl⟩
  obtain ⟨_, hunit⟩ := next_inv h
  rcases hunit with ⟨_, rfl⟩ | ⟨_, rfl⟩ | ⟨_, rfl⟩ | ⟨_, ⟨_, rfl⟩ | rfl⟩ | ⟨_, _, hraw⟩ | ⟨_, _, hcomp⟩
  iterate 5 exact atOnce ⟨rfl, rfl, rfl, .inl ⟨rfl, rfl⟩⟩
  · obtain ⟨v, ⟨hsame, _, h0, h1, hflip, hrun, _⟩, hend⟩ := rawBlock_inv hraw
    have kept : DatapathKept s v := ⟨by rw [hsame], h0, h1, .inl ⟨hflip, hrun⟩⟩
    rcases hend with ⟨_, _, _, _, rfl⟩ | ⟨_, rfl⟩ <;> exact atOnce kept
  · unfold compressedBlock at hcomp
    split at hcomp
    · exact ⟨_, datapathKept_startBlock ‹_›, runBlock_moves hcomp⟩
    · cases hcomp
    · cases hcomp

/-- An invariant of the datapath that holds of the cleared one, and that the start of a block and every elementary
change keep, is kept by every step. -/
theorem step_keeps_datapath {P : State → Prop}
    (environment : ∀ (s : State) (host : List HostOp) (bus : Word) (src : Source) (sink : Sink),
      P s → P { s with host := host, busData := bus, src := src, sink := sink })
    (cleared : ∀ t : State, t.running0 = 0 → t.running1 = 0 → t.flip = false → t.runlength = 0 → P t)
    (kept : ∀ {s t : State}, DatapathKept s t → P s → P t) (move : ∀ {s t : State}, DecodeMove s t → P s → P t)
    {s t : State} (hs : P s) (h : step s = .next t) : P t := by
  refine step_keeps environment ?opening (fun _ => cleared _ rfl rfl rfl rfl) ?unit
    (fun _ _ _ hs h => (blockStep_moves h).keep move hs) hs h
  case opening =>
    intro s t h
    obtain ⟨_, _, _, h0, h1, hflip, hrun, _⟩ := openFrame_open h
    exact cleared t h0 h1 hflip hrun
  case unit =>
    intro s t hs h
    obtain ⟨u, hkept, hmoves⟩ := next_datapath h
    exact hmoves.keep move (kept hkept hs)

/-- Settles O58: both invariants hold of the cleared datapath, and every elementary change keeps each. -/
theorem stepKeepsDatapathLegal : Obligations.StepKeepsDatapathLegal := by
  refine fun s t h => ⟨fun hs => ?samples, fun hs => ?datapath⟩
  case samples =>
    exact step_keeps_datapath (P := State.samplesInRange) (fun _ _ _ _ _ hs => hs)
      (fun _ h0 h1 _ _ => State.samplesInRange_of_zero h0 h1) DatapathKept.samplesInRange DecodeMove.samplesInRange hs h
  case datapath =>
    exact step_keeps_datapath (P := State.datapathLegal) (fun _ _ _ _ _ hs => hs)
      (fun _ _ _ hflip hrun => State.datapathLegal_of_zero hflip hrun) DatapathKept.datapathLegal
      DecodeMove.datapathLegal hs h

end Sys2Proof.Machine
end

section
/-! PROOFS. What a successful OPEN has checked and derived: the raw geometry (R407, R409) and the offset table (R411). -/

namespace Sys2Proof.Machine

/-- A register holds the exact value of an integer in its range (R13). -/
theorem toWord_toInt {v : Int} (hlo : -2147483648 ≤ v) (hhi : v < 2147483648) : (toWord v).toInt = v :=
  BitVec.toInt_ofInt_eq_self (by decide) hlo hhi

/-! ### Raw geometry -/

/-- The whole blocks and the rest of `d` bytes of `w`-byte samples (R407): truncated division is division of the
absolute value (R13). -/
theorem rawSplit_of_sign (d : Int) {w : Int} (hw : 0 < w) :
    (0 ≤ d ∧ d.tdiv (65536 * w) = d / (65536 * w) ∧ (d.tmod (65536 * w)).tdiv w = d % (65536 * w) / w)
    ∨ (d < 0 ∧ d.tdiv (65536 * w) = -(-d / (65536 * w))
      ∧ (d.tmod (65536 * w)).tdiv w = -(-d % (65536 * w) / w)) := by
  have hm : 65536 * w ≠ 0 := by omega
  rcases Int.lt_or_le d 0 with h | h
  · have hneg : 0 ≤ -d := by omega
    refine .inr ⟨h, ?_, ?_⟩
    · rw [← Int.tdiv_eq_ediv_of_nonneg hneg, Int.neg_tdiv, neg_neg]
    · rw [← Int.tdiv_eq_ediv_of_nonneg (Int.emod_nonneg _ hm), ← Int.tmod_eq_emod_of_nonneg hneg, Int.neg_tmod,
        Int.neg_tdiv, neg_neg]
  · refine .inl ⟨h, Int.tdiv_eq_ediv_of_nonneg h, ?_⟩
    rw [Int.tmod_eq_emod_of_nonneg h, Int.tdiv_eq_ediv_of_nonneg (Int.emod_nonneg _ hm)]

/-- `w` of a header that passes V1 and V2 (R15, R421). -/
theorem Header.w_of_layout {h : Header} (hl : h.layoutError = none) : h.w = 1 ∨ h.w = 2 := by
  unfold Header.layoutError at hl
  split at hl
  · cases hl
  split at hl
  · cases hl
  · rename_i hb
    rw [Header.w]
    rcases not_not.mp hb with hb | hb <;> rw [hb] <;> decide

theorem Header.blocksInRange_iff (h : Header) :
    h.blocksInRange = true ↔ 1 ≤ h.blocks.toInt ∧ h.blocks.toInt ≤ 1000000 := by
  simp only [Header.blocksInRange, Bool.and_eq_true, decide_eq_true_eq]
  omega

/-- The derived rest and number of blocks fit their registers (R407). -/
theorem Header.deriveRaw_geometry {h : Header} (hw : h.w = 1 ∨ h.w = 2) :
    h.deriveRaw.restSize.toInt = (h.dataSize.toInt.tmod (65536 * h.w)).tdiv h.w
    ∧ h.deriveRaw.blocks.toInt = h.dataSize.toInt.tdiv (65536 * h.w)
        + if 0 < (h.dataSize.toInt.tmod (65536 * h.w)).tdiv h.w then 1 else 0 := by
  have hlo := h.dataSize.le_toInt
  have hhi := h.dataSize.toInt_lt
  have hsplit := rawSplit_of_sign h.dataSize.toInt (w := h.w) (by omega)
  constructor
  · apply toWord_toInt <;> rcases hw with hw | hw <;> rw [hw] at hsplit ⊢ <;> omega
  · apply toWord_toInt <;> rcases hw with hw | hw <;> rw [hw] at hsplit ⊢ <;> omega

/-- A raw stream whose sizes agree (V4, V5) ends in a block that is not empty: a stream of whole
blocks only would have one block too many (R409). -/
theorem Header.deriveRaw_rest_pos {h : Header} (hw : h.w = 1 ∨ h.w = 2)
    (hsize : h.dataSize.toInt = h.samples.toInt * h.w)
    (hcount : h.samples.toInt = (h.deriveRaw.blocks.toInt - 1) * 65536 + h.deriveRaw.restSize.toInt) :
    1 ≤ h.deriveRaw.restSize.toInt := by
  obtain ⟨hrest, hnum⟩ := Header.deriveRaw_geometry hw
  have hsplit := rawSplit_of_sign h.dataSize.toInt (w := h.w) (by omega)
  rw [hrest] at hcount ⊢
  rw [hnum] at hcount
  rcases hw with hw | hw <;> rw [hw] at hsplit hcount hsize ⊢ <;> omega

/-! ### The offset table -/

/-- The table holds one entry for every four bytes (R411). -/
theorem tableEntries_length (bytes : List Byte) : (tableEntries bytes).length = bytes.length / 4 := by
  induction bytes using tableEntries.induct with
  | case1 b0 b1 b2 b3 rest ih => simp only [tableEntries, List.length_cons, ih]; omega
  | case2 bytes hshort =>
    match bytes, hshort with
    | [], _ | [_], _ | [_, _], _ | [_, _, _], _ => simp [tableEntries]
    | b0 :: b1 :: b2 :: b3 :: rest, hshort => exact absurd rfl (hshort b0 b1 b2 b3 rest)

end Sys2Proof.Machine
end

section
/-! PROOFS. STATE, CUR_BLOCK, ERRCODE, ERR_BLOCK and the header agree, and a decode in progress is inside its bounds
(R104, R106, R121, R135, R136, R412, R642). -/

namespace Sys2Proof.Machine

/-! ### The session registers -/

/-- The register value of CUR_BLOCK and ERR_BLOCK outside a session (R150). -/
theorem minusOne_toInt : (-1 : Word).toInt = -1 := by decide

/-- A valid header is a matter of the header registers, the mode and the offset table. -/
theorem State.headerValid_congr {s t : State} (hhdr : t.hdr = s.hdr) (hmode : t.mode = s.mode) (hoff : t.off = s.off)
    (hs : s.headerValid) : t.headerValid := by
  rwa [State.headerValid, hhdr, hmode, hoff, State.offEntry_congr hoff]

theorem State.sessionLegal_iff_of_idle {s : State} (h : s.sess = .idle) :
    s.sessionLegal ↔ s.curBlock.toInt = -1 ∧ s.errBlock.toInt = -1 ∧ (s.errCode = .none ∨ s.errCode = .noSession) := by
  rw [State.sessionLegal, h]

theorem State.sessionLegal_iff_of_notStarted {s : State} (h : s.sess = .notStarted) :
    s.sessionLegal ↔ s.curBlock.toInt = -1 ∧ s.errBlock.toInt = -1 ∧ s.errCode = .none ∧ s.headerValid := by
  rw [State.sessionLegal, h]

theorem State.sessionLegal_iff_of_streaming {s : State} (h : s.sess = .streaming) :
    s.sessionLegal ↔ (0 ≤ s.curBlock.toInt ∧ s.curBlock.toInt < s.hdr.blocks.toInt)
      ∧ s.errBlock.toInt = -1 ∧ s.errCode = .none ∧ s.headerValid := by
  rw [State.sessionLegal, h]

theorem State.sessionLegal_iff_of_finished {s : State} (h : s.sess = .finished) :
    s.sessionLegal ↔ s.curBlock.toInt = s.hdr.blocks.toInt ∧ s.errBlock.toInt = -1 ∧ s.errCode = .none
      ∧ s.headerValid := by
  rw [State.sessionLegal, h]

/-- The agreement is a matter of the session registers, the header and the offset table. -/
theorem State.sessionLegal_congr {s t : State} (hsess : t.sess = s.sess) (hcur : t.curBlock = s.curBlock)
    (herr : t.errBlock = s.errBlock) (hcode : t.errCode = s.errCode) (hhdr : t.hdr = s.hdr) (hmode : t.mode = s.mode)
    (hoff : t.off = s.off) (hs : s.sessionLegal) : t.sessionLegal := by
  have hvalid := State.headerValid_congr hhdr hmode hoff
  unfold State.sessionLegal at hs ⊢
  rw [hsess, hcur, herr, hcode, hhdr]
  cases hx : s.sess <;> rw [hx] at hs
  case idle | error => exact hs
  case notStarted | streaming | finished =>
    obtain ⟨hcur', herr', hcode', hv⟩ := hs
    exact ⟨hcur', herr', hcode', hvalid hv⟩

/-- What a NEXT in STREAMING moves before the register file leaves the agreement as it is. -/
theorem SameButBlock.sessionLegal {s v : State} (h : SameButBlock s v) (hs : s.sessionLegal) : v.sessionLegal := by
  refine State.sessionLegal_congr ?_ ?_ ?_ ?_ ?_ ?_ ?_ hs <;> rw [h]

/-- ERROR records the block at which the error was taken (R106, R820). -/
theorem sessionLegal_raiseFrom {rest0 : List Byte} {e : ErrCode} (he : e ≠ .none) (s : State) :
    (raiseFrom rest0 e s).sessionLegal := ⟨rfl, he⟩

/-- Advance: the next block, or FINISHED after the last (R508). -/
theorem sessionLegal_blockDone {s : State} (len : Int) (hsess : s.sess = .streaming) (hs : s.sessionLegal) :
    (s.blockDone len).sessionLegal := by
  obtain ⟨⟨hlo, hhi⟩, herr, hcode, hvalid⟩ := (State.sessionLegal_iff_of_streaming hsess).mp hs
  have hcur : (s.blockDone len).curBlock.toInt = s.curBlock.toInt + 1 := by
    have := s.hdr.blocks.toInt_lt
    exact toWord_toInt (by omega) (by omega)
  have hvalid' : (s.blockDone len).headerValid := State.headerValid_congr rfl rfl rfl hvalid
  by_cases hlast : s.curBlock.toInt + 1 = s.hdr.blocks.toInt
  · exact (State.sessionLegal_iff_of_finished (if_pos hlast)).mpr ⟨hcur.trans hlast, herr, hcode, hvalid'⟩
  · refine (State.sessionLegal_iff_of_streaming ((if_neg hlast).trans hsess)).mpr ⟨?_, herr, hcode, hvalid'⟩
    rw [hcur, State.blockDone_hdr]
    omega

/-- The end of a compressed block (R514, R508). -/
theorem sessionLegal_endBlock {s : State} (hsess : s.sess = .streaming) (hs : s.sessionLegal) :
    s.endBlock.sessionLegal := sessionLegal_blockDone (s.total * s.w) hsess hs

/-! ### OPEN -/

/-- Validation after the bound check: ERROR with the violation recorded, or NOT_STARTED with a valid header (R412,
R427). -/
theorem sessionLegal_openValidate {s t : State} (hblocks : s.hdr.blocksInRange = true)
    (hmode : s.mode = .raw ↔ s.hdr.level.toInt = -1)
    (hraw : s.mode = .raw → ∃ h : Header, h.layoutError = none ∧ s.hdr = h.deriveRaw)
    (htable : s.mode = .compressed → (s.off.length : Int) = s.hdr.blocks.toInt)
    (h : openValidate s = .next t) : t.sessionLegal := by
  rcases openValidate_inv h with ⟨e, _, he, rfl⟩ | ⟨hviol, rfl⟩
  · exact sessionLegal_raiseFrom he s
  obtain ⟨hch, hbits, hlevel, hsize, hcount, hlast⟩ := violation_none hviol
  refine (State.sessionLegal_iff_of_notStarted rfl).mpr ⟨minusOne_toInt, minusOne_toInt, rfl, hch, hbits, hlevel, hsize, hcount,
    (Header.blocksInRange_iff _).mp hblocks, hmode, fun hm => ?_, fun hm => ⟨htable hm, hlast hm⟩⟩
  obtain ⟨f, hlayout, hf⟩ := hraw hm
  have hblock : s.hdr.blockSize.toInt = 65536 := by rw [hf]; rfl
  refine ⟨hblock, ?_⟩
  rw [hblock] at hcount
  rw [hf] at hsize hcount
  have := Header.deriveRaw_rest_pos (Header.w_of_layout hlayout) hsize hcount
  rw [← hf] at this
  exact this

/-- The offset table has an entry for each block (R411). -/
theorem sessionLegal_openTable {s t : State} (hblocks : s.hdr.blocksInRange = true) (hm : s.mode = .compressed)
    (hlevel : s.hdr.level.toInt ≠ -1) (h : openTable s = .next t) : t.sessionLegal := by
  obtain ⟨hpos, _⟩ := (Header.blocksInRange_iff _).mp hblocks
  unfold openTable at h
  rcases srcRead_cases (4 * s.hdr.blocks.toInt).toNat s with ⟨hr, _⟩ | ⟨k, hr, _⟩ | ⟨hr, hlen, _⟩ | ⟨hr, _⟩ <;>
    rw [hr] at h <;> simp only at h
  · cases h
  · cases h; exact sessionLegal_raiseFrom (by decide) _
  · refine sessionLegal_openValidate ?blocks ?mode ?raw ?table h
    case blocks => exact hblocks
    case mode => exact iff_of_false (by rw [State.consume_mode, hm]; decide) hlevel
    case raw => intro hraw; rw [State.consume_mode, hm] at hraw; cases hraw
    case table =>
      intro _
      rw [ramLoad_length, tableEntries_length, List.length_take, Nat.min_eq_left hlen]
      show (((4 * s.hdr.blocks.toInt).toNat / 4 : Nat) : Int) = s.hdr.blocks.toInt
      omega
  · cases h; exact sessionLegal_raiseFrom (by decide) _

/-- OPEN after the header read, in raw mode and in compressed mode (R405 to R411). -/
theorem sessionLegal_openMode {s t : State} (h : openMode s = .next t) : t.sessionLegal := by
  unfold openMode at h
  split at h
  case isTrue hlevel =>
    split at h
    case h_1 e hlayout =>
      cases h
      refine sessionLegal_raiseFrom ?_ _
      rintro rfl
      unfold Header.layoutError at hlayout
      split at hlayout
      · cases hlayout
      · split at hlayout <;> cases hlayout
    case h_2 hlayout =>
      unfold openBounded at h
      split at h
      · rename_i hblocks
        exact sessionLegal_openValidate hblocks (iff_of_true rfl hlevel) (fun _ => ⟨s.hdr, hlayout, rfl⟩)
          (fun hm => by cases hm) h
      · cases h; exact sessionLegal_raiseFrom (by decide) _
  case isFalse hlevel =>
    unfold openBounded at h
    split at h
    · rename_i hblocks
      exact sessionLegal_openTable hblocks rfl hlevel h
    · cases h; exact sessionLegal_raiseFrom (by decide) _

/-- OPEN ends with the session registers and the header in agreement (R400). -/
theorem sessionLegal_of_open {s t : State} (h : exec .openCmd s = .next t) : t.sessionLegal := by
  have hopen : openHeader s.cleared = .next t := by
    simp only [exec, execOpen, whenReady] at h
    split at h
    · exact h
    · cases h
  unfold openHeader at hopen
  split at hopen
  · cases hopen
  · cases hopen; exact sessionLegal_raiseFrom (by decide) _
  · cases hopen; exact sessionLegal_raiseFrom (by decide) _
  · exact sessionLegal_openMode hopen

/-! ### NEXT -/

/-- NEXT leaves the session registers and the header in agreement (R501 to R508). -/
theorem sessionLegal_of_next {s t : State} (hs : s.sessionLegal) (h : exec .nextCmd s = .next t) :
    t.sessionLegal := by
  obtain ⟨_, hunit⟩ := next_inv h
  rcases hunit with ⟨hsess, rfl⟩ | ⟨hsess, rfl⟩ | ⟨hsess, rfl⟩ | ⟨hsess, ⟨_, rfl⟩ | rfl⟩ | ⟨hsess, _, hraw⟩
      | ⟨hsess, _, hcomp⟩
  · obtain ⟨hcur, herr, _⟩ := (State.sessionLegal_iff_of_idle hsess).mp hs
    exact (State.sessionLegal_iff_of_idle (s := s.reportNoSession) hsess).mpr ⟨hcur, herr, .inr rfl⟩
  · exact State.sessionLegal_congr (s := s) rfl rfl rfl rfl rfl rfl rfl hs
  · exact State.sessionLegal_congr (s := s) rfl rfl rfl rfl rfl rfl rfl hs
  · exact sessionLegal_raiseFrom (by decide) _
  · obtain ⟨_, herr, hcode, hvalid⟩ := (State.sessionLegal_iff_of_notStarted hsess).mp hs
    have ⟨_, _, _, _, _, ⟨hpos, _⟩, _⟩ := hvalid
    exact (State.sessionLegal_iff_of_streaming rfl).mpr
      ⟨⟨Int.le_refl 0, Int.lt_of_lt_of_le Int.zero_lt_one hpos⟩, herr, hcode, State.headerValid_congr rfl rfl rfl hvalid⟩
  · obtain ⟨v, ⟨hsame, _⟩, ⟨_, _, he, _, rfl⟩ | ⟨_, rfl⟩⟩ := rawBlock_inv hraw
    · exact sessionLegal_raiseFrom he v
    · exact sessionLegal_blockDone _ (by rw [hsame]; exact hsess) (hsame.sessionLegal hs)
  · obtain ⟨v, hsame, _, _, ⟨_, _, he, _, rfl⟩ | ⟨rfl, _⟩⟩ := compressedBlock_inv hcomp
    · exact sessionLegal_raiseFrom he v
    · exact sessionLegal_endBlock (by rw [hsame]; exact hsess) (hsame.sessionLegal hs)

/-! ### The decode in progress -/

/-- With no decode in progress nothing waits for a block's end. -/
theorem State.decodeLegal_of_idle {s : State} (hp : s.phase = .idle) (hb : s.outBuf = []) : s.decodeLegal := by
  refine ⟨fun h => absurd hp h, fun h => ?_, fun h => ?_, fun _ => hb⟩ <;> rw [hp] at h <;> cases h

/-- OPEN leaves no decode in progress. -/
theorem decodeLegal_of_open {s t : State} (h : exec .openCmd s = .next t) : t.decodeLegal := by
  refine State.decodeLegal_of_idle (phase_of_open h) ?_
  obtain ⟨_, _, _, _, _, _, _, _, hbuf, _⟩ := openFrame_open h
  rcases hbuf with hbuf | hbuf <;> exact hbuf

/-- NEXT leaves no decode in progress: a compressed block runs to its end (R221). -/
theorem decodeLegal_of_next {s t : State} (hs : s.decodeLegal) (h : exec .nextCmd s = .next t) : t.decodeLegal := by
  refine State.decodeLegal_of_idle (phase_of_next h) ?_
  obtain ⟨hp, hunit⟩ := next_inv h
  obtain ⟨_, _, _, hbuf⟩ := hs
  rcases hunit with ⟨_, rfl⟩ | ⟨_, rfl⟩ | ⟨_, rfl⟩ | ⟨_, ⟨_, rfl⟩ | rfl⟩ | ⟨_, _, hraw⟩ | ⟨_, _, hcomp⟩
  iterate 3 exact hbuf hp
  · rfl
  · exact hbuf hp
  · obtain ⟨v, ⟨_, _, _, _, _, _, _, hv, _⟩, ⟨_, _, _, _, rfl⟩ | ⟨_, rfl⟩⟩ := rawBlock_inv hraw
    · rfl
    · exact hv.trans (hbuf hp)
  · obtain ⟨v, _, _, _, ⟨_, _, _, _, rfl⟩ | ⟨rfl, _⟩⟩ := compressedBlock_inv hcomp <;> rfl

/-- The right channel is seeded in stereo only, and in the code loop the bitstream is what the seeds leave of the
scratch, with the cursor inside it (R135, R603, R701). -/
abbrev State.readerLegal (s : State) : Prop :=
  (s.phase = .seeding true → s.stereo = true)
  ∧ (s.phase = .codes → s.brBase + s.brLen = s.scrLen ∧ s.brPos ≤ 8 * s.brLen)

/-- No elementary change leaves the bounds of the BitReader: it starts once the seeds are known to be there, and
consumes only bits that are. -/
theorem DecodeMove.readerLegal {s t : State} (h : DecodeMove s t) (hs : s.readerLegal) : t.readerLegal := by
  obtain ⟨hseed, hcodes⟩ := hs
  cases h
  case write | wait | advance | runLength => exact ⟨hseed, hcodes⟩
  case sample c v _ => cases c <;> exact ⟨hseed, hcodes⟩
  case read n hn => exact ⟨hseed, fun hp => ⟨(hcodes hp).1, hn⟩⟩
  case otherSeed hst => exact ⟨fun _ => hst, nofun⟩
  case start hfit => exact ⟨nofun, fun _ => ⟨Nat.add_sub_cancel' hfit, Nat.zero_le _⟩⟩
  case raise | exhaust | finish => exact ⟨nofun, nofun⟩

/-- A state in the middle of a legal decode is inside the block that it began. -/
theorem State.inBlock_of_decodeLegal {s : State} (hp : s.phase ≠ .idle) (hs : s.decodeLegal) : InBlock s s := by
  obtain ⟨hbusy, _⟩ := hs
  obtain ⟨_, _, hidx, _⟩ := hbusy hp
  exact ⟨rfl, bytesSoFar_refl s, hidx, Nat.le_refl _, hp⟩

/-- An iteration that stays inside the block stays inside its bounds (R121, R136, R642). -/
theorem decodeLegal_of_inBlock {s t : State} (hp : s.phase ≠ .idle) (hs : s.decodeLegal) (h : InBlock s t)
    (hreader : t.readerLegal) : t.decodeLegal := by
  obtain ⟨hsame, ⟨hkept, hwhole⟩, hidx, _, htp⟩ := h
  obtain ⟨hbusy, _⟩ := hs
  obtain ⟨hsess, hmode, _, hscr, hbuf⟩ := hbusy hp
  obtain ⟨hseed, hcodes⟩ := hreader
  have hkeep : t.sess = s.sess ∧ t.mode = s.mode ∧ t.scratch = s.scratch ∧ t.scrLen = s.scrLen := by
    refine ⟨?_, ?_, ?_, ?_⟩ <;> rw [hsame]
  obtain ⟨hsess', hmode', hscratch', hscrLen'⟩ := hkeep
  have hsize : t.sampleSize = s.sampleSize := by rw [State.sampleSize, State.narrow_congr hsame.hdr, State.sampleSize]
  refine ⟨fun _ => ⟨hsess'.trans hsess, hmode'.trans hmode, hidx, by rw [hscratch', hscrLen', hscr], ?_⟩, hseed,
    hcodes, fun hidle => absurd hidle htp⟩
  have hpar := hsame.params
  cases hout : t.params.partialOut
  · obtain ⟨_, _, _, _, hsamebuf⟩ := hkept hout
    rw [hpar] at hout
    rw [if_neg (by decide), hsamebuf, hbuf, if_neg (by rw [hout]; decide)]
  · obtain ⟨_, _, hlen⟩ := hwhole hout
    rw [hpar] at hout
    rw [if_pos hout] at hbuf
    rw [if_pos rfl, hsize]
    omega

/-- Every iteration keeps the agreement of the session registers and the bounds of the decode. -/
theorem sessionLegal_of_iteration {s t : State} (hp : s.phase ≠ .idle) (hs : s.sessionLegal ∧ s.decodeLegal)
    (h : blockStep execInBlock s = .next t) : t.sessionLegal ∧ t.decodeLegal := by
  obtain ⟨hlegal, hdecode⟩ := hs
  have ⟨hbusy, hseed, hcodes, _⟩ := hdecode
  obtain ⟨hsess, _, hidx, _⟩ := hbusy hp
  rcases blockStep_ended_or_decreases (u := s) (by omega) (State.inBlock_of_decodeLegal hp hdecode) h with
    ⟨v, hsame, _, ⟨e, he, rfl⟩ | ⟨rfl, _⟩⟩ | ⟨hin, _⟩
  · exact ⟨sessionLegal_raiseFrom (by rcases he with rfl | rfl <;> decide) v, State.decodeLegal_of_idle rfl rfl⟩
  · exact ⟨sessionLegal_endBlock (by rw [hsame]; exact hsess) (hsame.keep.sessionLegal hlegal),
      State.decodeLegal_of_idle rfl rfl⟩
  · have hreader : t.readerLegal := (blockStep_moves h).keep DecodeMove.readerLegal ⟨hseed, hcodes⟩
    exact ⟨hin.1.keep.sessionLegal hlegal, decodeLegal_of_inBlock hp hdecode hin hreader⟩

/-- Settles O59: commands by what OPEN and NEXT leave, iterations by how a block decode goes on or ends. -/
theorem stepKeepsSessionLegal : Obligations.StepKeepsSessionLegal := by
  intro s t hs h
  refine step_keeps (P := fun s => s.sessionLegal ∧ s.decodeLegal) ?environment ?opening ?clearing ?unit
    (fun _ _ => sessionLegal_of_iteration) hs h
  case environment =>
    exact fun s _ _ _ _ hs => ⟨State.sessionLegal_congr (s := s) rfl rfl rfl rfl rfl rfl rfl hs.1, hs.2⟩
  case opening => exact fun _ _ h => ⟨sessionLegal_of_open h, decodeLegal_of_open h⟩
  case clearing =>
    exact fun _ => ⟨(State.sessionLegal_iff_of_idle rfl).mpr ⟨minusOne_toInt, minusOne_toInt, .inl rfl⟩,
      State.decodeLegal_of_idle rfl rfl⟩
  case unit => exact fun _ _ hs h => ⟨sessionLegal_of_next hs.1 h, decodeLegal_of_next hs.2 h⟩

end Sys2Proof.Machine
end

section
/-! PROOFS. The sink is append only (R205, R821): nothing a step does removes or changes a byte the sink holds. -/

namespace Sys2Proof.Machine

/-- The bytes the sink holds in `s` are the first it holds in `t` (R205). -/
abbrev SinkGrows (s t : State) : Prop := s.sink.bytes <+: t.sink.bytes

/-- What leaves the sink alone. -/
theorem sinkGrows_of_eq {s t : State} (h : t.sink = s.sink) : SinkGrows s t := by
  rw [SinkGrows, h]

/-! ### A block decode -/

/-- An emission writes the sample, its first bytes, or nothing (R640, R642). -/
theorem emit_sinkGrows {s t : State} (h : emit s = .next t) : SinkGrows s t := by
  rcases emit_inv h with ⟨k, _, _, rfl⟩ | ⟨_, rfl⟩ | ⟨_, _, rfl⟩
  · exact List.prefix_append _ _
  · exact List.prefix_refl _
  · exact List.prefix_append _ _

/-- The end of a block writes what has waited for it, the first bytes of that, or nothing (R642). -/
theorem finishBlock_sinkGrows {s t : State} (h : finishBlock s = .next t) : SinkGrows s t := by
  rcases finishBlock_cases s with ⟨_, he⟩ | ⟨_, _, ⟨_, he⟩ | ⟨k, _, he⟩ | ⟨_, he⟩⟩ <;> rw [he] at h <;> cases h
  · exact List.prefix_refl _
  · exact List.prefix_append _ _
  · exact List.prefix_append _ _

/-- Two operations in sequence only append if each does. -/
theorem thenBlock_sinkGrows {o : Step} {f : State → Step} {s t : State} (first : ∀ {u}, o = .next u → SinkGrows s u)
    (second : ∀ {u}, f u = .next t → SinkGrows u t) (h : thenBlock o f = .next t) : SinkGrows s t := by
  obtain ⟨u, ho, ⟨_, rfl⟩ | ⟨_, hf⟩⟩ := thenBlock_inv h
  · exact first ho
  · exact (first ho).trans (second hf)

/-- The loop's test (R600). -/
theorem afterSample_sinkGrows {s t : State} (h : afterSample s = .next t) : SinkGrows s t := by
  rw [afterSample_eq] at h
  split at h
  · exact finishBlock_sinkGrows h
  · cases h; exact List.prefix_refl _

/-- The direct emission of the seeds (R605). -/
theorem emitSeeds_sinkGrows {n : Nat} {s t : State} (h : emitSeeds n s = .next t) : SinkGrows s t := by
  induction n generalizing s with
  | zero => cases h; exact List.prefix_refl _
  | succ n ih =>
    unfold emitSeeds at h
    split at h
    · cases h; exact List.prefix_refl _
    · exact thenBlock_sinkGrows emit_sinkGrows ih h

/-- What follows a seed: the other channel's, or the start of the bitstream (R600, R605, R701). -/
theorem afterSeed_sinkGrows {c : Chan} {s t : State} (h : afterSeed c s = .next t) : SinkGrows s t := by
  unfold afterSeed at h
  split at h
  · cases h; exact List.prefix_refl _
  · show SinkGrows s.atBitstream t
    rw [startCodes_eq] at h
    split at h
    · exact thenBlock_sinkGrows emitSeeds_sinkGrows afterSample_sinkGrows h
    · exact afterSample_sinkGrows h

/-- A SEED reads the scratch and writes nothing (R603, R604). -/
theorem execSeed_sinkGrows {c : Chan} {s t : State} (h : execSeed c s = .next t) : SinkGrows s t := by
  rcases execSeed_inv h with ⟨_, rfl⟩ | ⟨_, rfl⟩
  · exact List.prefix_refl _
  · exact sinkGrows_of_eq (State.setRunning_sink c _ s)

/-- A code or a REPEAT writes what its emission writes (R606). -/
theorem code_sinkGrows {i : Instr} {s t : State} (hi : i.decidesSample = true) (h : execInBlock i s = .next t) :
    SinkGrows s t := by
  obtain ⟨u, he, hu⟩ := code_is_emit i hi s
  have hsink : u.sink = s.sink := by rw [hu]
  exact (sinkGrows_of_eq hsink).trans (emit_sinkGrows (he.symm.trans h))

/-- One iteration of a block decode, from any state, inside its bounds or not. -/
theorem blockStep_sinkGrows {s t : State} (h : blockStep execInBlock s = .next t) : SinkGrows s t := by
  unfold blockStep at h
  split at h
  case h_1 => cases h; exact List.prefix_refl _
  case h_2 => exact thenBlock_sinkGrows execSeed_sinkGrows afterSeed_sinkGrows h
  case h_3 =>
    split at h
    · exact finishBlock_sinkGrows h
    rcases fetchCode_cases s with ⟨_, hf⟩ | ⟨_, ⟨i, len, hd, hf⟩ | ⟨used, _, hf⟩ | ⟨_, hf⟩⟩ <;> rw [hf] at h
    · exact thenBlock_sinkGrows (code_sinkGrows rfl) afterSample_sinkGrows h
    · obtain ⟨hi, _⟩ := decodeCode_kind hd
      exact thenBlock_sinkGrows (s := s.advanceBits len) (code_sinkGrows hi) afterSample_sinkGrows h
    · cases h; exact List.prefix_refl _
    · cases h

/-! ### Commands -/

/-- NEXT appends to the sink: the WAV header, a raw block's bytes, a compressed block's samples, or the first bytes of
one of these when a write fails (R502, R507, R640, R642). -/
theorem next_sinkGrows {s t : State} (h : exec .nextCmd s = .next t) : SinkGrows s t := by
  obtain ⟨_, hunit⟩ := next_inv h
  rcases hunit with ⟨_, rfl⟩ | ⟨_, rfl⟩ | ⟨_, rfl⟩ | ⟨_, ⟨_, rfl⟩ | rfl⟩ | ⟨_, _, hraw⟩ | ⟨_, _, hcomp⟩
  iterate 3 exact List.prefix_refl _
  iterate 2 exact List.prefix_append _ _
  · obtain ⟨v, ⟨_, _, _, _, _, _, _, _, hgrows⟩, ⟨_, _, _, _, rfl⟩ | ⟨_, rfl⟩⟩ := rawBlock_inv hraw <;> exact hgrows
  · obtain ⟨v, _, hgrows, _, ⟨_, _, _, _, rfl⟩ | ⟨rfl, _⟩⟩ := compressedBlock_inv hcomp <;> exact hgrows

/-- Of the commands only NEXT writes; the others leave the sink alone (R102, R401, R901). -/
theorem command_sinkGrows (v : Word) {s t : State} (h : exec (decodeCommand v) s = .next t) : SinkGrows s t := by
  rcases decodeCommand_cases v with hc | hc | hc | hc <;> rw [hc] at h
  · obtain ⟨_, rfl⟩ := nop_inv h
    exact List.prefix_refl _
  · obtain ⟨_, _, hsink, _⟩ := openFrame_open h
    exact sinkGrows_of_eq hsink
  · exact next_sinkGrows h
  · obtain ⟨_, rfl⟩ := reset_inv h
    exact List.prefix_refl _

/-- Settles O55: iterations and commands append, and of the host's accesses only a connection replaces the sink. -/
theorem sinkIsAppendOnly : Obligations.SinkIsAppendOnly := by
  intro s t h hconnect
  by_cases hp : s.phase = .idle
  · rcases step_idle_inv hp h with ⟨_, rfl⟩ | ⟨op, rest, ho, hop⟩
    · exact List.prefix_refl _
    rcases hop with ⟨v, _, hex⟩ | ⟨_, _, _, rfl⟩ | ⟨_, _, rfl⟩ | ⟨_, _, _, rfl⟩ | ⟨answers, rfl, _, _⟩
    · exact command_sinkGrows (s := { s with host := rest }) v hex
    iterate 3 exact List.prefix_refl _
    · exact absurd ho (hconnect answers rest)
  · exact blockStep_sinkGrows (by rw [← step_busy_inBlock hp]; exact h)

end Sys2Proof.Machine
end

section
/-! PROOFS. The scratch and the bitstream: fields put together (R208), the started block (R510 to R512, R600), its run
in single steps, and the scratch capacity (R210). -/

namespace Sys2Proof.Machine

/-! ### Bit fields -/

/-- Settles O7, by induction on the length of the later field: each of its bits is `2^n` times as high in the whole. -/
theorem laterFieldIsHigherOrder : Obligations.LaterFieldIsHigherOrder := by
  intro byteAt p n k
  induction k with
  | zero => simp [streamField]
  | succ k ih =>
    calc streamField byteAt p (n + (k + 1))
        = streamField byteAt p (n + k) + streamBit byteAt (p + (n + k)) * 2 ^ (n + k) := rfl
      _ = streamField byteAt p n + 2 ^ n * (streamField byteAt (p + n) k + streamBit byteAt (p + n + k) * 2 ^ k) := by
        rw [ih, Nat.pow_add, ← Nat.add_assoc p n k]; ring
      _ = streamField byteAt p n + 2 ^ n * streamField byteAt (p + n) (k + 1) := rfl

/-! ### The scratch capacity -/

/-- More bytes than the scratch RAM holds are refused (R210, R512). -/
theorem loadBlock_refused {size : Int} {buf : List Byte} {s : State} {cap : Nat} (hcap : s.params.maxScratch = some cap)
    (h : cap < buf.length) : loadBlock size buf s = .refused .scratchTooSmall := by
  have exceeded : s.scratchExceeded buf.length = true := by simpa [State.scratchExceeded, hcap] using h
  rw [loadBlock, if_pos exceeded]

/-- An inner block within the guard and the source, but over the capacity (R510, R512). -/
theorem startInnerBlock_refused {s : State} {cap : Nat} (hcap : s.params.maxScratch = some cap) (ha : s.sourceAnswers)
    (hover : (cap : Int) < s.compressedLength) (hguard : s.compressedLength < s.readBound)
    (hthere : s.compressedLength ≤ s.src.rest.length) : startInnerBlock s = .refused .scratchTooSmall := by
  rw [startInnerBlock, if_neg (by omega), srcRead_ok ha (by omega)]
  exact loadBlock_refused hcap (by rw [List.length_take]; omega)

/-- A last block whose read, full or short, returns more bytes than the capacity (R511, R512). -/
theorem startFinalBlock_refused {s : State} {cap : Nat} (hcap : s.params.maxScratch = some cap) (ha : s.sourceAnswers)
    (hover : (cap : Int) < s.readBound) (hthere : cap < s.src.rest.length) :
    startFinalBlock s = .refused .scratchTooSmall := by
  rw [startFinalBlock, if_neg (by omega)]
  by_cases hfull : s.readBound.toNat ≤ s.src.rest.length
  · rw [srcRead_ok ha hfull]
    exact loadBlock_refused hcap (by rw [List.length_take]; omega)
  · rw [srcRead_eof ha (by omega)]
    exact loadBlock_refused hcap hthere

/-- Settles O53: NEXT is refused where the start of its block is. -/
theorem scratchCapacityRefusal : Obligations.ScratchCapacityRefusal := by
  intro s cap hready hcap ha hcur hthere
  have refuses : startBlock s = .refused .scratchTooSmall → exec .nextCmd s = .refused .scratchTooSmall := fun h => by
    rw [next_streaming hready]
    simp only [compressedBlock, h]
  refine ⟨fun hinner hlen => refuses ?inner, fun hlast hbound => refuses ?last⟩
  case inner =>
    obtain ⟨hover, hguard, hlen⟩ := hlen
    rw [← compressedLength_eq s hcur] at hover hguard hlen
    rw [startBlock, if_pos (by simpa [State.notLastBlock] using hinner)]
    exact startInnerBlock_refused hcap ha hover hguard hlen
  case last =>
    rw [startBlock, if_neg (by simp [State.notLastBlock, hlast])]
    exact startFinalBlock_refused hcap ha hbound hthere

/-! ### The started block -/

/-- The number of bytes the read of compressed block CUR_BLOCK takes from the source: its length, or for the last block
at most the bound (R510, R511). -/
def State.bytesTaken (s : State) : Nat :=
  if s.notLastBlock then s.compressedLength.toNat else min s.readBound.toNat s.src.rest.length

/-- `v` is `s` after the next `n` bytes of the source have been loaded into the scratch (R512). -/
abbrev BlockLoaded (n : Nat) (s v : State) : Prop :=
  v.scrLen = n ∧ (∀ a, a < n → some (v.scratchByte a) = s.src.rest[a]?)
  ∧ v.srcPos = s.srcPos + n ∧ v.src.rest = s.src.rest.drop n ∧ v.sink = s.sink ∧ v.hdr = s.hdr

/-- The scratch byte of an index the load has filled (R512). -/
theorem scratchByte_of_load {buf : List Byte} {v : State} (h : v.scratch = ramLoad 0 buf) {a : Nat}
    (ha : a < buf.length) : some (v.scratchByte a) = buf[a]? := by
  simp [State.scratchByte, h, ramRead_ramLoad, ha]

/-- A read that the source answers, loaded into the scratch: as many bytes as are wanted and there (R233, R512). -/
theorem blockLoaded_take (k : Nat) (s : State) :
    BlockLoaded (min k s.src.rest.length) s
      ((s.consume (s.src.rest.take k)).loadScratch (s.src.rest.take k)) := by
  have hlen : (s.src.rest.take k).length = min k s.src.rest.length := List.length_take
  refine ⟨hlen, fun a ha => ?_, by rw [← hlen]; rfl, by rw [← hlen]; rfl, rfl, rfl⟩
  rw [scratchByte_of_load rfl (by omega), List.getElem?_take_of_lt (by omega)]

/-- The start of an inner block that begins a decode has loaded the block's length (R510, R512). -/
theorem startInnerBlock_loads {s u : State} (h : startInnerBlock s = .next u) (hp : u.phase ≠ .idle) :
    ∃ v, BlockLoaded s.compressedLength.toNat s v ∧ beginDecode (s.hdr.blockSize.toInt * s.w) v = .next u := by
  unfold startInnerBlock at h
  split at h
  · cases h; exact absurd rfl hp
  rcases srcRead_cases s.compressedLength.toNat s with ⟨hr, _⟩ | ⟨_, hr, _⟩ | ⟨hr, hthere, _⟩ | ⟨hr, _⟩ <;>
    rw [hr] at h
  · cases h
  · cases h; exact absurd rfl hp
  · have loaded := blockLoaded_take s.compressedLength.toNat s
    rw [Nat.min_eq_left hthere] at loaded
    exact ⟨_, loaded, (loadBlock_inv h).2⟩
  · cases h; exact absurd rfl hp

/-- The start of the last block that begins a decode has loaded what is there, up to the bound (R511, R512). -/
theorem startFinalBlock_loads {s u : State} (h : startFinalBlock s = .next u) (hp : u.phase ≠ .idle) :
    ∃ v, BlockLoaded (min s.readBound.toNat s.src.rest.length) s v
      ∧ beginDecode (s.hdr.restSize.toInt * s.w) v = .next u := by
  have loaded := blockLoaded_take s.readBound.toNat s
  unfold startFinalBlock at h
  split at h
  · have hzero : s.readBound.toNat = 0 := by omega
    refine ⟨s.loadScratch [], ?_, (loadBlock_inv h).2⟩
    rw [hzero, Nat.zero_min]
    exact ⟨rfl, fun _ ha => absurd ha (Nat.not_lt_zero _), rfl, rfl, rfl, rfl⟩
  rcases srcRead_cases s.readBound.toNat s with ⟨hr, _⟩ | ⟨_, hr, _⟩ | ⟨hr, _⟩ | ⟨hr, hshort, _⟩ <;> rw [hr] at h
  · cases h
  · cases h; exact absurd rfl hp
  · exact ⟨_, loaded, (loadBlock_inv h).2⟩
  · rw [List.take_of_length_le (by omega)] at loaded
    exact ⟨_, loaded, (loadBlock_inv h).2⟩

/-- The start of a compressed block that begins a decode (R510 to R512). -/
theorem startBlock_loads {s u : State} (h : startBlock s = .next u) (hp : u.phase ≠ .idle) :
    ∃ v, BlockLoaded s.bytesTaken s v ∧ beginDecode (s.blockSamples * s.w) v = .next u := by
  unfold startBlock at h
  unfold State.bytesTaken State.blockSamples
  split at h
  · rename_i hinner
    rw [if_pos hinner, if_pos hinner]
    exact startInnerBlock_loads h hp
  · rename_i hlast
    rw [if_neg hlast, if_neg hlast]
    exact startFinalBlock_loads h hp

/-- The decode begins at the first seed with `T` samples to emit, and leaves what has been loaded (R600 to R602). -/
theorem beginDecode_starts {n : Nat} {size : Int} {s v u : State} (hv : BlockLoaded n s v)
    (h : beginDecode size v = .next u) (hp : u.phase ≠ .idle) :
    BlockLoaded n s u ∧ u.phase = .seeding false ∧ u.idx = 0 ∧ u.runlength = 0 ∧ u.flip = false
      ∧ u.total = (size.tdiv s.w).toNat ∧ 0 < u.total := by
  obtain ⟨hlen, hbytes, hpos, hrest, hsink, hhdr⟩ := hv
  obtain ⟨x, hsame, xscratch, xlen, xsink, _, xsrc, xpos, _, xidx, _, xrun, xflip, xtotal, _, _, hend⟩ :=
    beginDecode_inv h
  rcases hend with ⟨_, rfl⟩ | ⟨htotal, hphase, rfl⟩
  · exact absurd rfl hp
  · have xhdr : u.hdr = v.hdr := by rw [hsame]
    refine ⟨⟨xlen.trans hlen, fun a ha => ?_, xpos.trans hpos, ?_, xsink.trans hsink, xhdr.trans hhdr⟩,
      hphase, xidx, xrun, xflip, by rw [xtotal, State.w_congr hhdr], htotal⟩
    · rw [State.scratchByte_congr xscratch, hbytes a ha]
    · rw [xsrc, hrest]

/-- A started block: its bytes in the scratch, at its first seed (R510 to R512, R600 to R602). -/
theorem startBlock_starts {s u : State} (h : startBlock s = .next u) (hp : u.phase ≠ .idle) :
    BlockLoaded s.bytesTaken s u ∧ u.phase = .seeding false ∧ u.idx = 0 ∧ u.runlength = 0 ∧ u.flip = false
      ∧ u.total = ((s.blockSamples * s.w).tdiv s.w).toNat ∧ 0 < u.total := by
  obtain ⟨v, hloaded, hbegin⟩ := startBlock_loads h hp
  exact beginDecode_starts hloaded hbegin hp

/-! ### The run of a block -/

/-- A run of iterations is as many steps of the machine, up to the block's end, each from inside the block (R232,
R606). -/
theorem run_of_runBlock {fuel : Nat} {u t : State} (h : runBlock execInBlock fuel u = .next t) :
    ∃ n, Sys2Proof.core.run n u = .next t
      ∧ ∀ k, k < n → ∃ v, Sys2Proof.core.run k u = .next v ∧ v.phase ≠ .idle := by
  induction fuel generalizing u with
  | zero => exact ⟨0, h, fun k hk => absurd hk (Nat.not_lt_zero k)⟩
  | succ fuel ih =>
    by_cases hp : u.phase = .idle
    · rw [runBlock_idle _ _ _ hp] at h
      exact ⟨0, h, fun k hk => absurd hk (Nat.not_lt_zero k)⟩
    rw [runBlock_succ _ _ _ hp] at h
    split at h
    case h_2 => cases h
    case h_3 => cases h
    case h_1 v hv =>
      have hstep : step u = .next v := (step_busy_inBlock hp).trans hv
      obtain ⟨n, hrun, hinside⟩ := ih h
      refine ⟨n + 1, (run_succ_of_step n hstep).trans hrun, fun k hk => ?_⟩
      cases k with
      | zero => exact ⟨u, rfl, hp⟩
      | succ k =>
        rw [run_succ_of_step k hstep]
        exact hinside k (by omega)

/-- A started block's fuel ends it (R600). -/
theorem started_block_ends {u t : State} (hphase : u.phase = .seeding false) (hidx : u.idx = 0) (htotal : 0 < u.total)
    (h : runBlock execInBlock u.blockFuel u = .next t) : t.phase = .idle := by
  have inside : InBlock u u := ⟨rfl, bytesSoFar_refl u, by omega, Nat.le_refl _, by simp [hphase]⟩
  exact phase_of_blockEnded (runBlock_ended htotal _ _ _ inside (iterationsLeft_begin hphase) h)

/-- Settles O47: the started block is what its read and the start of the decode leave, and NEXT runs its iterations. -/
theorem nextIsARunOfSteps : Obligations.NextIsARunOfSteps := by
  intro s u hready hcur hstart hp
  obtain ⟨⟨hlen, hbytes, hpos, hrest, hsink, hhdr⟩, hphase, hidx, hrun, hflip, htotal, hpositive⟩ :=
    startBlock_starts hstart hp
  refine ⟨?started, fun t ht => ?run⟩
  case started =>
    have hsize : (u.total : Int) = max 0 ((s.blockSamples * s.w).tdiv s.w) := by
      rw [htotal, Int.ofNat_toNat, max_comm]
    simp only [State.bytesTaken, State.blockSamples, State.notLastBlock, decide_eq_true_eq,
      compressedLength_eq s hcur] at hlen hbytes hpos hrest hsize
    exact ⟨hphase, hidx, hrun, hflip, hsize, hlen, hbytes, hpos, hrest, hsink, hhdr⟩
  case run =>
    have hblock : runBlock execInBlock u.blockFuel u = .next t := by
      rw [next_streaming hready] at ht
      simpa only [compressedBlock, hstart] using ht
    have hdone := started_block_ends hphase hidx hpositive hblock
    obtain ⟨n, hn, hinside⟩ := run_of_runBlock hblock
    exact ⟨n, hn, hdone, hinside⟩

end Sys2Proof.Machine
end

section
/-! PROOFS. The encoding of the codes (R320 to R339): decoding gives back what is encoded, or says that its bits ran
out, and every bit sequence begins with exactly one code. -/

namespace Sys2Proof.Machine

/-! ### Parts of a field -/

/-- A field inside a longer one is a part of its number (R208). -/
theorem streamField_part {byteAt : Nat → Byte} {p n k len w : Nat} (hs : streamField byteAt p len = w)
    (hin : n + k ≤ len) : streamField byteAt (p + n) k = w / 2 ^ n % 2 ^ k := by
  obtain ⟨r, rfl⟩ := Nat.exists_eq_add_of_le hin
  rw [← hs, Nat.add_assoc, laterFieldIsHigherOrder, Nat.add_mul_div_left _ _ (Nat.two_pow_pos n),
    Nat.div_eq_of_lt (streamField_lt byteAt p n), Nat.zero_add, streamField_mod]

/-- The last field of a code, behind `n` bits that make `low` (R208, R330). -/
theorem streamField_last {byteAt : Nat → Byte} {p n b low field : Nat}
    (hs : streamField byteAt p (n + b) = low + 2 ^ n * field) (hlow : low < 2 ^ n) (hfield : field < 2 ^ b) :
    streamField byteAt (p + n) b = field := by
  rw [streamField_part hs (Nat.le_refl _), Nat.add_mul_div_left _ _ (Nat.two_pow_pos n), Nat.div_eq_of_lt hlow,
    Nat.zero_add, Nat.mod_eq_of_lt hfield]

/-! ### Reading a code field by field -/

/-- What decoding answers where the bits of `i` stand: `i`, or that they ran out before its end (R338, R705). -/
def ReadsAs (m : ExhaustMode) (nbytes p : Nat) (i : Instr) (len : Nat) (d : Decoded) : Prop :=
  if exhausted m p len nbytes then ∃ used, used < len ∧ d = .exhausted used else d = .code i len

section
variable {m : ExhaustMode} {nbytes p : Nat} {i : Instr} {len : Nat}

/-- After its last field a code is decoded. -/
theorem readsAs_code (h : exhausted m p len nbytes = false) : ReadsAs m nbytes p i len (.code i len) := by
  simp [ReadsAs, h]

/-- One field of a code: where its bits are there decoding goes on with their value, and where they are not, the code's
bits are not there either (R705). -/
theorem readsAs_readThen {byteAt : Nat → Byte} {q n v : Nat} {k : Nat → Decoded} {d : Decoded}
    (hv : streamField byteAt (p + q) n = v) (hk : k v = d)
    (next : exhausted m p (q + n) nbytes = false → ReadsAs m nbytes p i len d)
    (h1 : 1 ≤ n := by omega) (h8 : n ≤ 8 := by omega) (hin : q + n ≤ len := by omega) :
    ReadsAs m nbytes p i len (readThen (readField m byteAt nbytes (p + q) n) q k) := by
  subst hk
  rw [readField_eq m byteAt nbytes (p + q) n h1 h8, hv]
  cases hend : exhausted m (p + q) n nbytes with
  | false => exact next (exhausted_mono hend (Nat.add_assoc p q n).ge)
  | true =>
    have hall : exhausted m p len nbytes = true := Bool.eq_true_of_not_eq_false fun hthere =>
      Bool.false_ne_true ((exhausted_mono hthere (by omega)).symm.trans hend)
    rw [ReadsAs, if_pos hall]
    exact ⟨q, by omega, rfl⟩

end

/-- The BitReader at a cursor, as the decoder is given it. -/
abbrev readerAt (m : ExhaustMode) (byteAt : Nat → Byte) (nbytes p : Nat) : Nat → Nat → FieldRead :=
  fun q n => readField m byteAt nbytes (p + q) n

/-! ### Decoding what is encoded -/

/-- The magnitudes of DIFF1 to DIFF6 (R321, R360). -/
theorem diffOk_iff {c : CodeCtx} {mag : BitVec 7} :
    c.diffOk mag = true ↔ c.levelOk = true ∧ mag.toNat < 2 ^ (diffBits c.level - 1) := by
  simp [CodeCtx.diffOk]

/-- The magnitudes of BIG (R321, R360). -/
theorem bigOk_iff {c : CodeCtx} {mag : BitVec 7} :
    c.bigOk mag = true ↔ c.levelOk = true ∧ mag.toNat < 2 ^ (bigBits c.level - 1) := by
  simp [CodeCtx.bigOk]

section
variable {c : CodeCtx} {m : ExhaustMode} {byteAt : Nat → Byte} {nbytes p : Nat}

/-- SKIP is its exponent, with run-length off (R331). -/
theorem skip_readsAs (hrle : c.rle = false) (hs : streamField byteAt p 3 = 0) :
    ReadsAs m nbytes p .skip 3 (decodeCode c.rle c.level (readerAt m byteAt nbytes p)) :=
  readsAs_readThen (d := decodeHold c.rle _) hs rfl fun hend => by
    rw [decodeHold, hrle]
    exact readsAs_code hend

/-- RUN0 is exponent 0 and flag 0 (R332). -/
theorem run0_readsAs (hrle : c.rle = true) (hs : streamField byteAt p 4 = 0) :
    ReadsAs m nbytes p .run0 4 (decodeCode c.rle c.level (readerAt m byteAt nbytes p)) := by
  have exponent : streamField byteAt (p + 0) 3 = 0 := streamField_part hs (by decide)
  have flag : streamField byteAt (p + 3) 1 = 0 := streamField_part hs (by decide)
  refine readsAs_readThen (d := decodeHold c.rle _) exponent rfl fun _ => ?_
  rw [decodeHold, if_pos hrle]
  exact readsAs_readThen flag (if_pos rfl) readsAs_code

/-- RUN2 and RUN8 begin with exponent 0, flag 1 and a short run length (R332, R333). -/
theorem run_fields {len w v : Nat} (hs : streamField byteAt p len = w) (hlen : 6 ≤ len) (hw : w % 64 = 0x8 + 16 * v) :
    streamField byteAt (p + 0) 3 = 0 ∧ streamField byteAt (p + 3) 1 = 1 ∧ streamField byteAt (p + 4) 2 = v :=
  ⟨(streamField_part hs (by omega)).trans (by omega), (streamField_part hs (by omega)).trans (by omega),
    (streamField_part hs (by omega)).trans (by omega)⟩

/-- RUN2 has a short run length below 3 (R332). -/
theorem run2_readsAs {k : BitVec 2} (hrle : c.rle = true) (hk : k ≠ 3#2)
    (hs : streamField byteAt p 6 = 0x8 + 16 * k.toNat) :
    ReadsAs m nbytes p (.run2 k) 6 (decodeCode c.rle c.level (readerAt m byteAt nbytes p)) := by
  obtain ⟨exponent, flag, short⟩ := run_fields hs (v := k.toNat) (by decide) (by omega)
  have below : k.toNat ≠ 3 := fun h => hk (BitVec.eq_of_toNat_eq h)
  refine readsAs_readThen (d := decodeHold c.rle _) exponent rfl fun _ => ?_
  rw [decodeHold, if_pos hrle]
  refine readsAs_readThen flag (if_neg one_ne_zero) fun _ => ?_
  refine readsAs_readThen short ((if_neg below).trans ?_) readsAs_code
  rw [BitVec.ofNat_toNat, BitVec.setWidth_eq]

/-- RUN8 has the short run length 3 and then its own (R333). -/
theorem run8_readsAs {k : BitVec 8} (hrle : c.rle = true) (hs : streamField byteAt p 14 = 0x38 + 64 * k.toNat) :
    ReadsAs m nbytes p (.run8 k) 14 (decodeCode c.rle c.level (readerAt m byteAt nbytes p)) := by
  obtain ⟨exponent, flag, short⟩ := run_fields hs (v := 3) (by decide) (by omega)
  have run : streamField byteAt (p + 6) 8 = k.toNat := streamField_last (n := 6) (low := 0x38) hs (by decide) k.isLt
  refine readsAs_readThen (d := decodeHold c.rle _) exponent rfl fun _ => ?_
  rw [decodeHold, if_pos hrle]
  refine readsAs_readThen flag (if_neg one_ne_zero) fun _ => ?_
  refine readsAs_readThen short (if_pos rfl) fun _ => ?_
  refine readsAs_readThen run ?_ readsAs_code
  rw [BitVec.ofNat_toNat, BitVec.setWidth_eq]

/-- DIFF1 to DIFF6, of which the exponent `e` selects one, are the exponent and a sign and magnitude (R334). -/
theorem diff_readsAs {mk : Bool → BitVec 7 → Instr} {e len w : Nat} {neg : Bool} {mag : BitVec 7}
    {k : Nat → Decoded} (he : e < 8) (hk : k e = decodeDiff c.level (readerAt m byteAt nbytes p) mk)
    (hwf : c.diffOk mag = true) (henc : encodeDiff c.level e neg mag = .bits len w)
    (hs : streamField byteAt p len = w) :
    ReadsAs m nbytes p (mk neg mag) len (readThen (readerAt m byteAt nbytes p 0 3) 0 k) := by
  cases henc
  obtain ⟨hlvl, hmag⟩ := diffOk_iff.mp hwf
  obtain ⟨h3, h8, -, -⟩ := Laws.EncodedLength.widths_le_eight hlvl
  have exponent : streamField byteAt (p + 0) 3 = e := (streamField_part hs (by omega)).trans (by omega)
  have field := streamField_last (n := 3) hs he (Laws.EncodedLength.signMagField_lt (by omega) hmag)
  refine readsAs_readThen exponent hk fun _ => ?_
  refine readsAs_readThen field ?_ readsAs_code
  rw [fieldNeg_signMag hmag, fieldMag_signMag hmag]

/-- ZERO is exponent 7 and flag 1 (R335). -/
theorem zero_readsAs (hs : streamField byteAt p 4 = 0xF) :
    ReadsAs m nbytes p .zero 4 (decodeCode c.rle c.level (readerAt m byteAt nbytes p)) := by
  have exponent : streamField byteAt (p + 0) 3 = 7 := streamField_part hs (by decide)
  have flag : streamField byteAt (p + 3) 1 = 1 := streamField_part hs (by decide)
  refine readsAs_readThen (d := decodeSeven c.level _) exponent rfl fun _ => ?_
  exact readsAs_readThen flag (if_pos rfl) readsAs_code

/-- BIG is exponent 7, flag 0 and a sign and magnitude (R336). -/
theorem big_readsAs {neg : Bool} {mag : BitVec 7} (hwf : c.bigOk mag = true)
    (hs : streamField byteAt p (4 + bigBits c.level) = 0x7 + 16 * signMagField (bigBits c.level) neg mag) :
    ReadsAs m nbytes p (.big neg mag) (4 + bigBits c.level)
      (decodeCode c.rle c.level (readerAt m byteAt nbytes p)) := by
  obtain ⟨hlvl, hmag⟩ := bigOk_iff.mp hwf
  obtain ⟨-, -, h6, h8⟩ := Laws.EncodedLength.widths_le_eight hlvl
  have exponent : streamField byteAt (p + 0) 3 = 7 := (streamField_part hs (by omega)).trans (by omega)
  have flag : streamField byteAt (p + 3) 1 = 0 := (streamField_part hs (by omega)).trans (by omega)
  have field := streamField_last (n := 4) hs (by decide) (Laws.EncodedLength.signMagField_lt (by omega) hmag)
  refine readsAs_readThen (d := decodeSeven c.level _) exponent rfl fun _ => ?_
  refine readsAs_readThen flag (if_neg zero_ne_one) fun _ => ?_
  refine readsAs_readThen field ?_ readsAs_code
  rw [fieldNeg_signMag hmag, fieldMag_signMag hmag]

/-- Every code is decoded where its bits stand, or its bits ran out (R330 to R338, R705). -/
theorem encoded_readsAs {i : Instr} {len w : Nat} (hwf : i.wf c = true) (henc : encode c.level i = .bits len w)
    (hs : streamField byteAt p len = w) :
    ReadsAs m nbytes p i len (decodeCode c.rle c.level (readerAt m byteAt nbytes p)) := by
  cases i with
  | skip => cases henc; exact skip_readsAs (by simpa [Instr.wf] using hwf) hs
  | run0 => cases henc; exact run0_readsAs hwf hs
  | run2 k =>
    cases henc
    obtain ⟨hrle, hk⟩ : c.rle = true ∧ k ≠ 3#2 := by simpa [Instr.wf] using hwf
    exact run2_readsAs hrle hk hs
  | run8 k => cases henc; exact run8_readsAs hwf hs
  | diff1 => exact diff_readsAs (by decide) rfl hwf henc hs
  | diff2 => exact diff_readsAs (by decide) rfl hwf henc hs
  | diff3 => exact diff_readsAs (by decide) rfl hwf henc hs
  | diff4 => exact diff_readsAs (by decide) rfl hwf henc hs
  | diff5 => exact diff_readsAs (by decide) rfl hwf henc hs
  | diff6 => exact diff_readsAs (by decide) rfl hwf henc hs
  | zero => cases henc; exact zero_readsAs hs
  | big => cases henc; exact big_readsAs hwf hs
  | seed | repeatRun | nop | openCmd | nextCmd | resetCmd => cases henc

end

/-- Settles O2: with the code's bits there, what stands is decoded. -/
theorem decodeOfEncodedCode : Obligations.DecodeOfEncodedCode := by
  intro c i m byteAt nbytes p len w hwf henc hend hs
  simpa [ReadsAs, hend] using encoded_readsAs (m := m) (nbytes := nbytes) hwf henc hs

/-! ### Every bit sequence begins with one code -/

/-- The bits of the well-formed code `i` stand at `p`. -/
def CodeStands (c : CodeCtx) (byteAt : Nat → Byte) (p : Nat) (i : Instr) : Prop :=
  i.wf c = true ∧ ∃ len w, encode c.level i = .bits len w ∧ streamField byteAt p len = w

/-- A bitstream that goes on behind both of two codes decodes to each of them (R339). -/
theorem codeStands_unique {c : CodeCtx} {byteAt : Nat → Byte} {p : Nat} {i j : Instr} (hi : CodeStands c byteAt p i)
    (hj : CodeStands c byteAt p j) : i = j := by
  obtain ⟨hwfi, leni, wi, henci, hsi⟩ := hi
  obtain ⟨hwfj, lenj, wj, hencj, hsj⟩ := hj
  have thereOf : ∀ len ≤ leni + lenj, exhausted .lazyEnd p len (p + leni + lenj + 1) = false := fun len h =>
    exhausted_inside (by omega)
  have decodei := decodeOfEncodedCode c i _ byteAt _ p leni wi hwfi henci (thereOf leni (by omega)) hsi
  have decodej := decodeOfEncodedCode c j _ byteAt _ p lenj wj hwfj hencj (thereOf lenj (by omega)) hsj
  cases decodei.symm.trans decodej
  rfl

section
variable {c : CodeCtx} {byteAt : Nat → Byte} {p : Nat}

/-- Exponent 0 begins SKIP with run-length off, and RUN0, RUN2 or RUN8 with it on (R331 to R333). -/
theorem exists_hold_stands (he : streamField byteAt p 3 = 0) : ∃ i, CodeStands c byteAt p i := by
  cases hrle : c.rle with
  | false => exact ⟨.skip, by simp [Instr.wf, hrle], 3, 0, rfl, he⟩
  | true =>
    have flagged : streamField byteAt p 4 = streamField byteAt p 3 + 8 * streamField byteAt (p + 3) 1 :=
      laterFieldIsHigherOrder byteAt p 3 1
    have short : streamField byteAt p 6 = streamField byteAt p 4 + 16 * streamField byteAt (p + 4) 2 :=
      laterFieldIsHigherOrder byteAt p 4 2
    have run : streamField byteAt p 14 = streamField byteAt p 6 + 64 * streamField byteAt (p + 6) 8 :=
      laterFieldIsHigherOrder byteAt p 6 8
    have hflag := streamField_lt byteAt (p + 3) 1
    have hshort := streamField_lt byteAt (p + 4) 2
    have hrun := streamField_lt byteAt (p + 6) 8
    by_cases h0 : streamField byteAt (p + 3) 1 = 0
    · exact ⟨.run0, hrle, 4, 0, rfl, by omega⟩
    · by_cases h3 : streamField byteAt (p + 4) 2 = 3
      · refine ⟨.run8 (.ofNat 8 (streamField byteAt (p + 6) 8)), hrle, 14, _, rfl, ?_⟩
        rw [BitVec.toNat_ofNat, Nat.mod_eq_of_lt hrun]
        omega
      · refine ⟨.run2 (.ofNat 2 (streamField byteAt (p + 4) 2)), ?_, 6, _, rfl, ?_⟩
        · have below : streamField byteAt (p + 4) 2 % 4 ≠ 3 := by omega
          simpa [Instr.wf, hrle, ← BitVec.toNat_inj] using below
        · rw [BitVec.toNat_ofNat, Nat.mod_eq_of_lt hshort]
          omega

/-- Whatever stands in a differential's field is a sign and a magnitude (R321). -/
theorem exists_signMag_stands (q : Nat) {b : Nat} (h1 : 1 ≤ b) (h8 : b ≤ 8) :
    ∃ neg mag, streamField byteAt q b = signMagField b neg mag ∧ mag.toNat < 2 ^ (b - 1) :=
  have ⟨hfield, hmag⟩ := signMag_field h1 h8 (streamField_lt byteAt q b)
  ⟨_, _, hfield.symm, hmag⟩

/-- An exponent of 1 to 6 begins its differential, whatever the field (R334). -/
theorem exists_diff_stands {mk : Bool → BitVec 7 → Instr} {e : Nat} (hlvl : c.levelOk = true)
    (hwf : ∀ neg mag, (mk neg mag).wf c = c.diffOk mag)
    (henc : ∀ neg mag, encode c.level (mk neg mag) = encodeDiff c.level e neg mag)
    (he : streamField byteAt p 3 = e) : ∃ i, CodeStands c byteAt p i := by
  obtain ⟨h3, h8, -, -⟩ := Laws.EncodedLength.widths_le_eight hlvl
  obtain ⟨neg, mag, hfield, hmag⟩ := exists_signMag_stands (byteAt := byteAt) (p + 3) (by omega) h8
  refine ⟨mk neg mag, (hwf _ _).trans (diffOk_iff.mpr ⟨hlvl, hmag⟩), _, _, henc _ _, ?_⟩
  rw [laterFieldIsHigherOrder, he, hfield]
  rfl

/-- Exponent 7 begins ZERO or BIG, by its flag (R335, R336). -/
theorem exists_seven_stands (hlvl : c.levelOk = true) (he : streamField byteAt p 3 = 7) :
    ∃ i, CodeStands c byteAt p i := by
  obtain ⟨-, -, h6, h8⟩ := Laws.EncodedLength.widths_le_eight hlvl
  have flagged : streamField byteAt p 4 = streamField byteAt p 3 + 8 * streamField byteAt (p + 3) 1 :=
    laterFieldIsHigherOrder byteAt p 3 1
  have hflag := streamField_lt byteAt (p + 3) 1
  by_cases h1 : streamField byteAt (p + 3) 1 = 1
  · exact ⟨.zero, rfl, 4, 0xF, rfl, by omega⟩
  · have big : streamField byteAt p 4 = 7 := by omega
    obtain ⟨neg, mag, hfield, hmag⟩ := exists_signMag_stands (byteAt := byteAt) (p + 4) (by omega) h8
    refine ⟨.big neg mag, bigOk_iff.mpr ⟨hlvl, hmag⟩, _, _, rfl, ?_⟩
    rw [laterFieldIsHigherOrder, big, hfield]
    rfl

/-- A code stands everywhere: there is one of every exponent (R339). -/
theorem exists_codeStands (hlvl : c.levelOk = true) : ∃ i, CodeStands c byteAt p i := by
  have hlt := streamField_lt byteAt p 3
  generalize he : streamField byteAt p 3 = e at hlt
  interval_cases e
  · exact exists_hold_stands he
  · exact exists_diff_stands (mk := .diff1) hlvl (fun _ _ => rfl) (fun _ _ => rfl) he
  · exact exists_diff_stands (mk := .diff2) hlvl (fun _ _ => rfl) (fun _ _ => rfl) he
  · exact exists_diff_stands (mk := .diff3) hlvl (fun _ _ => rfl) (fun _ _ => rfl) he
  · exact exists_diff_stands (mk := .diff4) hlvl (fun _ _ => rfl) (fun _ _ => rfl) he
  · exact exists_diff_stands (mk := .diff5) hlvl (fun _ _ => rfl) (fun _ _ => rfl) he
  · exact exists_diff_stands (mk := .diff6) hlvl (fun _ _ => rfl) (fun _ _ => rfl) he
  · exact exists_seven_stands hlvl he

end

/-- Settles O3: the exponent gives a code, decoding makes it unique, and a code is read field by field. -/
theorem everyBitSequenceBeginsWithOneCode : Obligations.EveryBitSequenceBeginsWithOneCode := by
  refine ⟨fun rle lvl byteAt p h0 h5 => ?one, fun c i m byteAt nbytes p len w hwf henc hs hend => ?ranOut⟩
  case one =>
    obtain ⟨i, hi⟩ := exists_codeStands (c := ⟨rle, lvl, false⟩) (byteAt := byteAt) (p := p)
      (by simp [CodeCtx.levelOk, h0, h5])
    exact ⟨i, hi, fun j hj => codeStands_unique hj hi⟩
  case ranOut =>
    simpa [ReadsAs, hend] using encoded_readsAs (m := m) (nbytes := nbytes) hwf henc hs

/-! ### Words and widths -/

/-- Settles O1: each word is decoded by itself. -/
theorem writtenOutWordsDecode : Obligations.WrittenOutWordsDecode :=
  ⟨by decide, by decide, by decide, by decide, by decide, by decide, by decide, by decide, by decide, by decide,
    by decide, by decide⟩

/-- Settles O5: the table's four formulas, each at every level and exponent. -/
theorem differentialParameterTable : Obligations.DifferentialParameterTable :=
  ⟨by decide, by decide, by decide, by decide⟩

/-! ### Headers -/

/-- Settles O11: every field has a fixed number of bytes, so its offset does not depend on the values. -/
theorem wavHeaderLayout : Obligations.WavHeaderLayout := by
  intro p c n r
  simp [wavHeader, le16, le32]

/-- An int16 field of the header keeps its sign in its register (R301, R403). -/
theorem headerField16_toInt (h : List Byte) (o : Nat) : (headerField16 h o).toInt
    = ((h.getD o 0).toNat + 256 * (h.getD (o + 1) 0).toNat : Int).bmod 65536 := by
  rw [headerField16, BitVec.toInt_signExtend_of_le (by decide), pair16_toInt]

/-- An int32 field of the header (R301). -/
theorem headerField32_toInt (h : List Byte) (o : Nat) : (headerField32 h o).toInt
    = ((h.getD o 0).toNat + 256 * ((h.getD (o + 1) 0).toNat
      + 256 * ((h.getD (o + 2) 0).toNat + 256 * (h.getD (o + 3) 0).toNat)) : Int).bmod 4294967296 :=
  quad32_toInt _ _ _ _

/-- Settles O30: two fields of 16 bits and nine of 32. -/
theorem headerFieldOffsets : Obligations.HeaderFieldOffsets := fun h =>
  ⟨headerField16_toInt h 0, headerField16_toInt h 2, headerField32_toInt h 4, headerField32_toInt h 8,
    headerField32_toInt h 12, headerField32_toInt h 16, headerField32_toInt h 20, headerField32_toInt h 24,
    headerField32_toInt h 28, headerField32_toInt h 32, headerField32_toInt h 36⟩

end Sys2Proof.Machine
end

section
/-! PROOFS. OPEN (spec/40_header_parse.md): the two states a successful OPEN ends in, the headers it accepts, and the
errors of a truncated header and of a stream of whole raw blocks. -/

namespace Sys2Proof.Machine

/-! ### The steps of OPEN that do not fail -/

/-- The header read has succeeded (R402, R403). -/
def State.loadHeader (s : State) : State :=
  { s.consume (s.src.rest.take 44) with hdr := parseHeader (s.src.rest.take 44) }

/-- Raw mode, with the derived geometry (R405, R407). -/
def State.startRaw (s : State) : State := { s with mode := .raw, hdr := s.hdr.deriveRaw }

/-- Compressed mode (R405). -/
def State.startCompressed (s : State) : State := { s with mode := .compressed }

/-- The number of bytes of the offset table (R411). -/
def State.tableSize (s : State) : Nat := (4 * s.hdr.blocks.toInt).toNat

/-- The table read has succeeded (R411). -/
def State.loadTable (s : State) : State :=
  { s.consume (s.src.rest.take s.tableSize) with off := ramLoad 0 (tableEntries (s.src.rest.take s.tableSize)) }

/-- Validation has found no violation (R427). -/
def State.opened (s : State) : State :=
  { s with sess := .notStarted, curBlock := -1, result := .none, errCode := .none, errBlock := -1, lastLen := 0 }

/-- A cleared machine over a source that has just supplied the raw header `h` and still holds `rest`. -/
def State.rawRead (h rest : List Byte) (s : State) : State :=
  { s.cleared with src := ⟨rest, s.src.answers.tail⟩, srcPos := 44, mode := .raw, hdr := (parseHeader h).deriveRaw }

/-- A cleared machine over a source that never fails, has just supplied the compressed header `h` and the offset table
`table`, and still holds `rest`. -/
def State.compressedRead (h table rest : List Byte) (s : State) : State :=
  { s.cleared with
    src := ⟨rest, []⟩
    srcPos := 44 + table.length
    mode := .compressed
    hdr := parseHeader h
    off := ramLoad 0 (tableEntries table) }

theorem openHeader_loads {s : State} (ha : s.sourceAnswers) (hlen : 44 ≤ s.src.rest.length) :
    openHeader s = openMode s.loadHeader := by
  rw [openHeader, srcRead_ok ha hlen]; rfl

theorem openHeader_truncated {s : State} (ha : s.sourceAnswers) (hlen : s.src.rest.length < 44) :
    openHeader s = .next (raiseFrom s.src.rest .truncatedHeader (s.consume s.src.rest)) := by
  rw [openHeader, srcRead_eof ha hlen]

theorem openMode_raw {s : State} (hlevel : s.hdr.level.toInt = -1) (hlayout : s.hdr.layoutError = none)
    (hblocks : s.hdr.deriveRaw.blocksInRange = true) : openMode s = openValidate s.startRaw := by
  rw [openMode, if_pos hlevel, hlayout]
  exact (if_pos hblocks).trans (if_pos rfl)

theorem openMode_compressed {s : State} (hlevel : s.hdr.level.toInt ≠ -1) (hblocks : s.hdr.blocksInRange = true) :
    openMode s = openTable s.startCompressed := by
  rw [openMode, if_neg hlevel]
  exact (if_pos hblocks).trans (if_neg Mode.noConfusion)

theorem openTable_loads {s : State} (ha : s.sourceAnswers) (hlen : s.tableSize ≤ s.src.rest.length) :
    openTable s = openValidate s.loadTable := by
  rw [State.tableSize] at hlen
  rw [openTable, srcRead_ok ha hlen]; rfl

theorem openValidate_opened {s : State} (h : s.violation = none) : openValidate s = .next s.opened := by
  rw [openValidate, h]; rfl

theorem openValidate_raises {s : State} {e : ErrCode} (h : s.violation = some e) :
    openValidate s = .next (raiseError e s) := by
  rw [openValidate, h]

/-! ### What has been read -/

/-- The stream begins with the 44 bytes of the header (R402). -/
theorem State.loadHeader_eq {s : State} {h rest : List Byte} (hs : s.src.rest = h ++ rest) (hlen : h.length = 44) :
    s.loadHeader = { s with src := ⟨rest, s.src.answers.tail⟩, srcPos := s.srcPos + 44, hdr := parseHeader h } := by
  have htake : s.src.rest.take 44 = h := by rw [hs, ← hlen, List.take_left]
  have hdrop : s.src.rest.drop 44 = rest := by rw [hs, ← hlen, List.drop_left]
  simp only [State.loadHeader, State.consume, htake, hlen, hdrop]

/-- The stream goes on with the bytes of the offset table (R411). -/
theorem State.loadTable_eq {s : State} {table rest : List Byte} (hs : s.src.rest = table ++ rest)
    (hlen : table.length = s.tableSize) :
    s.loadTable = { s with
      src := ⟨rest, s.src.answers.tail⟩, srcPos := s.srcPos + s.tableSize, off := ramLoad 0 (tableEntries table) } := by
  have htake : s.src.rest.take s.tableSize = table := by rw [hs, ← hlen, List.take_left]
  have hdrop : s.src.rest.drop s.tableSize = rest := by rw [hs, ← hlen, List.drop_left]
  simp only [State.loadTable, State.consume, htake, hlen, hdrop]

/-- Entry `k` of the table is its `k`-th group of four bytes (R303, R411). -/
theorem tableEntries_getElem? {bytes : List Byte} {k : Nat} (hk : 4 * k + 4 ≤ bytes.length) :
    (tableEntries bytes)[k]? = some (quad32 (bytes.getD (4 * k) 0) (bytes.getD (4 * k + 1) 0)
      (bytes.getD (4 * k + 2) 0) (bytes.getD (4 * k + 3) 0)) := by
  induction bytes using tableEntries.induct generalizing k with
  | case1 b0 b1 b2 b3 rest ih =>
    cases k with
    | zero => rfl
    | succ k =>
      rw [tableEntries, List.getElem?_cons_succ, ih (by simp only [List.length_cons] at hk; omega)]
      rfl
  | case2 bytes hshort =>
    match bytes, hshort with
    | [], _ | [_], _ | [_, _], _ | [_, _, _], _ => simp only [List.length_cons, List.length_nil] at hk; omega
    | b0 :: b1 :: b2 :: b3 :: rest, hshort => exact absurd rfl (hshort b0 b1 b2 b3 rest)

/-- `OFF[k]` after the load (R120, R411). -/
theorem State.offEntry_of_table {s : State} {table : List Byte} (hoff : s.off = ramLoad 0 (tableEntries table))
    {k : Nat} (hk : 4 * k + 4 ≤ table.length) :
    s.offEntry k = (quad32 (table.getD (4 * k) 0) (table.getD (4 * k + 1) 0) (table.getD (4 * k + 2) 0)
      (table.getD (4 * k + 3) 0)).toInt := by
  rw [State.offEntry, hoff, ramRead_ramLoad, if_pos (Nat.zero_le k), Nat.sub_zero, tableEntries_getElem? hk,
    Option.getD_some]

/-! ### Headers without a violation -/

theorem Header.layoutError_eq_none {h : Header} (hch : h.channels.toInt = 1 ∨ h.channels.toInt = 2)
    (hbits : h.bits.toInt = 8 ∨ h.bits.toInt = 16) : h.layoutError = none := by
  rw [Header.layoutError, if_neg (not_not.mpr hch), if_neg (not_not.mpr hbits)]

/-- With a valid level, the size checks are V4, then V5 (R423, R424). -/
theorem Header.sizeError_of_level {h : Header} (hlevel : -1 ≤ h.level.toInt ∧ h.level.toInt ≤ 5) :
    h.sizeError = if h.dataSize.toInt = h.samples.toInt * h.w then
        if h.samples.toInt = (h.blocks.toInt - 1) * h.blockSize.toInt + h.restSize.toInt then none
        else some .inconsistentSampleCount
      else some .inconsistentDataSize := by
  simp only [Header.sizeError, if_neg (not_not.mpr hlevel), ite_not]

theorem Header.sizeError_eq_none {h : Header} (hlevel : -1 ≤ h.level.toInt ∧ h.level.toInt ≤ 5)
    (hsize : h.dataSize.toInt = h.samples.toInt * h.w)
    (hcount : h.samples.toInt = (h.blocks.toInt - 1) * h.blockSize.toInt + h.restSize.toInt) : h.sizeError = none := by
  rw [Header.sizeError_of_level hlevel, if_pos hsize, if_pos hcount]

theorem State.offsetError_of_raw {s : State} (h : s.mode = .raw) : s.offsetError = none := if_pos h

theorem State.offsetError_of_last {s : State} (hoff : s.off ≠ [])
    (hlast : s.offEntry (s.hdr.blocks.toInt - 1).toNat < s.hdr.compSize.toInt) : s.offsetError = none := by
  rw [State.offsetError, if_neg hoff, if_neg (not_not.mpr hlast), ite_self]

/-- With a valid layout the size checks come first, then those of the offset table (R412). -/
theorem State.violation_of_layout {s : State} (hlayout : s.hdr.layoutError = none) :
    s.violation = s.hdr.sizeError.or s.offsetError := by
  rw [State.violation, hlayout]
  cases s.hdr.sizeError <;> rfl

/-! ### A successful OPEN -/

/-- Clearing a session clears the datapath (R150, R151). -/
theorem datapathCleared_cleared (s : State) : DatapathCleared s.cleared :=
  ⟨rfl, rfl, rfl, rfl, rfl, rfl, rfl, rfl, rfl, rfl, rfl⟩

/-- The header is read from the cleared state, over the same source (R400 to R403). -/
theorem exec_open_loads {s : State} {h rest : List Byte} (hp : s.phase = .idle) (ha : s.sourceAnswers)
    (hs : s.src.rest = h ++ rest) (hlen : h.length = 44) :
    exec .openCmd s = openMode { s.cleared with
      src := ⟨rest, s.src.answers.tail⟩, srcPos := 44, hdr := parseHeader h } := by
  have henough : 44 ≤ s.cleared.src.rest.length := by rw [State.cleared_src, hs, List.length_append]; omega
  rw [exec_open_idle hp, openHeader_loads (s := s.cleared) ha henough, State.loadHeader_eq (s := s.cleared) hs hlen]
  rfl

/-- OPEN of a raw stream whose header is there, up to validation (R402 to R410). -/
theorem exec_open_raw {s : State} {h rest : List Byte} (hp : s.phase = .idle) (ha : s.sourceAnswers)
    (hs : s.src.rest = h ++ rest) (hlen : h.length = 44) (hlevel : (parseHeader h).level.toInt = -1)
    (hlayout : (parseHeader h).layoutError = none) (hblocks : (parseHeader h).deriveRaw.blocksInRange = true) :
    exec .openCmd s = openValidate (s.rawRead h rest) :=
  (exec_open_loads hp ha hs hlen).trans (openMode_raw hlevel hlayout hblocks)

/-- In raw mode only the size checks are left for validation (R406, R412). -/
theorem State.rawRead_violation {h : List Byte} (rest : List Byte) (s : State)
    (hlayout : (parseHeader h).layoutError = none) :
    (s.rawRead h rest).violation = (parseHeader h).deriveRaw.sizeError := by
  rw [State.violation_of_layout hlayout, State.offsetError_of_raw rfl, Option.or_none]
  rfl

/-- Settles O31: the state before validation is known exactly, and no check of it fails. -/
theorem openRawStream : Obligations.OpenRawStream := by
  intro s h rest hp ha hs hlen f w m restSize blocks hlevel hch hbits hpos hmax hsize hcount
  have hlayout : f.layoutError = none := Header.layoutError_eq_none hch hbits
  obtain ⟨hrest, hnum⟩ := Header.deriveRaw_geometry (Header.w_of_layout hlayout)
  have hblock : f.deriveRaw.blockSize.toInt = 65536 := rfl
  have hrange : f.deriveRaw.blocksInRange = true := by
    rw [Header.blocksInRange_iff, hnum]
    exact ⟨hpos, hmax⟩
  have hcount' : f.deriveRaw.samples.toInt
      = (f.deriveRaw.blocks.toInt - 1) * f.deriveRaw.blockSize.toInt + f.deriveRaw.restSize.toInt := by
    rw [hnum, hblock, hrest]
    exact hcount
  have hlevel' : f.deriveRaw.level.toInt = -1 := hlevel
  have hsizes : f.deriveRaw.sizeError = none := Header.sizeError_eq_none (by omega) hsize hcount'
  have hviol := (s.rawRead_violation rest hlayout).trans hsizes
  exact ⟨_, (exec_open_raw hp ha hs hlen hlevel hlayout hrange).trans (openValidate_opened hviol),
    ⟨rfl, rfl, minusOne_toInt, rfl, rfl, minusOne_toInt, rfl⟩, ⟨hnum, hrest, hblock⟩, rfl, ⟨rfl, rfl, rfl, rfl⟩,
    datapathCleared_cleared s, rfl, rfl, rfl⟩

/-- OPEN of a compressed stream whose header and table are there, up to validation (R402 to R411). -/
theorem exec_open_compressed {s : State} {h table rest : List Byte} (hp : s.phase = .idle) (ha : s.src.answers = [])
    (hs : s.src.rest = h ++ (table ++ rest)) (hlen : h.length = 44) (hlevel : (parseHeader h).level.toInt ≠ -1)
    (hblocks : (parseHeader h).blocksInRange = true)
    (htable : table.length = (4 * (parseHeader h).blocks.toInt).toNat) :
    exec .openCmd s = openValidate (s.compressedRead h table rest) := by
  generalize hu : ({ s.cleared with
    src := ⟨table ++ rest, []⟩, srcPos := 44, mode := .compressed, hdr := parseHeader h } : State) = u
  have hrest : u.src.rest = table ++ rest := by rw [← hu]
  have hsize : table.length = u.tableSize := by rw [← hu]; exact htable
  have hopen : exec .openCmd s = openTable u := by
    rw [exec_open_loads hp (by rw [State.sourceAnswers, ha]; rfl) hs hlen, ha, ← hu]
    exact openMode_compressed hlevel hblocks
  rw [hopen, openTable_loads (by rw [← hu]; rfl) (by rw [hrest, List.length_append]; omega),
    State.loadTable_eq hrest hsize, ← hsize, ← hu]
  rfl

/-- The entries that OPEN of a compressed stream loads (R411). -/
theorem State.compressedRead_offEntry (h : List Byte) {table : List Byte} (rest : List Byte) (s : State) {k : Nat}
    (hk : 4 * k + 4 ≤ table.length) : (s.compressedRead h table rest).offEntry k
      = (quad32 (table.getD (4 * k) 0) (table.getD (4 * k + 1) 0) (table.getD (4 * k + 2) 0)
        (table.getD (4 * k + 3) 0)).toInt :=
  State.offEntry_of_table rfl hk

/-- A table of at least one entry is not missing (R425). -/
theorem State.compressedRead_off_ne_nil (h : List Byte) {table : List Byte} (rest : List Byte) (s : State)
    (hk : 4 ≤ table.length) : (s.compressedRead h table rest).off ≠ [] := by
  intro hnil
  have hlength : (ramLoad 0 (tableEntries table)).length = 0 := congrArg List.length hnil
  rw [ramLoad_length, tableEntries_length] at hlength
  omega

/-- Settles O32: the state before validation is known exactly, its table holds the entries, and no check fails. -/
theorem openCompressedStream : Obligations.OpenCompressedStream := by
  intro s h table rest hp ha hs hlen f w entry hlevel hch hbits hpos hmax htable hsize hcount hlast
  have hlayout : f.layoutError = none := Header.layoutError_eq_none hch hbits
  have hrange : f.blocksInRange = true := (Header.blocksInRange_iff f).mpr ⟨hpos, hmax⟩
  have hsizes : f.sizeError = none := Header.sizeError_eq_none ⟨by omega, hlevel.2⟩ hsize hcount
  have hentry : ∀ k, k < f.blocks.toInt.toNat → (s.compressedRead h table rest).offEntry k = entry k := fun k hk =>
    s.compressedRead_offEntry h rest (by omega)
  have hoffsets : (s.compressedRead h table rest).offsetError = none := by
    refine State.offsetError_of_last (s.compressedRead_off_ne_nil h rest (by omega)) ?_
    have hindex : (f.blocks.toInt - 1).toNat = f.blocks.toInt.toNat - 1 := by omega
    have hbound := hentry (f.blocks.toInt.toNat - 1) (by omega)
    rw [← hindex] at hbound hlast
    exact hbound.trans_lt hlast
  have hviol : (s.compressedRead h table rest).violation = none := by
    rw [State.violation_of_layout hlayout, hoffsets, Option.or_none]
    exact hsizes
  have hopen := exec_open_compressed hp ha hs hlen (show f.level.toInt ≠ -1 by omega) hrange
    (show table.length = (4 * f.blocks.toInt).toNat by omega)
  have hpos' : ((44 + table.length : Nat) : Int) = 44 + 4 * f.blocks.toInt := by omega
  exact ⟨_, hopen.trans (openValidate_opened hviol), ⟨rfl, rfl, minusOne_toInt, rfl, rfl, minusOne_toInt, rfl⟩, rfl,
    hentry, ⟨hpos', rfl, rfl, rfl⟩, datapathCleared_cleared s, rfl, rfl, rfl⟩

/-! ### What a successful OPEN says -/

/-- Validation that does not take an error ends in NOT_STARTED (R427). -/
theorem openValidate_success {s t : State} (h : openValidate s = .next t) (hne : t.sess ≠ .error) : t = s.opened := by
  rcases openValidate_inv h with ⟨e, _, _, rfl⟩ | ⟨_, rfl⟩
  · exact absurd rfl hne
  · rfl

/-- The table of an OPEN that does not fail was there (R411). -/
theorem openTable_success {s t : State} (h : openTable s = .next t) (hne : t.sess ≠ .error) :
    s.tableSize ≤ s.src.rest.length ∧ t = s.loadTable.opened := by
  unfold openTable at h
  rcases srcRead_cases (4 * s.hdr.blocks.toInt).toNat s with ⟨hr, _⟩ | ⟨k, hr, _⟩ | ⟨hr, hlen, _⟩ | ⟨hr, _⟩ <;>
    rw [hr] at h <;> simp only at h
  · cases h
  · cases h; exact absurd rfl hne
  · exact ⟨hlen, openValidate_success h hne⟩
  · cases h; exact absurd rfl hne

/-- The two ways on from the bound check (R410). -/
theorem openBounded_success {s t : State} (h : openBounded s = .next t) (hne : t.sess ≠ .error) :
    (s.mode = .raw ∧ t = s.opened)
    ∨ (s.mode ≠ .raw ∧ s.tableSize ≤ s.src.rest.length ∧ t = s.loadTable.opened) := by
  unfold openBounded at h
  split at h
  · split at h
    · exact .inl ⟨‹_›, openValidate_success h hne⟩
    · exact .inr ⟨‹_›, openTable_success h hne⟩
  · cases h; exact absurd rfl hne

/-- The two ways on from the header (R405, R406). -/
theorem openMode_success {s t : State} (h : openMode s = .next t) (hne : t.sess ≠ .error) :
    t = s.startRaw.opened
    ∨ (s.startCompressed.tableSize ≤ s.src.rest.length ∧ t = s.startCompressed.loadTable.opened) := by
  unfold openMode at h
  split at h
  · split at h
    · cases h; exact absurd rfl hne
    · rcases openBounded_success h hne with ⟨_, ht⟩ | ⟨hm, _⟩
      · exact .inl ht
      · exact absurd rfl hm
  · rcases openBounded_success h hne with ⟨hm, _⟩ | ⟨_, hlen, ht⟩
    · cases hm
    · exact .inr ⟨hlen, ht⟩

/-- The two states in which an OPEN that does not fail ends: the header was there, and in compressed mode the table
(R400, R427). -/
theorem exec_open_success {s t : State} (h : exec .openCmd s = .next t) (hne : t.sess ≠ .error) :
    44 ≤ s.src.rest.length
    ∧ (t = s.cleared.loadHeader.startRaw.opened
      ∨ (s.cleared.loadHeader.startCompressed.tableSize ≤ s.cleared.loadHeader.src.rest.length
        ∧ t = s.cleared.loadHeader.startCompressed.loadTable.opened)) := by
  simp only [exec, execOpen, whenReady] at h
  split at h
  case isFalse => cases h
  unfold openHeader at h
  rcases srcRead_cases 44 s.cleared with ⟨hr, _⟩ | ⟨k, hr, _⟩ | ⟨hr, hlen, _⟩ | ⟨hr, _⟩ <;>
    rw [hr] at h <;> simp only at h
  · cases h
  · cases h; exact absurd rfl hne
  · exact ⟨hlen, openMode_success h hne⟩
  · cases h; exact absurd rfl hne

/-- SRC_POS after the header read (R140). -/
theorem State.loadHeader_srcPos {s : State} (h : 44 ≤ s.src.rest.length) : s.loadHeader.srcPos = s.srcPos + 44 := by
  show s.srcPos + (s.src.rest.take 44).length = s.srcPos + 44
  rw [List.length_take, Nat.min_eq_left h]

/-- SRC_POS after the table read (R140). -/
theorem State.loadTable_srcPos {s : State} (h : s.tableSize ≤ s.src.rest.length) :
    s.loadTable.srcPos = s.srcPos + s.tableSize := by
  show s.srcPos + (s.src.rest.take s.tableSize).length = s.srcPos + s.tableSize
  rw [List.length_take, Nat.min_eq_left h]

/-- Settles O33: OPEN ends legally, so in NOT_STARTED with a valid header, in one of two states. -/
theorem openSuccessMeansValidHeader : Obligations.OpenSuccessMeansValidHeader := by
  intro s t h hne
  obtain ⟨hlen, hend⟩ := exec_open_success h hne
  have hpos := State.loadHeader_srcPos (s := s.cleared) hlen
  have hsess : t.sess = .notStarted := by rcases hend with rfl | ⟨_, rfl⟩ <;> rfl
  obtain ⟨hcur, herr, hcode, hvalid⟩ := (State.sessionLegal_iff_of_notStarted hsess).mp (sessionLegal_of_open h)
  refine ⟨hsess, hvalid, hcur, ?result, hcode, herr, ?lastLen, ?srcPos⟩
  case result => rcases hend with rfl | ⟨_, rfl⟩ <;> rfl
  case lastLen => rcases hend with rfl | ⟨_, rfl⟩ <;> rfl
  case srcPos =>
    have ⟨_, _, _, _, _, ⟨hblocks, _⟩, _⟩ := hvalid
    rcases hend with rfl | ⟨htable, rfl⟩
    · show (s.cleared.loadHeader.srcPos : Int) = 44 + 0
      rw [hpos]; rfl
    · show (s.cleared.loadHeader.startCompressed.loadTable.srcPos : Int)
        = 44 + 4 * s.cleared.loadHeader.hdr.blocks.toInt
      have hsize : (s.cleared.loadHeader.startCompressed.tableSize : Int) = 4 * s.cleared.loadHeader.hdr.blocks.toInt :=
        Int.toNat_of_nonneg (Int.mul_nonneg (by decide) (Int.le_trans (by decide) hblocks))
      have hstart : s.cleared.loadHeader.startCompressed.srcPos = 44 := hpos
      rw [State.loadTable_srcPos htable, hstart, Nat.cast_add, hsize]
      rfl

/-- Settles O37: the sink is in the frame of OPEN. -/
theorem openNeverWritesTheSink : Obligations.OpenNeverWritesTheSink := by
  intro s t h
  obtain ⟨_, _, hsink, _⟩ := openFrame_open h
  exact hsink

/-! ### Rejected streams -/

/-- Whole blocks only leave no rest, and their number is in range: a register holds less than 32768 blocks' bytes
(R407, R410). -/
theorem Header.deriveRaw_of_whole_blocks {h : Header} (hw : h.w = 1 ∨ h.w = 2) (hpos : 0 < h.dataSize.toInt)
    (hwhole : h.dataSize.toInt.tmod (65536 * h.w) = 0) :
    h.deriveRaw.restSize.toInt = 0 ∧ h.deriveRaw.blocksInRange = true := by
  obtain ⟨hrest, hnum⟩ := Header.deriveRaw_geometry hw
  have hhi := h.dataSize.toInt_lt
  have hsplit := Int.mul_tdiv_add_tmod h.dataSize.toInt (65536 * h.w)
  rw [hwhole, Int.zero_tdiv] at hrest hnum
  rw [hwhole] at hsplit
  rw [Header.blocksInRange_iff, hnum]
  refine ⟨hrest, ?_⟩
  rcases hw with hw | hw <;> rw [hw] at hsplit ⊢ <;> omega

/-- A raw header of whole blocks only that meets V4 fails V5, which counts one block less and a rest of 0 (R409). -/
theorem Header.sizeError_of_whole_blocks {h : Header} (hlevel : h.level.toInt = -1) (hw : h.w = 1 ∨ h.w = 2)
    (hpos : 0 < h.dataSize.toInt) (hwhole : h.dataSize.toInt.tmod (65536 * h.w) = 0) :
    h.deriveRaw.sizeError
      = some (if h.dataSize.toInt = h.samples.toInt * h.w then .inconsistentSampleCount else .inconsistentDataSize) := by
  have hlevel' : h.deriveRaw.level.toInt = -1 := hlevel
  rw [Header.sizeError_of_level (by omega)]
  by_cases hsize : h.dataSize.toInt = h.samples.toInt * h.w
  · have hcount : ¬ h.deriveRaw.samples.toInt
        = (h.deriveRaw.blocks.toInt - 1) * h.deriveRaw.blockSize.toInt + h.deriveRaw.restSize.toInt := by
      intro hcount
      have hlast := Header.deriveRaw_rest_pos hw hsize hcount
      have hnone := (Header.deriveRaw_of_whole_blocks hw hpos hwhole).1
      omega
    exact (if_pos hsize).trans ((if_neg hcount).trans (congrArg some (if_pos hsize).symm))
  · exact (if_neg hsize).trans (congrArg some (if_neg hsize).symm)

/-- Settles O36: the header reaches the size checks, and fails one of them. -/
theorem wholeRawBlocksAreRejected : Obligations.WholeRawBlocksAreRejected := by
  intro s h rest hp ha hs hlen f hlevel hch hbits hpos hwhole
  have hlayout : f.layoutError = none := Header.layoutError_eq_none hch hbits
  have hw := Header.w_of_layout hlayout
  have hrange := (Header.deriveRaw_of_whole_blocks hw hpos hwhole).2
  have hviol := (s.rawRead_violation rest hlayout).trans (Header.sizeError_of_whole_blocks hlevel hw hpos hwhole)
  exact ⟨_, (exec_open_raw hp ha hs hlen hlevel hlayout hrange).trans (openValidate_raises hviol), rfl, rfl⟩

/-- Settles O34: the header read meets the end of the source, with CUR_BLOCK still -1. -/
theorem truncatedHeaderRaises : Obligations.TruncatedHeaderRaises := by
  intro s hp ha hlen
  exact ⟨_, (exec_open_idle hp).trans (openHeader_truncated (s := s.cleared) ha hlen), rfl, rfl, minusOne_toInt, rfl,
    rfl, rfl⟩

end Sys2Proof.Machine
end

section
/-! PROOFS. NEXT outside compressed blocks (spec/42_block_sequencer.md): without a session, the WAV header, and raw
blocks, whole, short and failing (R501 to R508, R831). -/

namespace Sys2Proof.Machine

/-! ### Without a session, and the WAV header -/

/-- NEXT runs its unit where no command executes (R500). -/
theorem exec_next_idle {s : State} (h : s.phase = .idle) : exec .nextCmd s = nextUnit s := if_pos h

/-- Settles O39: NEXT outside a session only reports (R501, R504). -/
theorem nextOutsideASession : Obligations.NextOutsideASession := by
  intro s hp
  rw [exec_next_idle hp]
  have idle (h : s.sess = .idle) : nextUnit s = .next s.reportNoSession := by rw [nextUnit, h]
  have aborted (h : s.sess = .error) : nextUnit s = .next s.reportAborted := by rw [nextUnit, h]
  have finished (h : s.sess = .finished) : nextUnit s = .next s.reportEnd := by rw [nextUnit, h]
  exact ⟨idle, aborted, finished⟩

/-- The WAV header has 44 bytes (R450). -/
theorem State.wavHeader_length (s : State) : s.wavHeader.length = 44 := (wavHeaderLayout _ _ _ _).1

/-- NEXT in NOT_STARTED is the WAV header's unit (R502). -/
theorem next_notStarted {s : State} (hp : s.phase = .idle) (hs : s.sess = .notStarted) :
    exec .nextCmd s = nextHeader s := by
  rw [exec_next_idle hp, nextUnit, hs]

/-- Settles O40: the write of the header is accepted, and counts 44 bytes (R452). -/
theorem nextWritesTheWavHeader : Obligations.NextWritesTheWavHeader := by
  intro s hp hs ha
  rw [next_notStarted hp hs, nextHeader, snkWrite_ok ha, State.accept, State.wavHeader_length]
  rfl

/-! ### The scratch load -/

/-- Settles O10: the scratch is a load from index 0 (R512). -/
theorem scratchHoldsTheBlock : Obligations.ScratchHoldsTheBlock := by
  intro buf s
  refine ⟨rfl, ramLoad_wf buf 0, fun a h => ?within, fun a h => ?beyond⟩
  case within =>
    have hbyte : some ((s.loadScratch buf).scratchByte a) = buf[a]? := scratchByte_of_load rfl h
    exact Option.some.inj (hbyte.trans (List.getElem?_eq_getElem h))
  case beyond =>
    rw [State.loadScratch_scratch, ramRead_ramLoad, if_pos (Nat.zero_le a)]
    exact List.getElem?_eq_none h

/-! ### Taking an error in the middle of a NEXT -/

/-- An error taken after the ports and the datapath have moved is taken of the state NEXT started in (R820). -/
theorem SameButBlock.errorTaken {e : ErrCode} {s v t : State} (h : SameButBlock s v) (ht : ErrorTaken e v t) :
    ErrorTaken e s t := by
  rw [h] at ht
  exact ht

/-- Every field R820 names, whatever the source held (R820). -/
theorem errorTaken_raiseFrom (rest0 : List Byte) (e : ErrCode) (s : State) : ErrorTaken e s (raiseFrom rest0 e s) :=
  ⟨⟨rfl, rfl, rfl, rfl, rfl, rfl⟩, ⟨rfl, rfl, rfl, rfl⟩, rfl, rfl, rfl⟩

/-- A failed write, told of the state NEXT started in: what came before it left the sink alone (R234, R820). -/
theorem SameButBlock.writeFailed {bytes : List Byte} {s v t : State} (h : SameButBlock s v) (hsink : v.sink = s.sink)
    (hpos : v.snkPos = s.snkPos) (ht : WriteFailed bytes v t) : WriteFailed bytes s t := by
  obtain ⟨herr, hbytes, hcount⟩ := ht
  exact ⟨h.errorTaken herr, by rwa [hsink] at hbytes, hcount.trans hpos⟩

/-- A failed write keeps what the sink had (R821). -/
theorem WriteFailed.sink_prefix {bytes : List Byte} {s t : State} (h : WriteFailed bytes s t) :
    s.sink.bytes <+: t.sink.bytes := by
  obtain ⟨_, ⟨k, hbytes⟩, _⟩ := h
  rw [hbytes]
  exact List.prefix_append _ _

/-- A write that the sink answers with IOERR, and the error taken after it (R234, R820). -/
theorem snkWrite_fails {s : State} (h : s.sinkFails) (bytes : List Byte) :
    ∃ t, snkWrite bytes s = (.ioerr, t) ∧ WriteFailed bytes s (raiseError .sinkWriteError t) := by
  rcases snkWrite_cases bytes s with ⟨_, h'⟩ | ⟨k, hw, _⟩ | ⟨_, h'⟩
  · rw [h] at h'; cases h'
  · exact ⟨_, hw, errorTaken_raiseFrom _ _ _, ⟨k, rfl⟩, rfl⟩
  · rw [h] at h'; cases h'

/-! ### Raw blocks -/

theorem State.notLastBlock_iff (s : State) : s.notLastBlock = true ↔ s.curBlock.toInt < s.hdr.blocks.toInt - 1 :=
  decide_eq_true_iff

/-- The size of raw block CUR_BLOCK (R505). -/
theorem State.rawSize_eq (s : State) :
    s.rawSize = (if s.curBlock.toInt < s.hdr.blocks.toInt - 1 then s.hdr.blockSize.toInt else s.hdr.restSize.toInt)
      * s.hdr.bits.toInt.tdiv 8 := by
  simp only [State.rawSize, State.notLastBlock_iff, State.w, ite_mul]

/-- The state after the source has supplied what is there of a read of `n` bytes (R233). -/
abbrev State.taken (n : Nat) (s : State) : State := s.consume (s.src.rest.take n)

/-- A raw block goes to the sink when its bytes are all there, and at the last block in any case (R505, R507). -/
theorem rawBlock_writes {s : State} (ha : s.sourceAnswers)
    (hthere : s.notLastBlock = true → s.rawSize.toNat ≤ s.src.rest.length) :
    rawBlock s = rawWrite (s.src.rest.take s.rawSize.toNat) (s.taken s.rawSize.toNat) := by
  by_cases hfull : s.rawSize.toNat ≤ s.src.rest.length
  · rw [rawBlock, srcRead_ok ha hfull]
  · have hlast : ¬ s.notLastBlock = true := fun hn => hfull (hthere hn)
    rw [rawBlock, srcRead_eof ha (by omega)]
    simp only [hlast, State.taken, List.take_of_length_le (Nat.le_of_not_le hfull)]
    rfl

/-- A raw block other than the last that meets the end of the source (R506). -/
theorem rawBlock_short {s : State} (ha : s.sourceAnswers) (hinner : s.notLastBlock = true)
    (hshort : s.src.rest.length < s.rawSize.toNat) :
    rawBlock s = rawReadFailed s.src.rest s.src.rest (s.consume s.src.rest) := by
  rw [rawBlock, srcRead_eof ha hshort]
  exact if_pos hinner

/-- A raw block whose read answers IOERR, after some of its bytes (R505, R233). -/
theorem rawBlock_fails {s : State} (hf : s.sourceFails) :
    ∃ k, k ≤ s.rawSize.toNat ∧ rawBlock s
      = rawReadFailed s.src.rest (s.src.rest.take k) { s.taken k with freeCtr := s.freeCtr + 1 } := by
  rcases srcRead_cases s.rawSize.toNat s with ⟨_, h⟩ | ⟨k, hr, hk, _⟩ | ⟨_, _, h⟩ | ⟨_, _, h⟩
  case inr.inl => exact ⟨k, hk, by rw [rawBlock, hr]⟩
  all_goals rw [hf] at h; cases h

/-- A raw block's bytes that the sink accepts, and Advance (R507, R508). -/
theorem rawWrite_ok {s : State} (ha : s.sinkAccepts) (bytes : List Byte) :
    rawWrite bytes s = .next ((s.accept bytes).blockDone bytes.length) := by
  rw [rawWrite, snkWrite_ok ha]

/-- A raw block's bytes that the sink answers with IOERR (R505, R820). -/
theorem rawWrite_fails {s : State} (h : s.sinkFails) (bytes : List Byte) :
    ∃ t, rawWrite bytes s = .next t ∧ WriteFailed bytes s t := by
  obtain ⟨t, hw, hfailed⟩ := snkWrite_fails h bytes
  exact ⟨_, by rw [rawWrite, hw], hfailed⟩

/-- A failed raw read is SourceReadError whatever the sink answers; what was read reaches it under PREFIX only, whole
when it accepts (R506, R822, R831). -/
theorem rawReadFailed_raises {s : State} (rest0 bytes : List Byte) (hsink : s.sink.answers.headD .ok ≠ .never) :
    ∃ t, rawReadFailed rest0 bytes s = .next t ∧ ErrorTaken .sourceReadError s t
      ∧ (s.params.partialOut = .keepWritten →
        (∃ k, t.sink.bytes = s.sink.bytes ++ bytes.take k)
        ∧ (s.sinkAccepts → t.sink.bytes = s.sink.bytes ++ bytes))
      ∧ (s.params.partialOut = .wholeBlocks → t.sink = s.sink) := by
  unfold rawReadFailed
  cases hout : s.params.partialOut with
  | wholeBlocks => exact ⟨_, rfl, errorTaken_raiseFrom _ _ _, nofun, fun _ => rfl⟩
  | keepWritten =>
    rcases snkWrite_cases bytes s with ⟨_, h⟩ | ⟨k, hw, h⟩ | ⟨hw, _⟩
    · exact absurd h hsink
    · rw [hw]
      refine ⟨_, rfl, errorTaken_raiseFrom _ _ _, fun _ => ⟨⟨k, rfl⟩, fun ha => ?_⟩, nofun⟩
      cases h.symm.trans ha
    · rw [hw]
      exact ⟨_, rfl, errorTaken_raiseFrom _ _ _, fun _ => ⟨⟨bytes.length, by rw [List.take_length]; rfl⟩, fun _ => rfl⟩,
        nofun⟩

/-- The state after `n` bytes have moved from the source to the sink as block CUR_BLOCK (R505, R507, R508). -/
theorem rawBlock_moves {s : State} {n : Nat} (hready : s.readyToStream .raw) (ha : s.sourceAnswers)
    (hsink : s.sinkAccepts) (hthere : s.notLastBlock = true → s.rawSize.toNat ≤ s.src.rest.length)
    (hn : n = min s.rawSize.toNat s.src.rest.length) :
    exec .nextCmd s = .next { s with
      src := ⟨s.src.rest.drop n, s.src.answers.tail⟩
      srcPos := s.srcPos + n
      sink := ⟨s.sink.bytes ++ s.src.rest.take s.rawSize.toNat, s.sink.answers.tail⟩
      snkPos := s.snkPos + n
      lastLen := BitVec.ofNat 32 n
      curBlock := BitVec.ofInt 32 (s.curBlock.toInt + 1)
      result := .chunk
      sess := if s.curBlock.toInt + 1 = s.hdr.blocks.toInt then .finished else .streaming } := by
  have ⟨_, hstreaming, _⟩ := hready
  have hlen : (s.src.rest.take s.rawSize.toNat).length = n := by rw [List.length_take, hn]
  rw [next_streaming hready]
  show rawBlock s = _
  rw [rawBlock_writes ha hthere, rawWrite_ok (s := s.taken _) hsink]
  simp only [State.consume, State.accept, State.blockDone, hlen, hstreaming, toWord, BitVec.ofInt_natCast]

/-- Settles O41: a block whose bytes are all there moves from the source to the sink. -/
theorem rawBlockIsCopied : Obligations.RawBlockIsCopied := by
  intro s hready ha hsink size hthere
  have hsize : s.rawSize.toNat = size := by rw [State.rawSize_eq, ite_mul]
  rw [← hsize] at hthere ⊢
  exact rawBlock_moves hready ha hsink (fun _ => hthere) (Nat.min_eq_left hthere).symm

/-- The bytes of a short last block move from the source to the sink, and the session is over (R505, R508). -/
theorem rawBlock_last_short {s : State} (hready : s.readyToStream .raw) (ha : s.sourceAnswers) (hsink : s.sinkAccepts)
    (hlast : s.curBlock.toInt = s.hdr.blocks.toInt - 1) (hshort : s.src.rest.length < s.rawSize.toNat) :
    exec .nextCmd s = .next { s with
      src := ⟨[], s.src.answers.tail⟩
      srcPos := s.srcPos + s.src.rest.length
      sink := ⟨s.sink.bytes ++ s.src.rest, s.sink.answers.tail⟩
      snkPos := s.snkPos + s.src.rest.length
      lastLen := BitVec.ofNat 32 s.src.rest.length
      curBlock := s.hdr.blocks
      result := .chunk
      sess := .finished } := by
  have hnot : s.notLastBlock = true → s.rawSize.toNat ≤ s.src.rest.length := fun h => by
    rw [State.notLastBlock_iff] at h; omega
  have hcur : s.curBlock.toInt + 1 = s.hdr.blocks.toInt := by omega
  rw [rawBlock_moves hready ha hsink hnot (Nat.min_eq_right (Nat.le_of_lt hshort)).symm, List.drop_length,
    List.take_of_length_le (Nat.le_of_lt hshort), if_pos hcur, hcur, BitVec.ofInt_toInt]

/-- Settles O42: the last block ends with what is there; every other failed read is SourceReadError. -/
theorem shortRawReads : Obligations.ShortRawReads := by
  refine ⟨fun s hready ha hsink => ⟨fun hlast hshort => ?last, fun hinner hshort => ?inner⟩, ?failed⟩
  case last =>
    refine rawBlock_last_short hready ha hsink hlast ?_
    rw [State.rawSize_eq, if_neg (by omega)]
    omega
  case inner =>
    have hsize : s.src.rest.length < s.rawSize.toNat := by rw [State.rawSize_eq, if_pos hinner]; omega
    obtain ⟨t, ht, herr, hkept, hwhole⟩ := rawReadFailed_raises (s := s.consume s.src.rest) s.src.rest s.src.rest
      (by rw [State.consume_sink, hsink]; decide)
    refine ⟨t, ?_, SameButBlock.errorTaken rfl herr, fun hout => (hkept hout).2 hsink, hwhole⟩
    rw [next_streaming hready, ← ht]
    exact rawBlock_short ha (s.notLastBlock_iff.mpr hinner) hsize
  case failed =>
    intro s hready hf hsink size
    have hsize : s.rawSize.toNat = size := by rw [State.rawSize_eq]
    obtain ⟨k, hk, hblock⟩ := rawBlock_fails hf
    obtain ⟨t, ht, herr, hkept, hwhole⟩ := rawReadFailed_raises
      (s := { s.taken k with freeCtr := s.freeCtr + 1 }) s.src.rest (s.src.rest.take k) hsink
    refine ⟨t, ?_, SameButBlock.errorTaken rfl herr, fun hout => ?_, hwhole⟩
    · rw [next_streaming hready, ← ht]
      exact hblock
    · obtain ⟨⟨j, hbytes⟩, _⟩ := hkept hout
      exact ⟨min j k, by omega, by rw [← List.take_take]; exact hbytes⟩

end Sys2Proof.Machine
end

section
/-! PROOFS. Block decodes run forward (spec/43_bitstream_decode.md R600): what one iteration does when its seed or its
code is there, and the sink writes that fail (R234, R640, R642, R820). -/

namespace Sys2Proof.Machine

/-! ### One iteration -/

/-- Outside the commands the machine's dispatch is the block's. -/
theorem exec_of_decidesSample {i : Instr} (hi : i.decidesSample = true) (s : State) : exec i s = execInBlock i s := by
  cases i
  case seed | nop | openCmd | nextCmd | resetCmd => cases hi
  all_goals rfl

/-- The iteration that seeds a channel (R600). -/
theorem blockStep_seeding {ex : Instr → State → Step} {s : State} {c : Chan} (hp : s.phase = .seeding c) :
    blockStep ex s = thenBlock (ex (.seed c) s) (afterSeed c) := by
  rw [blockStep, hp]

/-- The iteration of a REPEAT or a code (R606). -/
theorem blockStep_codes {ex : Instr → State → Step} {s t : State} {i : Instr} (hp : s.phase = .codes)
    (hidx : s.idx < s.total) (hf : s.fetchCode = .run i t) : blockStep ex s = thenBlock (ex i t) afterSample := by
  rw [blockStep, hp]
  simp only [Nat.not_le.mpr hidx, if_false, hf]

/-- A seed whose bytes are there (R603, R604). -/
theorem execSeed_there {c : Chan} {s : State} (h : s.seedBytes ≤ s.scrLen) :
    execSeed c s = .next (s.setRunning c (s.seedValue c)) := if_neg (Nat.not_lt.mpr h)

/-- Going on after an operation that has not ended the block. -/
theorem thenBlock_busy {t : State} {f : State → Step} (h : t.phase ≠ .idle) : thenBlock (.next t) f = f t := if_neg h

/-- Going on after an operation that has ended the block. -/
theorem thenBlock_ended {t : State} {f : State → Step} (h : t.phase = .idle) : thenBlock (.next t) f = .next t :=
  if_pos h

/-- The iteration that seeds a channel whose bytes are there (R600, R603). -/
theorem blockStep_seed_there {s : State} {c : Chan} (hp : s.phase = .seeding c) (h : s.seedBytes ≤ s.scrLen) :
    blockStep execInBlock s = afterSeed c (s.setRunning c (s.seedValue c)) := by
  have hbusy : (s.setRunning c (s.seedValue c)).phase ≠ .idle := by rw [State.setRunning_phase, hp]; nofun
  rw [blockStep_seeding hp, execInBlock, execSeed_there h, thenBlock_busy hbusy]

/-- An iteration in the code loop with a REPEAT or a code to take: at most 14 bits are consumed, the datapath changes,
and one sample is emitted (R606, R607, R656). -/
theorem blockStep_emits {s : State} (hp : s.phase = .codes) (hidx : s.idx < s.total)
    (hdue : s.runlength ≠ 0 ∨ ∃ i len, s.decodeNext = .code i len) :
    ∃ n u, n ≤ 14 ∧ DatapathOnly (s.advanceBits n) u
      ∧ blockStep execInBlock s = thenBlock (emit u) afterSample := by
  have runs {i : Instr} {n : Nat} (hi : i.decidesSample = true) (hn : n ≤ 14)
      (hf : s.fetchCode = .run i (s.advanceBits n)) : ∃ n u, n ≤ 14 ∧ DatapathOnly (s.advanceBits n) u
        ∧ blockStep execInBlock s = thenBlock (emit u) afterSample := by
    obtain ⟨u, hu, hdata⟩ := code_is_emit i hi (s.advanceBits n)
    exact ⟨n, u, hn, hdata, by rw [blockStep_codes hp hidx hf, hu]⟩
  rcases fetchCode_cases s with ⟨_, hf⟩ | ⟨hzero, ⟨i, len, hd, hf⟩ | ⟨used, hd, _⟩ | ⟨hd, _⟩⟩
  · exact runs (n := 0) rfl (Nat.zero_le _) hf
  · exact runs (decodeCode_kind hd).1 (decodeCode_end hd).2.2 hf
  all_goals
    rcases hdue with hne | ⟨i, len, hcode⟩
    · exact absurd hzero hne
    · cases hd.symm.trans hcode

/-! ### Failed writes -/

/-- An emission under PREFIX that the sink answers with IOERR (R640, R820). -/
theorem emit_fails {s : State} (hout : s.params.partialOut = .keepWritten) (hf : s.sinkFails) :
    ∃ t, emit s = .next t ∧ t.phase = .idle ∧ WriteFailed s.emitted s t := by
  obtain ⟨t, hw, hfailed⟩ := snkWrite_fails hf s.emitted
  exact ⟨raiseError .sinkWriteError t, by rw [emit, hout]; simp only [hw], rfl, hfailed⟩

/-- The write at a block's end under NONE that the sink answers with IOERR (R642, R820). -/
theorem finishBlock_fails {s : State} (hout : s.params.partialOut = .wholeBlocks) (htotal : 0 < s.total)
    (hf : s.sinkFails) : ∃ t, finishBlock s = .next t ∧ WriteFailed s.outBuf s t := by
  obtain ⟨t, hw, hfailed⟩ := snkWrite_fails hf s.outBuf
  exact ⟨raiseError .sinkWriteError t, by rw [finishBlock, if_pos ⟨hout, htotal⟩, hw], hfailed⟩

/-- The write of the WAV header that the sink answers with IOERR (R502, R820). -/
theorem nextHeader_fails {s : State} (hf : s.sinkFails) :
    ∃ t, nextHeader s = .next t ∧ WriteFailed s.wavHeader s t := by
  obtain ⟨t, hw, hfailed⟩ := snkWrite_fails hf s.wavHeader
  exact ⟨raiseError .sinkWriteError t, by rw [nextHeader, hw], hfailed⟩

/-- A code's sample that the sink answers with IOERR under PREFIX (R640). -/
theorem exec_code_fails {s : State} {i : Instr} (hi : i.decidesSample = true)
    (hout : s.params.partialOut = .keepWritten) (hf : s.sinkFails) :
    ∃ t bytes, exec i s = .next t ∧ WriteFailed bytes s t := by
  obtain ⟨u, hu, hdata⟩ := code_is_emit i hi s
  have hsame := hdata.loop.keep
  have hsink : u.sink = s.sink := by rw [hdata]
  have hparams : u.params = s.params := by rw [hdata]
  obtain ⟨t, ht, _, hfailed⟩ := emit_fails (s := u) (by rw [hparams]; exact hout) (by rw [State.sinkFails, hsink]; exact hf)
  exact ⟨t, u.emitted, by rw [exec_of_decidesSample hi, hu, ht],
    hsame.writeFailed hsink (by rw [hdata]) hfailed⟩

/-- The first seed's sample that the sink answers with IOERR under PREFIX (R605, R640). -/
theorem startCodes_fails {s : State} (hidx : s.idx < min s.chans s.total) (hseed : s.params.seedMode = .seedEmit)
    (hout : s.params.partialOut = .keepWritten) (hf : s.sinkFails) :
    ∃ t bytes, startCodes s = .next t ∧ WriteFailed bytes s t := by
  obtain ⟨t, ht, hidle, hfailed⟩ := emit_fails (s := s.atBitstream) hout hf
  obtain ⟨n, hn⟩ : ∃ n, s.chans = n + 1 := ⟨s.chans - 1, by omega⟩
  have hdue : ¬ min s.atBitstream.chans s.atBitstream.total ≤ s.atBitstream.idx := Nat.not_le.mpr hidx
  refine ⟨t, _, ?_, SameButBlock.writeFailed rfl rfl rfl hfailed⟩
  rw [startCodes_eq, hseed]
  simp only [hn, emitSeeds, if_neg hdue, ht, thenBlock_ended hidle]

/-- The seed of the last channel is followed by the start of the bitstream (R600). -/
theorem afterSeed_last {s : State} {c : Chan} (h : c = true ∨ s.hdr.channels ≠ 2) : afterSeed c s = startCodes s := by
  refine if_neg ?_
  rintro ⟨hc, hst⟩
  rcases h with h | h
  · rw [hc] at h; cases h
  · exact h (by simpa [State.stereo] using hst)

theorem State.chans_pos (s : State) : 0 < s.chans := by unfold State.chans; split <;> decide

/-- The step that emits the first seed, with a sink that answers IOERR under PREFIX (R605, R640). -/
theorem step_first_seed_fails {s : State} {c : Chan} (hdue : s.lastSeedDue c) (hthere : s.seedBytes ≤ s.scrLen)
    (hseed : s.params.seedMode = .seedEmit) (hout : s.params.partialOut = .keepWritten) (hf : s.sinkFails) :
    ∃ t bytes, step s = .next t ∧ WriteFailed bytes s t := by
  obtain ⟨hp, hlast, hidx, _, htotal⟩ := hdue
  have hdata := setRunning_datapathOnly c (s.seedValue c) s
  have hstep : step s = afterSeed c (s.setRunning c (s.seedValue c)) := by
    rw [step_busy_inBlock (by rw [hp]; nofun), blockStep_seed_there hp hthere]
  generalize s.setRunning c (s.seedValue c) = v at hdata hstep
  have hkeep : v.hdr = s.hdr ∧ v.idx = s.idx ∧ v.total = s.total ∧ v.params = s.params ∧ v.sink = s.sink
      ∧ v.snkPos = s.snkPos := by rw [hdata]; exact ⟨rfl, rfl, rfl, rfl, rfl, rfl⟩
  obtain ⟨vhdr, vidx, vtotal, vparams, vsink, vpos⟩ := hkeep
  have hfirst : v.idx < min v.chans v.total := by
    rw [vidx, vtotal, hidx]; exact Nat.lt_min.mpr ⟨v.chans_pos, htotal⟩
  obtain ⟨t, bytes, ht, hfailed⟩ := startCodes_fails hfirst (by rw [vparams]; exact hseed)
    (by rw [vparams]; exact hout) (by rw [State.sinkFails, vsink]; exact hf)
  refine ⟨t, bytes, ?_, hdata.loop.keep.writeFailed vsink vpos hfailed⟩
  rw [hstep, afterSeed_last (by rwa [vhdr]), ht]

/-- The state after a sample has been emitted under NONE: its bytes wait for the block's end (R642). -/
abbrev State.sampleWaits (s : State) : State := ({ s with outBuf := s.outBuf ++ s.emitted }).advanceSample

theorem emit_waits {s : State} (hout : s.params.partialOut = .wholeBlocks) : emit s = .next s.sampleWaits := by
  rw [emit, hout]

/-- The emission of a block's last sample under NONE, with a sink that answers the block's one write with IOERR
(R642). -/
theorem emit_last_fails {s : State} (hp : s.phase ≠ .idle) (hlast : s.idx + 1 = s.total)
    (hout : s.params.partialOut = .wholeBlocks) (hf : s.sinkFails) :
    ∃ t bytes, thenBlock (emit s) afterSample = .next t ∧ WriteFailed bytes s t := by
  obtain ⟨t, ht, hfailed⟩ := finishBlock_fails (s := s.sampleWaits) hout (by show 0 < s.total; omega) hf
  have hover : s.sampleWaits.total ≤ s.sampleWaits.idx := Nat.le_of_eq hlast.symm
  refine ⟨t, _, ?_, SameButBlock.writeFailed rfl rfl rfl hfailed⟩
  rw [emit_waits hout, thenBlock_busy (t := s.sampleWaits) hp, afterSample_eq, if_pos hover, ht]

/-- The step that emits a block's last sample under NONE, with a sink that answers IOERR (R642). -/
theorem step_last_sample_fails {s : State} (hdue : s.lastSampleDue) (hout : s.params.partialOut = .wholeBlocks)
    (hf : s.sinkFails) : ∃ t bytes, step s = .next t ∧ WriteFailed bytes s t := by
  obtain ⟨hp, hlast, hcode⟩ := hdue
  have hbusy : s.phase ≠ .idle := by rw [hp]; nofun
  obtain ⟨n, u, _, hdata, hstep⟩ := blockStep_emits hp (by omega) hcode
  have hkeep : u.phase = s.phase ∧ u.idx = s.idx ∧ u.total = s.total ∧ u.params = s.params ∧ u.sink = s.sink
      ∧ u.snkPos = s.snkPos := by rw [hdata]; exact ⟨rfl, rfl, rfl, rfl, rfl, rfl⟩
  obtain ⟨uphase, uidx, utotal, uparams, usink, upos⟩ := hkeep
  have hsame : SameButBlock s u := SameButDecode.keep (SameButDecode.trans (s := s.advanceBits n) rfl hdata.loop)
  obtain ⟨t, bytes, ht, hfailed⟩ := emit_last_fails (s := u) (by rwa [uphase]) (by rw [uidx, utotal, hlast])
    (by rw [uparams, hout]) (by rwa [State.sinkFails, usink])
  exact ⟨t, bytes, by rw [step_busy_inBlock hbusy, hstep, ht], hsame.writeFailed usink upos hfailed⟩

/-- Settles O29: each write of a NEXT that fails is the one failed write of `snkWrite_fails`. -/
theorem sampleWriteFailureRaises : Obligations.SampleWriteFailureRaises := by
  have kept {o : Step} {s : State} (h : ∃ t bytes, o = .next t ∧ WriteFailed bytes s t) : ∃ t, o = .next t
      ∧ ErrorTaken .sinkWriteError s t ∧ s.sink.bytes <+: t.sink.bytes ∧ t.snkPos = s.snkPos := by
    obtain ⟨t, bytes, ht, hfailed⟩ := h
    have ⟨herr, _, hpos⟩ := hfailed
    exact ⟨t, ht, herr, hfailed.sink_prefix, hpos⟩
  refine ⟨fun s i hi hout hf => kept (exec_code_fails hi hout hf),
    fun s c hdue hthere hseed hout hf => kept (step_first_seed_fails hdue hthere hseed hout hf), ?header, ?raw,
    fun s => finishBlock_fails, fun s hdue hout hf => kept (step_last_sample_fails hdue hout hf)⟩
  case header =>
    intro s hp hs hf
    rw [next_notStarted hp hs]
    exact nextHeader_fails hf
  case raw =>
    intro s hready ha hf inner size hthere
    have hsize : s.rawSize.toNat = size := by rw [State.rawSize_eq]
    rw [← hsize] at hthere ⊢
    obtain ⟨t, ht, hfailed⟩ := rawWrite_fails (s := s.taken s.rawSize.toNat) hf (s.src.rest.take s.rawSize.toNat)
    refine ⟨t, ?_, SameButBlock.writeFailed rfl rfl rfl hfailed⟩
    rw [next_streaming hready, ← ht]
    exact rawBlock_writes ha fun hn => hthere (s.notLastBlock_iff.mp hn)

end Sys2Proof.Machine
end

section
/-! PROOFS. Compressed blocks (spec/42_block_sequencer.md R508 to R514): the errors before the decode, the last block
without samples, and what a block that completes has written. -/

namespace Sys2Proof.Machine

/-! ### Errors before the decode -/

theorem startBlock_of_inner {s : State} (h : s.curBlock.toInt < s.hdr.blocks.toInt - 1) :
    startBlock s = startInnerBlock s := if_pos (s.notLastBlock_iff.mpr h)

theorem startBlock_of_last {s : State} (h : ¬ s.curBlock.toInt < s.hdr.blocks.toInt - 1) :
    startBlock s = startFinalBlock s := if_neg fun hn => h (s.notLastBlock_iff.mp hn)

/-- A start that ends the command ends NEXT (R820). -/
theorem next_of_start_ended {s t : State} (hready : s.readyToStream .compressed) (h : startBlock s = .next t)
    (hp : t.phase = .idle) : exec .nextCmd s = .next t := by
  rw [next_streaming hready]
  simp only [compressedBlock, h, runBlock_idle _ _ _ hp]

/-- An inner block's read that fails or falls short (R510, R831). -/
theorem startInnerBlock_read_fails {s : State}
    (hguard : ¬ (s.readBound ≤ s.compressedLength ∨ s.compressedLength < 0))
    (h : s.sourceFails ∨ (s.sourceAnswers ∧ (s.src.rest.length : Int) < s.compressedLength)) :
    ∃ v, SameButBlock s v ∧ v.sink = s.sink ∧ v.snkPos = s.snkPos
      ∧ startInnerBlock s = .next (raiseFrom s.src.rest .sourceReadError v) := by
  rw [startInnerBlock, if_neg hguard]
  rcases srcRead_cases s.compressedLength.toNat s with ⟨_, ha⟩ | ⟨k, hr, _⟩ | ⟨_, hlen, ha⟩ | ⟨hr, _⟩
  · rcases h with h | ⟨h, _⟩ <;> cases ha.symm.trans h
  · exact ⟨{ s.taken k with freeCtr := s.freeCtr + 1 }, rfl, rfl, rfl, by rw [hr]⟩
  · rcases h with h | ⟨_, hshort⟩
    · cases ha.symm.trans h
    · omega
  · exact ⟨s.consume s.src.rest, rfl, rfl, rfl, by rw [hr]⟩

/-- The last block's read that fails (R511, R831). -/
theorem startFinalBlock_read_fails {s : State} (hbound : 0 < s.readBound) (hf : s.sourceFails) :
    ∃ v, SameButBlock s v ∧ v.sink = s.sink ∧ v.snkPos = s.snkPos
      ∧ startFinalBlock s = .next (raiseFrom s.src.rest .sourceReadError v) := by
  rw [startFinalBlock, if_neg (Int.not_le.mpr hbound)]
  rcases srcRead_cases s.readBound.toNat s with ⟨_, ha⟩ | ⟨k, hr, _⟩ | ⟨_, _, ha⟩ | ⟨_, _, ha⟩
  case inr.inl => exact ⟨{ s.taken k with freeCtr := s.freeCtr + 1 }, rfl, rfl, rfl, by rw [hr]⟩
  all_goals cases ha.symm.trans hf

/-- Settles O43: the guard comes before the read, and a read that fails ends the block (R510, R511). -/
theorem innerCompressedBlockErrors : Obligations.InnerCompressedBlockErrors := by
  have raised {s : State} (hready : s.readyToStream .compressed)
      (h : ∃ v, SameButBlock s v ∧ v.sink = s.sink ∧ v.snkPos = s.snkPos
        ∧ startBlock s = .next (raiseFrom s.src.rest .sourceReadError v)) :
      ∃ t, exec .nextCmd s = .next t ∧ ErrorTaken .sourceReadError s t ∧ t.sink = s.sink ∧ t.snkPos = s.snkPos := by
    obtain ⟨v, hsame, hsink, hpos, hstart⟩ := h
    exact ⟨_, next_of_start_ended hready hstart rfl, hsame.errorTaken (errorTaken_raiseFrom _ _ v), hsink, hpos⟩
  refine ⟨fun s hready hcur hinner => ?inner, fun s hready hlast hbound hf => ?last⟩
  case inner =>
    rw [← compressedLength_eq s hcur]
    refine ⟨fun hguard => ?overflow, fun hlo hhi hread => ?read⟩
    case overflow =>
      have hstart : startBlock s = .next (raiseError .blockSizeOverflow s) :=
        (startBlock_of_inner hinner).trans (if_pos hguard)
      exact ⟨_, next_of_start_ended hready hstart rfl, errorTaken_raiseFrom _ _ s, rfl, rfl, rfl⟩
    case read =>
      have hguard : ¬ (s.readBound ≤ s.compressedLength ∨ s.compressedLength < 0) :=
        not_or.mpr ⟨Int.not_le.mpr hhi, Int.not_lt.mpr hlo⟩
      exact raised hready (startBlock_of_inner hinner ▸ startInnerBlock_read_fails hguard hread)
  case last =>
    exact raised hready (startBlock_of_last (s := s) (by omega) ▸ startFinalBlock_read_fails hbound hf)

/-! ### The start of the decode -/

/-- The state in which DecodeBlock(curblocksize) enters its loops (R600 to R602). -/
def State.decodeStart (size : Int) (s : State) : State :=
  { s with total := (size.tdiv s.w).toNat, idx := 0, runlength := 0, flip := false, outBuf := [] }

/-- A block of no samples is over at once; any other begins at its first seed (R600). -/
theorem beginDecode_eq (size : Int) (s : State) : beginDecode size s =
    if (size.tdiv s.w).toNat = 0 then finishBlock (s.decodeStart size)
    else .next { s.decodeStart size with phase := .seeding false } := rfl

/-- A block of no samples writes nothing (R513, R514). -/
theorem beginDecode_empty {size : Int} {s : State} (h : (size.tdiv s.w).toNat = 0) :
    beginDecode size s = .next (s.decodeStart size).endBlock := by
  rw [beginDecode_eq, if_pos h]
  exact if_neg fun hc => absurd h (Nat.ne_of_gt hc.2)

/-- The width of a valid header's samples, in bytes (R15, R421). -/
theorem State.w_of_bits {s : State} (h : s.hdr.bits.toInt = 8 ∨ s.hdr.bits.toInt = 16) : s.w = 1 ∨ s.w = 2 := by
  rw [State.w]
  rcases h with h | h <;> rw [h] <;> decide

/-- `T` is the block's number of samples (R601). -/
theorem blockSamples_tdiv (s : State) (hw : s.w = 1 ∨ s.w = 2) :
    (s.blockSamples * s.w).tdiv s.w = s.blockSamples := Int.mul_tdiv_cancel _ (by omega)

theorem blockSamples_of_last {s : State} (h : ¬ s.curBlock.toInt < s.hdr.blocks.toInt - 1) :
    s.blockSamples = s.hdr.restSize.toInt := if_neg fun hn => h (s.notLastBlock_iff.mp hn)

theorem blockSamples_eq (s : State) : s.blockSamples
    = if s.curBlock.toInt < s.hdr.blocks.toInt - 1 then s.hdr.blockSize.toInt else s.hdr.restSize.toInt := by
  simp only [State.blockSamples, State.notLastBlock_iff]

/-! ### The reads that are answered -/

/-- An inner block within the guard whose bytes are all there (R510, R512). -/
theorem startInnerBlock_reads {s : State} (ha : s.sourceAnswers) (hlo : 0 ≤ s.compressedLength)
    (hhi : s.compressedLength < s.readBound) (hthere : s.compressedLength ≤ s.src.rest.length) :
    startInnerBlock s = loadBlock (s.hdr.blockSize.toInt * s.w) (s.src.rest.take s.compressedLength.toNat)
      (s.taken s.compressedLength.toNat) := by
  rw [startInnerBlock, if_neg (by omega), srcRead_ok ha (by omega)]

/-- The last block's read, whole or short (R511, R512). -/
theorem startFinalBlock_reads {s : State} (ha : s.sourceAnswers) (hbound : 0 < s.readBound) :
    startFinalBlock s = loadBlock (s.hdr.restSize.toInt * s.w) (s.src.rest.take s.readBound.toNat)
      (s.taken s.readBound.toNat) := by
  rw [startFinalBlock, if_neg (by omega)]
  by_cases hfull : s.readBound.toNat ≤ s.src.rest.length
  · rw [srcRead_ok ha hfull]
  · rw [srcRead_eof ha (by omega), State.taken, List.take_of_length_le (by omega)]

/-- The last block without a read: nothing is loaded, and that fits every scratch RAM (R511, R512). -/
theorem startFinalBlock_without_read {s : State} (hbound : s.readBound ≤ 0) :
    startFinalBlock s = beginDecode (s.hdr.restSize.toInt * s.w) (s.loadScratch []) := by
  rw [startFinalBlock, if_pos hbound]
  exact loadBlock_of_fits (n := 0) (fun cap _ => Int.natCast_nonneg cap) (Int.le_refl 0)

/-- The last block, read up to a positive bound, loaded where it fits the scratch RAM (R511, R512). -/
theorem startFinalBlock_loaded {s : State} (ha : s.sourceAnswers) (hbound : 0 < s.readBound)
    (hfits : s.scratchHolds (min s.readBound s.src.rest.length)) :
    startFinalBlock s = beginDecode (s.hdr.restSize.toInt * s.w)
      ((s.taken s.readBound.toNat).loadScratch (s.src.rest.take s.readBound.toNat)) := by
  rw [startFinalBlock_reads ha hbound]
  exact loadBlock_of_fits (s := s.taken _) hfits (by rw [List.length_take]; omega)

/-! ### The last block without samples -/

/-- Such a block, once started, ends the session: FINISHED, a chunk of length 0, nothing written (R513, R514, R508). -/
theorem next_of_empty_start {s v : State} (hready : s.readyToStream .compressed)
    (hlast : s.curBlock.toInt = s.hdr.blocks.toInt - 1) (hw : s.w = 1 ∨ s.w = 2) (hempty : s.hdr.restSize.toInt ≤ 0)
    (hstart : startFinalBlock s = beginDecode (s.hdr.restSize.toInt * s.w) v) (hsame : SameButBlock s v)
    (hsink : v.sink = s.sink) (hpos : v.snkPos = s.snkPos) :
    ∃ t, exec .nextCmd s = .next t ∧ t.sess = .finished ∧ t.result = .chunk ∧ t.lastLen = 0
      ∧ t.sink = s.sink ∧ t.snkPos = s.snkPos ∧ t.src = v.src := by
  have hhdr : v.hdr = s.hdr := by rw [hsame]
  have hcur : v.curBlock = s.curBlock := by rw [hsame]
  have hzero : ((s.hdr.restSize.toInt * s.w).tdiv v.w).toNat = 0 := by
    rw [State.w_congr hhdr, Int.mul_tdiv_cancel _ (by omega)]
    omega
  have hnext := hstart.trans (beginDecode_empty hzero)
  rw [← startBlock_of_last (by omega)] at hnext
  refine ⟨_, next_of_start_ended hready hnext rfl, if_pos ?_, rfl, ?_, hsink, hpos, rfl⟩
  · show v.curBlock.toInt + 1 = v.hdr.blocks.toInt
    rw [hcur, hhdr, hlast]
    omega
  · show toWord (((s.hdr.restSize.toInt * s.w).tdiv v.w).toNat * v.w) = 0
    rw [hzero, Int.natCast_zero, Int.zero_mul]
    rfl

/-- Settles O44: what the last block reads is loaded, and no sample is decoded from it. -/
theorem emptyFinalBlock : Obligations.EmptyFinalBlock := by
  intro s hready ha hbits _ hlast hempty hfits
  have hw : s.w = 1 ∨ s.w = 2 := State.w_of_bits (by rcases hbits with h | h <;> rw [h] <;> decide)
  rcases Int.lt_or_le 0 s.readBound with hbound | hbound
  · obtain ⟨t, ht, hsess, hresult, hlen, hsink, hpos, hsrc⟩ := next_of_empty_start hready hlast hw hempty
      (startFinalBlock_loaded ha hbound hfits) rfl rfl rfl
    refine ⟨t, ht, hsess, hresult, hlen, hsink, hpos, fun _ => ?_⟩
    rw [hsrc]
    show s.src.rest.drop (s.src.rest.take s.readBound.toNat).length = s.src.rest.drop s.readBound.toNat
    rw [List.length_take, List.drop_eq_drop_iff]
    omega
  · obtain ⟨t, ht, hsess, hresult, hlen, hsink, hpos, _⟩ := next_of_empty_start hready hlast hw hempty
      (startFinalBlock_without_read hbound) rfl rfl rfl
    refine ⟨t, ht, hsess, hresult, hlen, hsink, hpos, fun hsize => ?_⟩
    have : 0 < s.readBound := by
      rw [State.readBound]
      rcases hw with hw | hw <;> rw [hw] <;> omega
    omega

/-! ### A block that completes -/

/-- A sample has `w` bytes (R341). -/
theorem State.sampleSize_eq_w {s : State} (h : s.hdr.bits.toInt = 8 ∨ s.hdr.bits.toInt = 16) :
    (s.sampleSize : Int) = s.w := by
  rw [State.sampleSize, State.narrow, State.w]
  rcases h with h | h
  · have hb : s.hdr.bits = 8 := BitVec.eq_of_toInt_eq h
    rw [hb]; decide
  · have hb : s.hdr.bits = 16 := BitVec.eq_of_toInt_eq h
    rw [hb]; decide

/-- A byte count of a register's samples fits LAST_LEN (R105). -/
theorem toWord_toNat_of_samples {samples w : Int} (hw : w = 1 ∨ w = 2) (hlo : 0 ≤ samples)
    (hhi : samples < 2147483648) : ((toWord (samples * w)).toNat : Int) = samples * w := by
  rw [toWord, toNat_ofInt_eq_emod]
  rcases hw with hw | hw <;> rw [hw] <;> omega

/-- What the bytes of the block's samples are in terms of `curblocksize` (R511, R601). -/
theorem max_blockSamples (s : State) (hw : s.w = 1 ∨ s.w = 2) :
    (s.blockSamples.toNat : Int) * s.w = max 0 (s.blockSamples * s.w) := by
  rcases hw with hw | hw <;> rw [hw] <;> omega

/-- Settles O46: a block that has not failed has ended with all its samples emitted (R508, R514, R601). -/
theorem completedBlockAccounting : Obligations.CompletedBlockAccounting := by
  intro s t hready hs h hne size
  have ⟨_, hstreaming, _⟩ := hready
  obtain ⟨⟨hcurlo, hcurhi⟩, _, _, _, hbits, _⟩ := (State.sessionLegal_iff_of_streaming hstreaming).mp hs
  have hw := State.w_of_bits hbits
  have hsize : max 0 size = (s.blockSamples.toNat : Int) * s.w := by
    rw [max_blockSamples s hw, blockSamples_eq]; rfl
  rw [next_streaming hready] at h
  obtain ⟨v, hsame, _, _, ⟨_, _, _, _, rfl⟩ | ⟨rfl, htotal, pcm, hbytes, hpos, hlen⟩⟩ := compressedBlock_inv h
  · exact absurd rfl hne
  have hkeep : v.hdr = s.hdr ∧ v.curBlock = s.curBlock ∧ v.sess = s.sess := by rw [hsame]; exact ⟨rfl, rfl, rfl⟩
  obtain ⟨vhdr, vcur, vsess⟩ := hkeep
  rw [blockSamples_tdiv s hw] at htotal
  have hrange : (s.blockSamples.toNat : Int) < 2147483648 := by
    have := s.hdr.blockSize.toInt_lt
    have := s.hdr.restSize.toInt_lt
    rw [blockSamples_eq]
    split <;> omega
  refine ⟨⟨pcm, hbytes, ?count, hpos⟩, ?lastLen, ?curBlock, rfl, ?sess, ?frame⟩
  case count => rw [hsize, hlen, htotal, Int.natCast_mul, State.sampleSize_eq_w hbits]
  case lastLen =>
    show ((toWord (v.total * v.w)).toNat : Int) = _
    rw [hsize, State.w_congr vhdr, htotal, toWord_toNat_of_samples hw (Int.natCast_nonneg _) hrange]
  case curBlock =>
    show (toWord (v.curBlock.toInt + 1)).toInt = _
    have := s.hdr.blocks.toInt_lt
    rw [vcur, toWord_toInt (by omega) (by omega)]
  case sess =>
    show (if v.curBlock.toInt + 1 = v.hdr.blocks.toInt then SessState.finished else v.sess) = _
    rw [vcur, vhdr, vsess, hstreaming]
  case frame =>
    rw [hsame]
    exact ⟨rfl, rfl, rfl, rfl, rfl, rfl, rfl, rfl, rfl⟩

end Sys2Proof.Machine
end

section
/-! PROOFS. A compressed block with bits to spare completes (R600, R656, R931): each sample still to emit has more than
14 bits left for it, whatever the codes, and the sink accepts every write. -/

namespace Sys2Proof.Machine

/-! ### The invariant -/

/-- The bits the block decode can still read: those after the cursor, or all that the seeds leave (R135, R701). -/
def State.bitsLeft (s : State) : Nat :=
  match s.phase with
  | .codes => 8 * s.brLen - s.brPos
  | _ => 8 * (s.scrLen - s.seedBytes)

theorem State.bitsLeft_of_codes {s : State} (h : s.phase = .codes) : s.bitsLeft = 8 * s.brLen - s.brPos := by
  rw [State.bitsLeft, h]

theorem State.bitsLeft_of_seeding {s : State} {c : Chan} (h : s.phase = .seeding c) :
    s.bitsLeft = 8 * (s.scrLen - s.seedBytes) := by
  rw [State.bitsLeft, h]

/-- A block decode in a session that can neither be refused nor fail: a level of a compressed stream, a sink that
accepts, and more than 14 bits for every sample still to emit but the next `paid`, whose bits have been read. -/
structure AmpleDecode (paid : Nat) (s : State) : Prop where
  streaming : s.sess = .streaming
  level : 0 ≤ s.level ∧ s.level ≤ 5
  accepts : s.sinkAlwaysAccepts
  busy : s.phase ≠ .idle
  bits : 14 * (s.total - (s.idx + paid)) < s.bitsLeft

/-- NEXT has ended with its block complete (R514, R508). -/
abbrev BlockCompleted (t : State) : Prop := t.phase = .idle ∧ t.sess ≠ .error ∧ t.result = .chunk

/-- The operation answers a state in which the block is complete, or goes on with bits to spare. -/
abbrev GoesOn (o : Step) : Prop := ∃ t, o = .next t ∧ (AmpleDecode 0 t ∨ BlockCompleted t)

/-- A sample whose bits have been read needs none. -/
theorem AmpleDecode.pay {s : State} (h : AmpleDecode 0 s) (paid : Nat) : AmpleDecode paid s :=
  { h with bits := Nat.lt_of_le_of_lt (Nat.mul_le_mul_left 14 (by omega)) h.bits }

/-- The datapath does not matter. -/
theorem AmpleDecode.of_datapath {paid : Nat} {s u : State} (hs : AmpleDecode paid s) (h : DatapathOnly s u) :
    AmpleDecode paid u := by
  obtain ⟨hsess, hlevel, hsink, hbusy, hbits⟩ := hs
  rw [h]
  exact ⟨hsess, hlevel, hsink, hbusy, hbits⟩

/-- The bits of one code are read: at most 14, for one sample (R606, R656). -/
theorem AmpleDecode.read {s : State} (hs : AmpleDecode 0 s) (hp : s.phase = .codes) (hidx : s.idx < s.total) {n : Nat}
    (hn : n ≤ 14) : AmpleDecode 1 (s.advanceBits n) := by
  obtain ⟨hsess, hlevel, hsink, hbusy, hbits⟩ := hs
  refine ⟨hsess, hlevel, hsink, hbusy, ?_⟩
  rw [State.bitsLeft_of_codes hp] at hbits
  rw [State.bitsLeft_of_codes (show (s.advanceBits n).phase = .codes from hp)]
  show 14 * (s.total - (s.idx + 1)) < 8 * s.brLen - (s.brPos + n)
  omega

/-! ### One emission -/

theorem sinkAccepts_of_always {s : State} (h : s.sinkAlwaysAccepts) : s.sinkAccepts := by
  cases ha : s.sink.answers with
  | nil => rw [State.sinkAccepts, ha]; rfl
  | cons a rest =>
    rw [State.sinkAccepts, ha]
    exact h a (by rw [ha]; exact List.mem_cons_self)

/-- A sink that accepts every write still does after one. -/
theorem State.accept_sinkAlwaysAccepts {s : State} (h : s.sinkAlwaysAccepts) (bytes : List Byte) :
    (s.accept bytes).sinkAlwaysAccepts := fun a ha => h a (List.mem_of_mem_tail ha)

/-- The emission of a sample whose bits have been read (R640, R642). -/
theorem emit_ample {s : State} (hs : AmpleDecode 1 s) : ∃ t, emit s = .next t ∧ AmpleDecode 0 t := by
  obtain ⟨hsess, hlevel, hsink, hbusy, hbits⟩ := hs
  rcases emit_cases s with ⟨_, he⟩ | ⟨_, ⟨ha, _⟩ | ⟨_, ha, _⟩ | ⟨_, he⟩⟩
  · exact ⟨_, he, hsess, hlevel, hsink, hbusy, hbits⟩
  · cases ha.symm.trans (sinkAccepts_of_always hsink)
  · cases ha.symm.trans (sinkAccepts_of_always hsink)
  · exact ⟨_, he, hsess, hlevel, State.accept_sinkAlwaysAccepts hsink _, hbusy, hbits⟩

/-- The direct emission of the seeds reads no bits (R605). -/
theorem emitSeeds_ample {n : Nat} {s : State} (hs : AmpleDecode 0 s) :
    ∃ t, emitSeeds n s = .next t ∧ AmpleDecode 0 t := by
  induction n generalizing s with
  | zero => exact ⟨s, rfl, hs⟩
  | succ n ih =>
    unfold emitSeeds
    split
    · exact ⟨s, rfl, hs⟩
    · obtain ⟨v, hv, hample⟩ := emit_ample (hs.pay 1)
      rw [hv, thenBlock_busy hample.busy]
      exact ih hample

/-! ### The end of the block -/

/-- The end of a block whose sink accepts (R642, R508). -/
theorem finishBlock_goesOn {s : State} (hsess : s.sess = .streaming) (hsink : s.sinkAlwaysAccepts) :
    GoesOn (finishBlock s) := by
  have completed {v : State} (hv : v.sess = .streaming) : BlockCompleted v.endBlock := by
    refine ⟨rfl, ?_, rfl⟩
    show (if v.curBlock.toInt + 1 = v.hdr.blocks.toInt then SessState.finished else v.sess) ≠ .error
    rw [hv]
    split <;> nofun
  rcases finishBlock_cases s with ⟨_, he⟩ | ⟨_, _, ⟨ha, _⟩ | ⟨_, ha, _⟩ | ⟨_, he⟩⟩
  · exact ⟨_, he, .inr (completed hsess)⟩
  · cases ha.symm.trans (sinkAccepts_of_always hsink)
  · cases ha.symm.trans (sinkAccepts_of_always hsink)
  · exact ⟨_, he, .inr (completed (v := s.accept s.outBuf) hsess)⟩

/-- The loop's test (R600). -/
theorem afterSample_goesOn {s : State} (hs : AmpleDecode 0 s) : GoesOn (afterSample s) := by
  rw [afterSample_eq]
  split
  · exact finishBlock_goesOn hs.streaming hs.accepts
  · exact ⟨s, rfl, .inl hs⟩

/-! ### One iteration -/

/-- The bitstream begins with all that the seeds leave (R701). -/
theorem AmpleDecode.atBitstream {s : State} {c : Chan} (hs : AmpleDecode 0 s) (hp : s.phase = .seeding c) :
    AmpleDecode 0 s.atBitstream := by
  obtain ⟨hsess, hlevel, hsink, _, hbits⟩ := hs
  refine ⟨hsess, hlevel, hsink, nofun, ?_⟩
  have hbase : (if s.hdr.channels = 2 then 2 else 1) * (s.hdr.bits.toInt.tdiv 8).toNat = s.seedBytes := by
    simp only [State.seedBytes, State.chans, State.stereo, State.w, decide_eq_true_eq]
  rw [State.bitsLeft_of_seeding hp, ← hbase] at hbits
  exact hbits

/-- The start of the bitstream, in both seed modes (R605). -/
theorem startCodes_goesOn {s : State} {c : Chan} (hs : AmpleDecode 0 s) (hp : s.phase = .seeding c) :
    GoesOn (startCodes s) := by
  have hstart := hs.atBitstream hp
  rw [startCodes_eq]
  split
  · obtain ⟨v, hv, hample⟩ := emitSeeds_ample (n := s.chans) hstart
    rw [hv, thenBlock_busy hample.busy]
    exact afterSample_goesOn hample
  · exact afterSample_goesOn hstart

/-- What follows a seed (R600). -/
theorem afterSeed_goesOn {s : State} {c : Chan} (hs : AmpleDecode 0 s) (hp : s.phase = .seeding c) :
    GoesOn (afterSeed c s) := by
  unfold afterSeed
  split
  · obtain ⟨hsess, hlevel, hsink, _, hbits⟩ := hs
    rw [State.bitsLeft_of_seeding hp] at hbits
    exact ⟨_, rfl, .inl ⟨hsess, hlevel, hsink, nofun, hbits⟩⟩
  · exact startCodes_goesOn hs hp

/-- With more than 14 bits left there is a code to take (R607, R656). -/
theorem AmpleDecode.decodes {s : State} (hs : AmpleDecode 0 s) (hp : s.phase = .codes) (hidx : s.idx < s.total) :
    ∃ i len, s.decodeNext = .code i len := by
  have hbits := hs.bits
  rw [State.bitsLeft_of_codes hp] at hbits
  exact decodeCode_ample hs.level.1 hs.level.2 (by omega)

/-- Every iteration goes on, or completes the block (R600). -/
theorem blockStep_goesOn {s : State} (hs : AmpleDecode 0 s) : GoesOn (blockStep execInBlock s) := by
  cases hp : s.phase with
  | idle => exact absurd hp hs.busy
  | seeding c =>
    have hbits := hs.bits
    rw [State.bitsLeft_of_seeding hp] at hbits
    rw [blockStep_seed_there hp (by omega)]
    exact afterSeed_goesOn (hs.of_datapath (setRunning_datapathOnly c _ s)) ((State.setRunning_phase c _ s).trans hp)
  | codes =>
    by_cases hidx : s.idx < s.total
    · obtain ⟨n, u, hn, hdata, hstep⟩ := blockStep_emits hp hidx (.inr (hs.decodes hp hidx))
      obtain ⟨v, hv, hample⟩ := emit_ample ((hs.read hp hidx hn).of_datapath hdata)
      rw [hstep, hv, thenBlock_busy hample.busy]
      exact afterSample_goesOn hample
    · rw [blockStep, hp]
      simp only [Nat.not_lt.mp hidx, if_true]
      exact finishBlock_goesOn hs.streaming hs.accepts

/-! ### The whole block -/

/-- Iterations go on, or have completed the block. -/
theorem runBlock_goesOn {n : Nat} {s : State} (hs : AmpleDecode 0 s) : GoesOn (runBlock execInBlock n s) := by
  induction n generalizing s with
  | zero => exact ⟨s, rfl, .inl hs⟩
  | succ n ih =>
    obtain ⟨t, ht, hgoes⟩ := blockStep_goesOn hs
    rw [runBlock_succ _ _ _ hs.busy, ht]
    rcases hgoes with hample | hdone
    · exact ih hample
    · exact ⟨t, runBlock_idle _ _ _ hdone.1, .inr hdone⟩

/-- The start of a decode of `T` samples with more than 14 bits for each (R600 to R602). -/
theorem beginDecode_goesOn {size : Int} {s : State} (hsess : s.sess = .streaming) (hlevel : 0 ≤ s.level ∧ s.level ≤ 5)
    (hsink : s.sinkAlwaysAccepts) (hbits : 14 * (size.tdiv s.w).toNat < 8 * (s.scrLen - s.seedBytes)) :
    GoesOn (beginDecode size s) := by
  rw [beginDecode_eq]
  split
  · exact finishBlock_goesOn hsess hsink
  · exact ⟨_, rfl, .inl ⟨hsess, hlevel, hsink, nofun, hbits⟩⟩

/-- NEXT completes a block that has been loaded with more than 14 bits for every sample: a NEXT that answers leaves no
decode in progress, so it cannot have run out of iterations (R600). -/
theorem next_completes {s v : State} (hready : s.readyToStream .compressed) (hsame : SameButBlock s v)
    (hv : v.sink = s.sink) (hlevel : 0 ≤ s.level ∧ s.level ≤ 5) (hsink : s.sinkAlwaysAccepts) (hw : s.w = 1 ∨ s.w = 2)
    (hbits : 14 * s.blockSamples.toNat < 8 * (v.scrLen - s.seedBytes))
    (hstart : startBlock s = beginDecode (s.blockSamples * s.w) v) :
    ∃ t, exec .nextCmd s = .next t ∧ BlockCompleted t := by
  have ⟨_, hstreaming, _⟩ := hready
  have hhdr : v.hdr = s.hdr := by rw [hsame]
  have hsess : v.sess = s.sess := by rw [hsame]
  have hbegin : GoesOn (startBlock s) := by
    rw [hstart]
    refine beginDecode_goesOn (hsess.trans hstreaming) (by rwa [State.level_congr hhdr])
      (by rwa [State.sinkAlwaysAccepts, hv]) ?_
    rwa [State.w_congr hhdr, blockSamples_tdiv s hw, State.seedBytes_congr hhdr]
  obtain ⟨u, hu, hample | hdone⟩ := hbegin
  · have hnext : exec .nextCmd s = runBlock execInBlock u.blockFuel u := by
      rw [next_streaming hready]
      simp only [compressedBlock, hu]
    obtain ⟨t, ht, hgoes⟩ := runBlock_goesOn (n := u.blockFuel) hample
    rw [ht] at hnext
    exact ⟨t, hnext, hgoes.resolve_left fun h => h.busy (phase_of_next hnext)⟩
  · exact ⟨u, next_of_start_ended hready hu hdone.1, hdone⟩

/-- The seeds of a valid header take `C*w` bytes (R603). -/
theorem State.seedBytes_of_layout {s : State} (hch : s.hdr.channels.toInt = 1 ∨ s.hdr.channels.toInt = 2)
    (hw : s.w = 1 ∨ s.w = 2) : (s.seedBytes : Int) = s.hdr.channels.toInt * s.w := by
  have hchans : (s.chans : Int) = s.hdr.channels.toInt := by
    rw [State.chans, State.stereo]
    rcases hch with h | h
    · have hc : s.hdr.channels = 1 := BitVec.eq_of_toInt_eq h
      rw [hc]; decide
    · have hc : s.hdr.channels = 2 := BitVec.eq_of_toInt_eq h
      rw [hc]; decide
  rw [State.seedBytes, Int.natCast_mul, hchans, Int.toNat_of_nonneg (by omega)]

/-- A valid header of a compressed session has one of the levels 0 to 5 (R405, R422). -/
theorem State.level_of_headerValid {s : State} (hm : s.mode = .compressed) (hvalid : s.headerValid) :
    0 ≤ s.level ∧ s.level ≤ 5 := by
  obtain ⟨_, _, ⟨hlo, hhi⟩, _, _, _, hraw, _⟩ := hvalid
  have hne : s.level ≠ -1 := fun h => by cases hm.symm.trans (hraw.mpr h)
  rw [State.level] at hne ⊢
  omega

/-- Settles O45: the block is loaded with its bits to spare, and every iteration keeps them to spare. -/
theorem ampleBlockCompletes : Obligations.AmpleBlockCompletes := by
  intro s hready hs ha hsink inner w bound len samples got hfits hthere hample
  have ⟨_, hstreaming, hmode⟩ := hready
  obtain ⟨⟨hcur, _⟩, _, _, hvalid⟩ := (State.sessionLegal_iff_of_streaming hstreaming).mp hs
  have ⟨hch, hbits, _⟩ := hvalid
  have hw := State.w_of_bits hbits
  have hseed : (s.seedBytes : Int) = s.hdr.channels.toInt * w := State.seedBytes_of_layout hch hw
  have hlen : s.compressedLength = len := compressedLength_eq s hcur
  have hsamples : s.blockSamples = samples := blockSamples_eq s
  have completes {v : State} (hsame : SameButBlock s v) (hv : v.sink = s.sink) (hgot : (v.scrLen : Int) = got)
      (hstart : startBlock s = beginDecode (s.blockSamples * s.w) v) :
      ∃ t, exec .nextCmd s = .next t ∧ t.sess ≠ .error ∧ t.result = .chunk := by
    obtain ⟨t, ht, _, hdone⟩ := next_completes hready hsame hv (State.level_of_headerValid hmode hvalid) hsink hw
      (by rw [hsamples]; omega) hstart
    exact ⟨t, ht, hdone⟩
  by_cases hinner : inner
  · obtain ⟨hlo, hhi, hfull⟩ := hthere hinner
    have hgot : got = len := if_pos hinner
    rw [← hlen] at hlo hhi hfull hgot
    have hscr : ((s.src.rest.take s.compressedLength.toNat).length : Int) = got := by
      rw [List.length_take]; omega
    refine completes (v := (s.taken s.compressedLength.toNat).loadScratch _) rfl rfl hscr ?_
    rw [startBlock_of_inner hinner, startInnerBlock_reads ha hlo hhi hfull, blockSamples_eq, if_pos hinner]
    exact loadBlock_of_fits (s := s.taken _) hfits (Int.le_of_eq hscr)
  · have hgot : got = min bound s.src.rest.length := if_neg hinner
    have hbound : 0 < s.readBound := by show 0 < bound; omega
    rw [hgot] at hfits
    have hscr : ((s.src.rest.take s.readBound.toNat).length : Int) = got := by
      rw [List.length_take, hgot]
      show _ = min s.readBound _
      omega
    refine completes (v := (s.taken s.readBound.toNat).loadScratch _) rfl rfl hscr ?_
    rw [startBlock_of_last hinner, startFinalBlock_loaded ha hbound hfits, blockSamples_of_last hinner]

end Sys2Proof.Machine
end

section
/-! PROOFS. The length of a session (R515): how many NEXTs a session still needs to reach END, and that every NEXT that
does not fail takes one off. -/

namespace Sys2Proof.Machine

/-! ### NEXTs that are left -/

/-- A session that has been opened and has not failed: END is reported in FINISHED only (R504). -/
structure UnderWay (s : State) : Prop where
  legal : s.sessionLegal
  opened : s.sess ≠ .idle
  sound : s.sess ≠ .error
  reported : s.result = .finish → s.sess = .finished

/-- The NEXTs a session needs until END is reported: the WAV header, each block, the end marker (R515). -/
def State.nextsLeft (s : State) : Int :=
  match s.sess with
  | .notStarted => s.hdr.blocks.toInt + 2
  | .streaming => s.hdr.blocks.toInt - s.curBlock.toInt + 1
  | .finished => if s.result = .finish then 0 else 1
  | .idle => 0
  | .error => 0

theorem State.nextsLeft_of_notStarted {s : State} (h : s.sess = .notStarted) :
    s.nextsLeft = s.hdr.blocks.toInt + 2 := by rw [State.nextsLeft, h]

theorem State.nextsLeft_of_streaming {s : State} (h : s.sess = .streaming) :
    s.nextsLeft = s.hdr.blocks.toInt - s.curBlock.toInt + 1 := by rw [State.nextsLeft, h]

theorem State.nextsLeft_of_finished {s : State} (h : s.sess = .finished) :
    s.nextsLeft = if s.result = .finish then 0 else 1 := by rw [State.nextsLeft, h]

/-- END has been reported exactly when no NEXT is left (R504, R515). -/
theorem UnderWay.finish_iff {s : State} (h : UnderWay s) : s.result = .finish ↔ s.nextsLeft ≤ 0 := by
  obtain ⟨hlegal, hopened, hsound, hreported⟩ := h
  cases hs : s.sess with
  | idle => exact absurd hs hopened
  | error => exact absurd hs hsound
  | notStarted =>
    obtain ⟨_, _, _, hvalid⟩ := (State.sessionLegal_iff_of_notStarted hs).mp hlegal
    obtain ⟨_, _, _, _, _, ⟨hblocks, _⟩, _⟩ := hvalid
    rw [State.nextsLeft_of_notStarted hs]
    exact iff_of_false (fun hr => nomatch hs.symm.trans (hreported hr)) (by omega)
  | streaming =>
    obtain ⟨⟨_, hcur⟩, _⟩ := (State.sessionLegal_iff_of_streaming hs).mp hlegal
    rw [State.nextsLeft_of_streaming hs]
    exact iff_of_false (fun hr => nomatch hs.symm.trans (hreported hr)) (by omega)
  | finished =>
    rw [State.nextsLeft_of_finished hs]
    split
    · exact iff_of_true ‹_› (Int.le_refl 0)
    · exact iff_of_false ‹_› (by decide)

/-! ### One NEXT -/

/-- A block that does not fail, raw or compressed, ends in Advance (R508). -/
theorem next_block_advances {s t : State} (hs : s.sess = .streaming) (h : exec .nextCmd s = .next t)
    (hne : t.sess ≠ .error) :
    t.hdr = s.hdr ∧ t.curBlock = toWord (s.curBlock.toInt + 1) ∧ t.result = .chunk
      ∧ t.sess = if s.curBlock.toInt + 1 = s.hdr.blocks.toInt then .finished else .streaming := by
  have advance {v : State} (len : Int) (hsame : SameButBlock s v) : (v.blockDone len).hdr = s.hdr
      ∧ (v.blockDone len).curBlock = toWord (s.curBlock.toInt + 1) ∧ (v.blockDone len).result = .chunk
      ∧ (v.blockDone len).sess = if s.curBlock.toInt + 1 = s.hdr.blocks.toInt then .finished else .streaming := by
    rw [hsame]
    exact ⟨rfl, rfl, rfl, by rw [← hs]; rfl⟩
  obtain ⟨_, hunit⟩ := next_inv h
  rcases hunit with ⟨h', _⟩ | ⟨h', _⟩ | ⟨h', _⟩ | ⟨h', _⟩ | ⟨_, _, hraw⟩ | ⟨_, _, hcomp⟩
  iterate 4 cases hs.symm.trans h'
  · obtain ⟨v, ⟨hsame, _⟩, ⟨_, _, _, _, rfl⟩ | ⟨n, rfl⟩⟩ := rawBlock_inv hraw
    · exact absurd rfl hne
    · exact advance n hsame
  · obtain ⟨v, hsame, _, _, ⟨_, _, _, _, rfl⟩ | ⟨rfl, _⟩⟩ := compressedBlock_inv hcomp
    · exact absurd rfl hne
    · exact advance (v.total * v.w) hsame

/-- A block takes one NEXT off (R508, R515). -/
theorem next_block_counts {s t : State} (hs : UnderWay s) (hstreaming : s.sess = .streaming)
    (h : exec .nextCmd s = .next t) (hne : t.sess ≠ .error) : UnderWay t ∧ t.nextsLeft = s.nextsLeft - 1 := by
  obtain ⟨⟨hlo, hhi⟩, _⟩ := (State.sessionLegal_iff_of_streaming hstreaming).mp hs.legal
  obtain ⟨hhdr, hcur, hresult, hsess⟩ := next_block_advances hstreaming h hne
  have hlegal := sessionLegal_of_next hs.legal h
  have hnot : t.result ≠ .finish := by rw [hresult]; decide
  rw [State.nextsLeft_of_streaming hstreaming]
  by_cases hlast : s.curBlock.toInt + 1 = s.hdr.blocks.toInt
  · rw [if_pos hlast] at hsess
    rw [State.nextsLeft_of_finished hsess, if_neg hnot]
    exact ⟨⟨hlegal, by rw [hsess]; nofun, hne, fun hr => absurd hr hnot⟩, by omega⟩
  · rw [if_neg hlast] at hsess
    have := s.hdr.blocks.toInt_lt
    rw [State.nextsLeft_of_streaming hsess, hhdr, hcur, toWord_toInt (by omega) (by omega)]
    exact ⟨⟨hlegal, by rw [hsess]; nofun, hne, fun hr => absurd hr hnot⟩, by omega⟩

/-- Every NEXT that does not fail takes one NEXT off, until none is left (R502, R504, R508). -/
theorem next_counts {s t : State} (hs : UnderWay s) (h : exec .nextCmd s = .next t) (hne : t.sess ≠ .error) :
    UnderWay t ∧ t.nextsLeft = max 0 (s.nextsLeft - 1) := by
  have hlegal := sessionLegal_of_next hs.legal h
  cases hsess : s.sess with
  | idle => exact absurd hsess hs.opened
  | error => exact absurd hsess hs.sound
  | streaming =>
    obtain ⟨hway, hleft⟩ := next_block_counts hs hsess h hne
    obtain ⟨⟨_, hcur⟩, _⟩ := (State.sessionLegal_iff_of_streaming hsess).mp hs.legal
    refine ⟨hway, ?_⟩
    rw [hleft, State.nextsLeft_of_streaming hsess]
    omega
  | notStarted =>
    obtain ⟨_, _, _, hvalid⟩ := (State.sessionLegal_iff_of_notStarted hsess).mp hs.legal
    obtain ⟨_, _, _, _, _, ⟨hblocks, _⟩, _⟩ := hvalid
    rcases (next_inv h).2 with ⟨h', _⟩ | ⟨h', _⟩ | ⟨h', _⟩ | ⟨_, ⟨_, rfl⟩ | rfl⟩ | ⟨h', _⟩ | ⟨h', _⟩
    case inr.inr.inr.inl.inl => exact absurd rfl hne
    case inr.inr.inr.inl.inr =>
      refine ⟨⟨hlegal, nofun, nofun, nofun⟩, ?_⟩
      rw [State.nextsLeft_of_streaming rfl, State.nextsLeft_of_notStarted hsess]
      show s.hdr.blocks.toInt - 0 + 1 = _
      omega
    all_goals cases hsess.symm.trans h'
  | finished =>
    rcases (next_inv h).2 with ⟨h', _⟩ | ⟨h', _⟩ | ⟨_, rfl⟩ | ⟨h', _⟩ | ⟨h', _⟩ | ⟨h', _⟩
    case inr.inr.inl =>
      have hend : s.reportEnd.nextsLeft = 0 := (State.nextsLeft_of_finished (s := s.reportEnd) hsess).trans (if_pos rfl)
      refine ⟨⟨hlegal, hs.opened, hne, fun _ => hsess⟩, ?_⟩
      rw [hend, State.nextsLeft_of_finished hsess]
      split <;> decide
    all_goals cases hsess.symm.trans h'

/-! ### Many NEXTs -/

/-- A sequence of NEXTs that answers begins with one that does (R500). -/
theorem nexts_succ_inv {n : Nat} {s t : State} (h : nexts (n + 1) s = .next t) :
    ∃ v, exec .nextCmd s = .next v ∧ nexts n v = .next t := by
  unfold nexts at h
  split at h
  · exact ⟨_, ‹_›, h⟩
  · cases h
  · cases h

/-- No NEXT leaves ERROR (R501, R835). -/
theorem nexts_of_error {n : Nat} {s t : State} (hs : s.sess = .error) (h : nexts n s = .next t) :
    t.sess = .error := by
  induction n generalizing s with
  | zero => cases h; exact hs
  | succ n ih =>
    obtain ⟨v, hv, hrest⟩ := nexts_succ_inv h
    refine ih ?_ hrest
    rcases (next_inv hv).2 with ⟨h', _⟩ | ⟨_, rfl⟩ | ⟨h', _⟩ | ⟨h', _⟩ | ⟨h', _⟩ | ⟨h', _⟩
    case inr.inl => exact hs
    all_goals cases hs.symm.trans h'

/-- A session that does not fail reports END after exactly the NEXTs it had left (R515). -/
theorem nexts_finish_iff {n : Nat} {s t : State} (hs : UnderWay s) (h : nexts n s = .next t) (hne : t.sess ≠ .error) :
    t.result = .finish ↔ s.nextsLeft ≤ n := by
  induction n generalizing s with
  | zero => cases h; exact hs.finish_iff
  | succ n ih =>
    obtain ⟨v, hv, hrest⟩ := nexts_succ_inv h
    obtain ⟨hway, hleft⟩ := next_counts hs hv fun herr => hne (nexts_of_error herr hrest)
    rw [ih hway hrest, hleft]
    omega

/-- Settles O50: a session in NOT_STARTED has the header, `H_BLOCKS` blocks and the end marker left. -/
theorem nextsUntilEnd : Obligations.NextsUntilEnd := by
  intro s t n _ hs hlegal hresult h hne
  have hway : UnderWay s := ⟨hlegal, by rw [hs]; nofun, by rw [hs]; nofun, fun hr => absurd hr hresult⟩
  rw [nexts_finish_iff hway h hne, State.nextsLeft_of_notStarted hs]

end Sys2Proof.Machine
end

section
/-! PROOFS. What a code does to the datapath (R603 to R651): one run length, one sample, one emission. -/

namespace Sys2Proof.Machine

/-! ### The arithmetic of a sample -/

theorem State.narrow_iff (s : State) : s.narrow = true ↔ s.hdr.bits = 8 := decide_eq_true_iff

/-- The bytes of an emitted sample are those of its value (R341). -/
theorem bytesOf_toInt (s : State) (v : Sample) : s.bytesOf v.toInt = sampleBytes s.narrow v := by
  by_cases h : s.hdr.bits = 8
  · have hbyte : BitVec.ofInt 8 v.toInt = v.extractLsb' 0 8 := by
      apply BitVec.eq_of_toNat_eq
      simp only [BitVec.toNat_ofInt, BitVec.extractLsb'_toNat, BitVec.toInt_eq_toNat_cond]
      omega
    rw [State.bytesOf, if_pos h, sampleBytes, if_pos (s.narrow_iff.mpr h), hbyte]
  · rw [State.bytesOf, if_neg h, sampleBytes, if_neg (h ∘ s.narrow_iff.mp), le16, BitVec.ofInt_toInt]

/-- `wrapN` of R13 for the two sample widths (R650). -/
theorem wrapSample_toInt {s : State} (h : s.hdr.bits = 8 ∨ s.hdr.bits = 16) (v : Int) :
    (wrapSample s.narrow v).toInt = v.bmod s.modulus := by
  rcases h with h | h
  · rw [wrapSample, if_pos (s.narrow_iff.mpr h), BitVec.toInt_signExtend_of_le (by decide), BitVec.toInt_ofInt,
      State.modulus, if_pos h]
  · have hne : s.hdr.bits ≠ 8 := by rw [h]; decide
    rw [wrapSample, if_neg (hne ∘ s.narrow_iff.mp), BitVec.toInt_ofInt, State.modulus, if_neg hne]

/-- A sign and a magnitude as one product (R321). -/
theorem differential_eq (neg : Bool) (mag : BitVec 7) (shift : Nat) :
    differential neg mag shift = (if neg then -1 else 1) * (mag.toNat * 2 ^ shift : Int) := by
  cases neg <;> simp [differential]

/-- A differential whose shift is 8 or more is a multiple of 256 (R651). -/
theorem differential_dvd {shift : Nat} (h : 8 ≤ shift) (neg : Bool) (mag : BitVec 7) :
    (256 : Int) ∣ differential neg mag shift := by
  have hpow : (256 : Int) ∣ 2 ^ shift := pow_dvd_pow (2 : Int) h
  rw [differential_eq]
  exact Dvd.dvd.mul_left (Dvd.dvd.mul_left hpow _) _

/-- An 8-bit sample does not move by a multiple of 256 (R651). -/
theorem wrapSample_add_multiple {s : State} (hbits : s.hdr.bits = 8) {v : Sample} (hv : Sample.fitsByte v) {d : Int}
    (hd : (256 : Int) ∣ d) : wrapSample s.narrow (v.toInt + d) = v := by
  obtain ⟨k, rfl⟩ := hd
  obtain ⟨hlo, hhi⟩ := hv
  apply BitVec.eq_of_toInt_eq
  calc (wrapSample s.narrow (v.toInt + 256 * k)).toInt
      = (v.toInt + (256 : Nat) * k).bmod 256 := by
        rw [wrapSample_toInt (.inl hbits), State.modulus, if_pos hbits, Nat.cast_ofNat]
    _ = v.toInt.bmod 256 := Int.add_mul_bmod_self_left v.toInt 256 k
    _ = v.toInt := Int.bmod_eq_of_le (by omega) (by omega)

/-! ### The change a code makes -/

/-- The run length after a code or a REPEAT (R610 to R613, R632). -/
def runAfter (i : Instr) (run : BitVec 8) : BitVec 8 :=
  match i with
  | .run0 => 0
  | .run2 k => k.setWidth 8
  | .run8 k => k
  | .repeatRun => run - 1
  | _ => run

/-- The selected accumulator after a code or a REPEAT (R610 to R632). -/
def sampleAfter (lvl : Int) (narrow : Bool) (i : Instr) (v : Sample) : Sample :=
  match i with
  | .diff1 neg mag => wrapSample narrow (v.toInt + differential neg mag (diffShift lvl 1))
  | .diff2 neg mag => wrapSample narrow (v.toInt + differential neg mag (diffShift lvl 2))
  | .diff3 neg mag => wrapSample narrow (v.toInt + differential neg mag (diffShift lvl 3))
  | .diff4 neg mag => wrapSample narrow (v.toInt + differential neg mag (diffShift lvl 4))
  | .diff5 neg mag => wrapSample narrow (v.toInt + differential neg mag (diffShift lvl 5))
  | .diff6 neg mag => wrapSample narrow (v.toInt + differential neg mag (diffShift lvl 6))
  | .zero => 0
  | .big neg mag => wrapSample narrow (v.toInt + differential neg mag (bigShift lvl))
  | _ => v

/-- The state in which a code or a REPEAT makes its emission: the run length and the accumulator `flip` selects are
those the code decides (R606). -/
def State.decided (i : Instr) (s : State) : State :=
  { s with runlength := runAfter i s.runlength }.setRunning s.flip
    (sampleAfter s.level s.narrow i (s.running s.flip))

/-- Writing an accumulator with the value it has changes nothing. -/
theorem State.setRunning_running (c : Chan) (s : State) : s.setRunning c (s.running c) = s := by
  cases c <;> rfl

/-- A code or a REPEAT is the emission of what it decides (R606). -/
theorem execInBlock_eq_emit {i : Instr} (hi : i.decidesSample = true) (s : State) :
    execInBlock i s = emit (s.decided i) := by
  have holds (r : BitVec 8) : ({ s with runlength := r } : State).setRunning s.flip (s.running s.flip)
      = { s with runlength := r } := State.setRunning_running s.flip { s with runlength := r }
  cases i
  case seed | nop | openCmd | nextCmd | resetCmd => cases hi
  case skip => exact congrArg emit (holds s.runlength).symm
  case run0 => exact congrArg emit (holds 0).symm
  case run2 k => exact congrArg emit (holds (k.setWidth 8)).symm
  case run8 k => exact congrArg emit (holds k).symm
  case repeatRun => exact congrArg emit (holds (s.runlength - 1)).symm
  all_goals rfl

theorem State.decided_datapathOnly (i : Instr) (s : State) : DatapathOnly s (s.decided i) := by
  have hrun : DatapathOnly s { s with runlength := runAfter i s.runlength } := rfl
  have hset := setRunning_datapathOnly s.flip (sampleAfter s.level s.narrow i (s.running s.flip))
    { s with runlength := runAfter i s.runlength }
  rw [DatapathOnly, hrun] at hset
  exact hset

/-! ### One code -/

/-- The frame of a change of the datapath, of `i` and of what an emission writes. -/
theorem codeFrame_of_same {s t : State}
    (h : t = { s with
      running0 := t.running0, running1 := t.running1, flip := t.flip, runlength := t.runlength, idx := t.idx
      snkPos := t.snkPos, outBuf := t.outBuf, sink := t.sink }) : CodeFrame s t := by
  rw [h]
  exact ⟨⟨rfl, rfl, rfl, rfl, rfl, rfl, rfl, rfl⟩, ⟨fun _ => rfl, fun _ => rfl, rfl, rfl, rfl⟩,
    ⟨rfl, rfl, rfl, rfl, rfl⟩, rfl, rfl, rfl, rfl, rfl, rfl⟩

/-- `t` is `s` after the sample `running[flip]` has been emitted, and nothing else has happened (R640 to R642). -/
structure SampleEmitted (s t : State) : Prop where
  running : t.running = s.running
  runlength : t.runlength = s.runlength
  bytes : Emitted s t (s.bytesOf (s.running s.flip).toInt)
  frame : CodeFrame s t

/-- An emission that succeeds (R640 to R642). -/
theorem emit_emits {s : State} (h : s.canEmit) : ∃ t, emit s = .next t ∧ SampleEmitted s t := by
  have hbytes : s.bytesOf (s.running s.flip).toInt = s.emitted := bytesOf_toInt s _
  have hflip : (if s.stereo then !s.flip else s.flip) = if s.hdr.channels = 2 then !s.flip else s.flip := by
    simp [State.stereo]
  have accepts (hout : s.params.partialOut = .keepWritten) : s.sinkAccepts :=
    h.resolve_left fun hw => nomatch hout.symm.trans hw
  rcases emit_cases s with ⟨hout, he⟩ | ⟨hout, ⟨ha, _⟩ | ⟨_, ha, _⟩ | ⟨_, he⟩⟩
  · have hnot : s.params.partialOut ≠ .keepWritten := by rw [hout]; nofun
    refine ⟨_, he, rfl, rfl, ?_, codeFrame_of_same rfl⟩
    rw [hbytes]
    exact ⟨rfl, hflip, fun hk => absurd hk hnot, fun _ => ⟨rfl, rfl, rfl⟩⟩
  · cases ha.symm.trans (accepts hout)
  · cases ha.symm.trans (accepts hout)
  · have hnot : s.params.partialOut ≠ .wholeBlocks := by rw [hout]; nofun
    refine ⟨_, he, rfl, rfl, ?_, codeFrame_of_same rfl⟩
    rw [hbytes]
    exact ⟨rfl, hflip, fun _ => ⟨rfl, rfl, rfl, rfl⟩, fun hw => absurd hw hnot⟩

/-- What a code or a REPEAT decides leaves the frame of the emission that follows as it is. -/
theorem DatapathOnly.emitted {s u t : State} {bytes : List Byte} (h : DatapathOnly s u)
    (ht : Emitted u t bytes ∧ CodeFrame u t) : Emitted s t bytes ∧ CodeFrame s t := by
  rw [h] at ht
  exact ht

/-- A code or a REPEAT whose emission succeeds (R606, R640). -/
theorem exec_code_emits {i : Instr} (hi : i.decidesSample = true) {s : State} (h : s.canEmit) :
    ∃ t, exec i s = .next t
      ∧ t.running s.flip = sampleAfter s.level s.narrow i (s.running s.flip)
      ∧ t.running (!s.flip) = s.running (!s.flip) ∧ t.runlength = runAfter i s.runlength
      ∧ Emitted s t (s.bytesOf (t.running s.flip).toInt) ∧ CodeFrame s t := by
  have hdata := s.decided_datapathOnly i
  have hcan : (s.decided i).canEmit := by rw [hdata]; exact h
  have hflip : (s.decided i).flip = s.flip := by rw [hdata]
  have hbytesOf : (s.decided i).bytesOf = s.bytesOf := by rw [hdata]
  obtain ⟨t, ht, hrunning, hrun, hemitted, hframe⟩ := emit_emits hcan
  rw [hbytesOf, hflip, ← hrunning] at hemitted
  refine ⟨t, ?_, ?_, ?_, ?_, hdata.emitted ⟨hemitted, hframe⟩⟩
  · rw [exec_of_decidesSample hi, execInBlock_eq_emit hi, ht]
  · rw [hrunning]; exact State.running_setRunning_same _ _ _
  · rw [hrunning]; exact State.running_setRunning_other _ _ _
  · rw [hrun]; exact State.setRunning_runlength _ _ _

/-- Both accumulators, whichever of them `flip` selects. -/
theorem State.accumulators_eq {s t : State} {c : Chan} (hsel : t.running c = s.running c)
    (hother : t.running (!c) = s.running (!c)) : t.running0 = s.running0 ∧ t.running1 = s.running1 := by
  cases c
  · exact ⟨hsel, hother⟩
  · exact ⟨hother, hsel⟩

/-- A code or a REPEAT that emits the sample unchanged (R610 to R613, R632, R651). -/
theorem exec_code_holds {i : Instr} (hi : i.decidesSample = true) {s : State} (h : s.canEmit)
    (hv : sampleAfter s.level s.narrow i (s.running s.flip) = s.running s.flip) :
    ∃ t, exec i s = .next t ∧ t.running0 = s.running0 ∧ t.running1 = s.running1
      ∧ t.runlength = runAfter i s.runlength
      ∧ Emitted s t (s.bytesOf (s.running s.flip).toInt) ∧ CodeFrame s t := by
  obtain ⟨t, ht, hsel, hother, hrun, hframe⟩ := exec_code_emits hi h
  have hsame := hsel.trans hv
  obtain ⟨h0, h1⟩ := State.accumulators_eq hsame hother
  rw [hsame] at hframe
  exact ⟨t, ht, h0, h1, hrun, hframe⟩

/-! ### Codes that hold the sample -/

/-- Settles O20: the run length is kept by SKIP and cleared by RUN0. -/
theorem skipAndRun0EmitUnchanged : Obligations.SkipAndRun0EmitUnchanged :=
  fun _ h => ⟨exec_code_holds (i := .skip) rfl h rfl, exec_code_holds (i := .run0) rfl h rfl⟩

/-- Settles O21: a RUN code's operand is the run length. -/
theorem run2AndRun8SetTheRunLength : Obligations.Run2AndRun8SetTheRunLength := by
  refine fun s h => ⟨fun k => ?run2, fun k => ?run8⟩
  case run2 =>
    obtain ⟨t, ht, h0, h1, hrun, hframe⟩ := exec_code_holds (i := .run2 k) rfl h rfl
    have hk : (k.setWidth 8).toNat = k.toNat := BitVec.toNat_setWidth_of_le (by decide)
    exact ⟨t, ht, h0, h1, (congrArg BitVec.toNat hrun).trans hk, hframe⟩
  case run8 =>
    obtain ⟨t, ht, h0, h1, hrun, hframe⟩ := exec_code_holds (i := .run8 k) rfl h rfl
    exact ⟨t, ht, h0, h1, congrArg BitVec.toNat hrun, hframe⟩

/-- Settles O22: above 0 the run length goes down without wrapping. -/
theorem repeatCountsDown : Obligations.RepeatCountsDown := by
  intro s hpos h
  obtain ⟨t, ht, h0, h1, hrun, hframe⟩ := exec_code_holds (i := .repeatRun) rfl h rfl
  have hdown : (s.runlength - 1).toNat = s.runlength.toNat - 1 := by bv_omega
  exact ⟨t, ht, h0, h1, (congrArg BitVec.toNat hrun).trans hdown, hframe⟩

/-! ### Codes that move the sample -/

/-- Settles O25: 0 is the sample that ZERO decides. -/
theorem zeroClearsTheSample : Obligations.ZeroClearsTheSample := by
  intro s h
  obtain ⟨t, ht, hsel, hother, hrun, hframe⟩ := exec_code_emits (i := .zero) rfl h
  have hzero : t.running s.flip = 0 := hsel
  rw [hzero] at hframe
  exact ⟨t, ht, hzero, hother, hrun, hframe⟩

/-- A code that moves the sample by a differential (R321, R621, R650). -/
theorem exec_code_moves {i : Instr} (hi : i.decidesSample = true) {s : State} {neg : Bool} {mag : BitVec 7}
    {shift : Nat} (hrun : runAfter i s.runlength = s.runlength)
    (hv : sampleAfter s.level s.narrow i (s.running s.flip)
      = wrapSample s.narrow ((s.running s.flip).toInt + differential neg mag shift))
    (hbits : s.hdr.bits = 8 ∨ s.hdr.bits = 16) (h : s.canEmit) :
    ∃ t, exec i s = .next t
      ∧ (t.running s.flip).toInt = ((s.running s.flip).toInt
          + (if neg then -1 else 1) * (mag.toNat * 2 ^ shift : Int)).bmod s.modulus
      ∧ t.running (!s.flip) = s.running (!s.flip) ∧ t.runlength = s.runlength
      ∧ Emitted s t (s.bytesOf (t.running s.flip).toInt) ∧ CodeFrame s t := by
  obtain ⟨t, ht, hsel, hother, hrun', hframe⟩ := exec_code_emits hi h
  refine ⟨t, ht, ?_, hother, hrun'.trans hrun, hframe⟩
  rw [hsel, hv, wrapSample_toInt hbits, differential_eq]

theorem diffInstr_decidesSample (e : Fin 6) (neg : Bool) (mag : BitVec 7) :
    (diffInstr e neg mag).decidesSample = true := by
  fin_cases e <;> rfl

theorem runAfter_diffInstr (e : Fin 6) (neg : Bool) (mag : BitVec 7) (run : BitVec 8) :
    runAfter (diffInstr e neg mag) run = run := by
  fin_cases e <;> rfl

/-- The six rows of DIFF differ in their exponent only (R620). -/
theorem sampleAfter_diffInstr (lvl : Int) (narrow : Bool) (e : Fin 6) (neg : Bool) (mag : BitVec 7) (v : Sample) :
    sampleAfter lvl narrow (diffInstr e neg mag) v
      = wrapSample narrow (v.toInt + differential neg mag (diffShift lvl ((e : Nat) + 1))) := by
  fin_cases e <;> rfl

/-- The shift of DIFF as R320 writes it. -/
theorem diffShift_eq (lvl : Int) (e : Nat) :
    diffShift lvl e = (if 3 ≤ lvl then 1 + (e : Int) else 2 + (e : Int) + lvl).toNat := by
  unfold diffShift
  split <;> omega

/-- The shift of BIG as R320 writes it. -/
theorem bigShift_eq (lvl : Int) : bigShift lvl = (if 3 ≤ lvl then 9 else 9 + lvl).toNat := by
  unfold bigShift
  split <;> rfl

/-- Settles O23: a DIFF moves the sample by its differential, with the shift of its exponent. -/
theorem diffMovesTheSample : Obligations.DiffMovesTheSample := by
  intro s e neg mag _ _ hbits h
  have hshift := diffShift_eq s.level ((e : Nat) + 1)
  rw [State.level, Int.natCast_succ] at hshift
  rw [← hshift]
  exact exec_code_moves (diffInstr_decidesSample e neg mag) (runAfter_diffInstr e neg mag _)
    (sampleAfter_diffInstr _ _ e neg mag _) hbits h

/-- Settles O24: BIG moves the sample by its differential, with the shift `S7`. -/
theorem bigMovesTheSample : Obligations.BigMovesTheSample := by
  intro s neg mag _ _ hbits h
  rw [← bigShift_eq]
  exact exec_code_moves (i := .big neg mag) rfl rfl rfl hbits h

/-- In an 8-bit session the selected accumulator holds an 8-bit value (R130, R650). -/
theorem State.fitsByte_running {s : State} (hbits : s.hdr.bits = 8) (h : s.samplesInRange) (c : Chan) :
    Sample.fitsByte (s.running c) := by
  obtain ⟨h0, h1⟩ := h (s.narrow_iff.mpr hbits)
  cases c
  · exact h0
  · exact h1

/-- Settles O28: such differentials are multiples of 256. -/
theorem byteSamplesIgnoreShiftsOfEight : Obligations.ByteSamplesIgnoreShiftsOfEight := by
  intro s neg mag hlo hhi hbits hrange h
  have holds {shift : Nat} (hshift : 8 ≤ shift) :
      wrapSample s.narrow ((s.running s.flip).toInt + differential neg mag shift) = s.running s.flip :=
    wrapSample_add_multiple hbits (s.fitsByte_running hbits hrange s.flip) (differential_dvd hshift neg mag)
  refine ⟨?big, fun e he => ?diff⟩
  case big =>
    have hshift : 8 ≤ bigShift s.level := by rw [bigShift_eq, State.level]; split <;> omega
    obtain ⟨t, ht, h0, h1, _⟩ := exec_code_holds (i := .big neg mag) rfl h (holds hshift)
    exact ⟨t, ht, h0, h1⟩
  case diff =>
    have hshift : 8 ≤ diffShift s.level ((e : Nat) + 1) := by
      rw [diffShift_eq, State.level]
      simp only [Fin.ext_iff, Fin.le_def] at he
      split <;> omega
    obtain ⟨t, ht, h0, h1, _⟩ := exec_code_holds (diffInstr_decidesSample e neg mag) h
      ((sampleAfter_diffInstr _ _ e neg mag _).trans (holds hshift))
    exact ⟨t, ht, h0, h1⟩

/-! ### Seeds -/

/-- Settles O27: the scratch is shorter than the seeds, so the seed is not read (R604). -/
theorem seedShortfallRaises : Obligations.SeedShortfallRaises := by
  intro s c hch hbits hshort
  have hchans : s.hdr.channels.toInt = 1 ∨ s.hdr.channels.toInt = 2 := by
    rcases hch with h | h <;> rw [h] <;> decide
  have hw : s.w = 1 ∨ s.w = 2 := State.w_of_bits (by rcases hbits with h | h <;> rw [h] <;> decide)
  have hseed : (s.seedBytes : Int) = s.hdr.channels.toInt * s.hdr.bits.toInt.tdiv 8 :=
    State.seedBytes_of_layout hchans hw
  have hlt : s.scrLen < s.seedBytes := by omega
  exact ⟨_, if_pos hlt, errorTaken_raiseFrom _ _ s, rfl, rfl⟩

/-- The seed of an 8-bit session is one byte (R603, R310). -/
theorem seedValue_of_byte {s : State} (h : s.hdr.bits = 8) (c : Chan) :
    (s.seedValue c).toInt = ((s.scratchByte c.toNat).toNat : Int).bmod 256 := by
  have hw : s.w = 1 := by rw [State.w, h]; decide
  rw [State.seedValue, if_pos hw, BitVec.toInt_signExtend_of_le (by decide), BitVec.toInt_eq_toNat_bmod]
  cases c <;> rfl

/-- The seed of a 16-bit session is two bytes, the low one first (R603, R310). -/
theorem seedValue_of_pair {s : State} (h : s.hdr.bits = 16) (c : Chan) :
    (s.seedValue c).toInt
      = ((s.scratchByte (2 * c.toNat)).toNat + 256 * (s.scratchByte (2 * c.toNat + 1)).toNat : Int).bmod 65536 := by
  have hw : s.w ≠ 1 := by rw [State.w, h]; decide
  rw [State.seedValue, if_neg hw, pair16_toInt]
  cases c <;> rfl

/-- A seed leaves everything but its accumulator as it is (R603). -/
theorem State.setRunning_frame (c : Chan) (v : Sample) (s : State) :
    (s.setRunning c v).runlength = s.runlength ∧ (s.setRunning c v).flip = s.flip ∧ (s.setRunning c v).idx = s.idx
      ∧ (s.setRunning c v).outBuf = s.outBuf ∧ (s.setRunning c v).sink = s.sink
      ∧ (s.setRunning c v).snkPos = s.snkPos ∧ CodeFrame s (s.setRunning c v) := by
  cases c <;> exact ⟨rfl, rfl, rfl, rfl, rfl, rfl, codeFrame_of_same rfl⟩

/-- Settles O26: the accumulator is written with the seed, and nothing else is. -/
theorem seedLoadsTheSample : Obligations.SeedLoadsTheSample := by
  intro s c _ hthere
  refine ⟨s.setRunning c (s.seedValue c), execSeed_there hthere, fun h => ?byte, fun h => ?pair,
    State.running_setRunning_other c _ s, State.setRunning_frame c _ s⟩
  case byte => rw [State.running_setRunning_same]; exact seedValue_of_byte h c
  case pair => rw [State.running_setRunning_same]; exact seedValue_of_pair h c

end Sys2Proof.Machine
end

section
/-! PROOFS. A step in the middle of a block (R600 to R607, R655): the code at the cursor, the seeds that are emitted
directly, and bits that are not there. -/

namespace Sys2Proof.Machine

/-! ### The code at the cursor -/

/-- Settles O6: only exponent 0 asks for the flag. -/
theorem runLengthFlagChangesOnlyExponentZero : Obligations.RunLengthFlagChangesOnlyExponentZero := by
  intro lvl rd e he hne
  unfold decodeCode
  rw [he]
  match e, hne with
  | 0, hne => exact absurd rfl hne
  | 1, _ | 2, _ | 3, _ | 4, _ | 5, _ | 6, _ => rfl
  | _ + 7, _ => rfl

theorem afterSample_of_left {s : State} (h : s.idx < s.total) : afterSample s = .next s :=
  if_neg (Nat.not_le.mpr h)

theorem afterSample_of_done {s : State} (h : s.total ≤ s.idx) : afterSample s = finishBlock s := if_pos h

/-- What follows an emission that has not ended the block (R600). -/
theorem thenBlock_afterSample {o : Step} {t : State} (ho : o = .next t) (hp : t.phase = .codes) :
    (t.idx < t.total → thenBlock o afterSample = .next t)
      ∧ (t.total ≤ t.idx → thenBlock o afterSample = finishBlock t) := by
  rw [ho, thenBlock_busy (by rw [hp]; nofun)]
  exact ⟨afterSample_of_left, afterSample_of_done⟩

/-- The step of a REPEAT or a code (R606). -/
theorem step_codes {s t : State} {i : Instr} (hp : s.phase = .codes) (hidx : s.idx < s.total)
    (hf : s.fetchCode = .run i t) : step s = thenBlock (exec i t) afterSample
      ∧ ∀ u, exec i t = .next u → u.phase = .codes →
        (u.idx < u.total → step s = .next u) ∧ (u.total ≤ u.idx → step s = finishBlock u) := by
  have hstep : step s = thenBlock (exec i t) afterSample :=
    (step_busy (by rw [hp]; nofun)).trans (blockStep_codes hp hidx hf)
  refine ⟨hstep, fun u hu hup => ?_⟩
  rw [hstep]
  exact thenBlock_afterSample hu hup

/-- The step of a code whose bits are not there (R705, R706). -/
theorem step_exhausted {s : State} {used : Nat} (hp : s.phase = .codes) (hidx : s.idx < s.total)
    (hrun : s.runlength = 0) (hd : s.decodeNext = .exhausted used) :
    step s = .next (raiseError .bitstreamExhausted (s.advanceBits used)) := by
  have hf : s.fetchCode = .ended (raiseError .bitstreamExhausted (s.advanceBits used)) := by
    rw [State.fetchCode, if_neg (not_not.mpr hrun), hd]
  rw [step_busy (by rw [hp]; nofun), blockStep, hp]
  simp only [Nat.not_le.mpr hidx, if_false, hf]

/-! ### The seeds that are emitted directly -/

/-- Frames compose. -/
theorem CodeFrame.trans {s t u : State} (hst : CodeFrame s t) (htu : CodeFrame t u) : CodeFrame s u := by
  unfold CodeFrame at *
  simp_all

theorem emitSeeds_of_left {n : Nat} {s : State} (h : s.idx < min s.chans s.total) :
    emitSeeds (n + 1) s = thenBlock (emit s) (emitSeeds n) := if_neg (Nat.not_le.mpr h)

theorem emitSeeds_of_done {n : Nat} {s : State} (h : min s.chans s.total ≤ s.idx) : emitSeeds n s = .next s := by
  cases n with
  | zero => rfl
  | succ n => exact if_pos h

/-- A block decode in which no write can fail, in the middle of a block. -/
structure Emitting (s : State) : Prop where
  busy : s.phase ≠ .idle
  accepts : s.params.partialOut = .wholeBlocks ∨ s.sinkAlwaysAccepts

theorem Emitting.canEmit {s : State} (h : Emitting s) : s.canEmit := h.accepts.imp_right sinkAccepts_of_always

/-- After an emission no write can fail either. -/
theorem Emitting.next {s t : State} (h : Emitting s) (ht : SampleEmitted s t) : Emitting t := by
  obtain ⟨hbusy, haccepts⟩ := h
  obtain ⟨_, _, ⟨_, _, hkept, _⟩, _, _, _, hphase, _, _, _, _, hparams⟩ := ht
  refine ⟨by rwa [hphase], ?_⟩
  rw [hparams]
  cases hout : s.params.partialOut with
  | wholeBlocks => exact .inl rfl
  | keepWritten =>
    obtain ⟨_, hanswers, _⟩ := hkept hout
    have halways : s.sinkAlwaysAccepts := haccepts.resolve_left (by rw [hout]; nofun)
    exact .inr fun a ha => halways a (List.mem_of_mem_tail (hanswers ▸ ha))

/-- The emission of one seed (R605, R640). -/
theorem emitSeeds_one {n : Nat} {s : State} (h : Emitting s) (hleft : s.idx < min s.chans s.total) :
    ∃ t, emitSeeds (n + 1) s = emitSeeds n t ∧ SampleEmitted s t ∧ Emitting t := by
  obtain ⟨t, ht, hsample⟩ := emit_emits h.canEmit
  have hnext := h.next hsample
  exact ⟨t, by rw [emitSeeds_of_left hleft, ht, thenBlock_busy hnext.busy], hsample, hnext⟩

theorem State.running0_of_eq {s t : State} (h : t.running = s.running) : t.running0 = s.running0 := congrFun h false

theorem State.running1_of_eq {s t : State} (h : t.running = s.running) : t.running1 = s.running1 := congrFun h true

/-- One sample is the only seed that is emitted, or the only sample of the block (R605). -/
theorem seedsEmitted_of_one {s t : State} (h : ¬ (s.hdr.channels = 2 ∧ 2 ≤ s.total)) (hidx : s.idx = 0)
    (hflip : s.flip = false) (ht : SampleEmitted s t) : SeedsEmitted s t := by
  obtain ⟨hrunning, hrun, ⟨htidx, htflip, hkept, hwhole⟩, hframe⟩ := ht
  have hfirst : s.running s.flip = s.running0 := by rw [hflip]; rfl
  rw [hfirst] at hkept hwhole
  have hpcm : (s.bytesOf s.running0.toInt
        ++ if s.hdr.channels = 2 ∧ 2 ≤ s.total then s.bytesOf s.running1.toInt else [])
      = s.bytesOf s.running0.toInt := by rw [if_neg h, List.append_nil]
  refine ⟨by rw [htidx, hidx, if_neg h], ?_, State.running0_of_eq hrunning, State.running1_of_eq hrunning, hrun, ?_, ?_,
    hframe⟩
  · rw [htflip, hflip]
    by_cases hst : s.hdr.channels = 2
    · have hshort : s.total < 2 := Nat.not_le.mp fun hle => h ⟨hst, hle⟩
      rw [if_pos hst, decide_eq_true ⟨hst, hshort⟩]
      rfl
    · rw [if_neg hst, decide_eq_false fun hc => hst hc.1]
  · rw [hpcm]
    intro hout
    obtain ⟨hbytes, _, hpos, hbuf⟩ := hkept hout
    exact ⟨hbytes, hpos, hbuf⟩
  · rw [hpcm]
    exact hwhole

/-- The left channel's seed and then the right channel's (R605). -/
theorem seedsEmitted_of_two {s t v : State} (hst : s.hdr.channels = 2) (htotal : 2 ≤ s.total) (hidx : s.idx = 0)
    (hflip : s.flip = false) (ht : SampleEmitted s t) (hv : SampleEmitted t v) : SeedsEmitted s v := by
  have hboth : s.hdr.channels = 2 ∧ 2 ≤ s.total := ⟨hst, htotal⟩
  obtain ⟨hrunning, hrun, ⟨htidx, htflip, hkept, hwhole⟩, hframe⟩ := ht
  obtain ⟨hrunning', hrun', ⟨hvidx, hvflip, hkept', hwhole'⟩, hframe'⟩ := hv
  have hall := hframe.trans hframe'
  obtain ⟨⟨_, _, _, _, _, _, _, hhdr⟩, _, _, _, _, _, _, _, hparams⟩ := hframe
  rw [if_pos hst, hflip] at htflip
  rw [hhdr, if_pos hst, htflip] at hvflip
  have hfirst : s.bytesOf (s.running s.flip).toInt = s.bytesOf s.running0.toInt := by rw [hflip]; rfl
  have hsecond : t.bytesOf (t.running t.flip).toInt = s.bytesOf s.running1.toInt := by
    rw [htflip, hrunning, State.bytesOf, hhdr]; rfl
  rw [hfirst] at hkept hwhole
  rw [hsecond, hparams] at hkept' hwhole'
  have hpcm : (s.bytesOf s.running0.toInt
        ++ if s.hdr.channels = 2 ∧ 2 ≤ s.total then s.bytesOf s.running1.toInt else [])
      = s.bytesOf s.running0.toInt ++ s.bytesOf s.running1.toInt := by rw [if_pos hboth]
  refine ⟨by rw [hvidx, htidx, hidx, if_pos hboth], ?_, State.running0_of_eq (hrunning'.trans hrunning),
    State.running1_of_eq (hrunning'.trans hrunning), hrun'.trans hrun, ?_, ?_, hall⟩
  · rw [hvflip, decide_eq_false fun hshort => absurd hshort.2 (Nat.not_lt.mpr htotal)]
    rfl
  · rw [hpcm]
    intro hout
    obtain ⟨hbytes, _, hpos, hbuf⟩ := hkept hout
    obtain ⟨hbytes', _, hpos', hbuf'⟩ := hkept' hout
    refine ⟨?_, ?_, hbuf'.trans hbuf⟩
    · rw [hbytes', hbytes, List.append_assoc]
    · rw [hpos', hpos, List.length_append, Nat.add_assoc]
  · rw [hpcm]
    intro hout
    obtain ⟨hbuf, hsink, hpos⟩ := hwhole hout
    obtain ⟨hbuf', hsink', hpos'⟩ := hwhole' hout
    exact ⟨by rw [hbuf', hbuf, List.append_assoc], hsink'.trans hsink, hpos'.trans hpos⟩

theorem State.chans_eq (s : State) : s.chans = if s.hdr.channels = 2 then 2 else 1 := by
  simp only [State.chans, State.stereo, decide_eq_true_eq]

/-- The first `min(C, T)` seeds are emitted, in the order of the channels (R605). -/
theorem emitSeeds_emits {s : State} (h : Emitting s) (hidx : s.idx = 0) (hflip : s.flip = false)
    (htotal : 0 < s.total) : ∃ v, emitSeeds s.chans s = .next v ∧ SeedsEmitted s v := by
  obtain ⟨n, hn⟩ : ∃ n, s.chans = n + 1 := ⟨s.chans - 1, by have := s.chans_pos; omega⟩
  obtain ⟨t, ht, hsample, hnext⟩ := emitSeeds_one (n := n) h (by omega)
  have ⟨_, _, ⟨htidx, _⟩, ⟨_, _, _, _, _, _, _, hhdr⟩, _, ⟨_, _, _, httotal, _⟩, _⟩ := hsample
  have htchans : t.chans = s.chans := State.chans_congr hhdr
  rw [hn, ht]
  by_cases hboth : s.hdr.channels = 2 ∧ 2 ≤ s.total
  · obtain ⟨hst, htwo⟩ := hboth
    have hchans : s.chans = 2 := by rw [State.chans_eq, if_pos hst]
    obtain rfl : n = 1 := Nat.succ.inj (hn.symm.trans hchans)
    obtain ⟨v, hv, hsample', _⟩ := emitSeeds_one (n := 0) hnext (by omega)
    exact ⟨v, hv, seedsEmitted_of_two hst htwo hidx hflip hsample hsample'⟩
  · have hdone : min t.chans t.total ≤ t.idx := by
      have hchans := s.chans_eq
      split at hchans
      · have hshort : ¬ 2 ≤ s.total := fun htwo => hboth ⟨‹_›, htwo⟩
        omega
      · omega
    exact ⟨t, emitSeeds_of_done hdone, seedsEmitted_of_one hboth hidx hflip hsample⟩

/-- The step of the last channel's seed, when its bytes are there: the start of the bitstream follows (R600, R603). -/
theorem step_last_seed {s t : State} {c : Chan} (hdue : s.lastSeedDue c) (ht : exec (.seed c) s = .next t)
    (hp : t.phase ≠ .idle) : step s = startCodes t ∧ DatapathOnly s t ∧ t.flip = false := by
  obtain ⟨hphase, hlast, _, hflip, _⟩ := hdue
  have hstep : step s = afterSeed c t := by
    rw [step_busy (by rw [hphase]; nofun), blockStep_seeding hphase, ht, thenBlock_busy hp]
  rcases execSeed_inv ht with ⟨_, rfl⟩ | ⟨_, rfl⟩
  · exact absurd rfl hp
  · rw [hstep]
    exact ⟨afterSeed_last (by rwa [State.setRunning_hdr]), setRunning_datapathOnly c _ s,
      (State.setRunning_flip c _ s).trans hflip⟩

/-- Settles O16: each kind of iteration, by what is due. -/
theorem stepRunsTheCodeAtTheCursor : Obligations.StepRunsTheCodeAtTheCursor := by
  refine ⟨?seed, ?otherSeed, ?lastSeed, ?repeatRun, ?code, ?exhausted⟩
  case seed =>
    intro s c hp
    rw [step_busy (by rw [hp]; nofun), blockStep_seeding hp]
  case otherSeed =>
    intro s t hp hst ht hbusy
    have hhdr : t.hdr = s.hdr := by
      rcases execSeed_inv ht with ⟨_, rfl⟩ | ⟨_, rfl⟩
      · rfl
      · exact State.setRunning_hdr _ _ s
    rw [step_busy (by rw [hp]; nofun), blockStep_seeding hp, ht, thenBlock_busy hbusy]
    exact if_pos ⟨rfl, by rw [State.stereo, hhdr, hst]; rfl⟩
  case lastSeed =>
    intro s t c hdue ht hbusy
    have ⟨_, _, hidx, _, htotal⟩ := hdue
    obtain ⟨hstep, hdata, hflip⟩ := step_last_seed hdue ht hbusy
    have hkeep : t.idx = s.idx ∧ t.total = s.total ∧ t.params = s.params ∧ t.sink = s.sink := by
      rw [hdata]; exact ⟨rfl, rfl, rfl, rfl⟩
    obtain ⟨htidx, httotal, hparams, hsink⟩ := hkeep
    rw [hstep, startCodes_eq, hparams]
    refine ⟨fun hmode => ?_, fun hmode haccepts => ?_⟩ <;> simp only [hmode]
    · exact afterSample_of_left (s := t.atBitstream) (by show t.idx < t.total; omega)
    · have hemitting : Emitting t.atBitstream := ⟨nofun, by rwa [State.sinkAlwaysAccepts, hparams, hsink]⟩
      obtain ⟨v, hv, hseeds⟩ := emitSeeds_emits hemitting (htidx.trans hidx) hflip (by show 0 < t.total; omega)
      have ⟨_, _, _, _, _, _, _, _, _, _, hphase, _⟩ := hseeds
      exact ⟨v, hseeds, thenBlock_afterSample hv hphase⟩
  case repeatRun =>
    intro s hp hidx hrun
    exact step_codes hp hidx (if_pos hrun)
  case code =>
    intro s i len hp hidx hrun hd _
    exact step_codes hp hidx (by rw [State.fetchCode, if_neg (not_not.mpr hrun), hd])
  case exhausted =>
    intro s used hp hidx hrun hd
    exact ⟨_, step_exhausted hp hidx hrun hd, errorTaken_raiseFrom _ _ _, rfl, rfl, rfl, rfl, rfl, rfl, rfl, rfl, rfl,
      rfl, rfl, rfl, rfl⟩

end Sys2Proof.Machine
end

section
/-! PROOFS. Two block decodes run in lockstep (R600): a simulation relation on the states in the middle of a block, one
commuting condition for each elementary operation, and NEXT on a compressed block derived from them. -/

namespace Sys2Proof.Machine

/-! ### Operations in lockstep -/

/-- Where the first operation answers a next state the second does, in the same phase: states related by `R` while the
block goes on, by `F` once it has ended. -/
def InStep (R F : State → State → Prop) (o o' : Step) : Prop :=
  ∀ t, o = .next t → ∃ v, o' = .next v ∧ v.phase = t.phase ∧ if t.phase = .idle then F t v else R t v

section
variable {S C R F : State → State → Prop} {s u : State} {o o' : Step}

/-- Two states in the middle of a block. -/
theorem inStep_busy (hs : s.phase ≠ .idle) (hp : u.phase = s.phase) (h : R s u) : InStep R F (.next s) (.next u) := by
  rintro t ⟨⟩
  exact ⟨u, rfl, hp, by rwa [if_neg hs]⟩

/-- Two states in which the block has ended. -/
theorem inStep_ended (hs : s.phase = .idle) (hu : u.phase = .idle) (h : F s u) : InStep R F (.next s) (.next u) := by
  rintro t ⟨⟩
  exact ⟨u, rfl, hu.trans hs.symm, by rwa [if_pos hs]⟩

/-- An operation that does not answer (R923). -/
theorem inStep_of_stopped (h : ∀ t, o ≠ .next t) : InStep R F o o' := fun t ht => absurd ht (h t)

theorem InStep.mono (h : InStep C F o o') (himp : ∀ t v, C t v → R t v) : InStep R F o o' := by
  intro t ht
  obtain ⟨v, hv, hp, hrel⟩ := h t ht
  refine ⟨v, hv, hp, ?_⟩
  split
  · rwa [if_pos ‹_›] at hrel
  · rw [if_neg ‹_›] at hrel
    exact himp t v hrel

/-- Going on after two operations in lockstep. -/
theorem InStep.thenBlock {f f' : State → Step} (h : InStep C F o o')
    (hf : ∀ {t v}, C t v → InStep R F (f t) (f' v)) : InStep R F (thenBlock o f) (thenBlock o' f') := by
  intro t ht
  obtain ⟨w, hw, hend⟩ := thenBlock_inv ht
  obtain ⟨v, hv, hp, hrel⟩ := h w hw
  rcases hend with ⟨hidle, rfl⟩ | ⟨hbusy, hrest⟩
  · rw [hv, thenBlock_ended (hp.trans hidle)]
    exact ⟨v, rfl, hp, by rwa [if_pos hidle] at hrel ⊢⟩
  · rw [if_neg hbusy] at hrel
    rw [hv, thenBlock_busy (by rwa [hp])]
    exact hf hrel t hrest

end

/-- Two block decodes run in lockstep when the relations `S`, of states that await a seed, and `C`, of states in the
code loop, pass through every elementary operation of a decode, and imply `F` of the states in which it ends. -/
structure Lockstep (S C F : State → State → Prop) : Prop where
  /-- what a seed reads (R603, R604) -/
  seedView : ∀ {s u}, S s u → (∃ c, s.phase = .seeding c) ∧ u.phase = s.phase ∧ u.hdr = s.hdr ∧ u.scrLen = s.scrLen
    ∧ u.total = s.total
  /-- the seeds are not there (R604) -/
  seedRaise : ∀ {s u}, S s u → F (raiseError .bitstreamExhausted s) (raiseError .bitstreamExhausted u)
  /-- the right channel's seed is due (R600) -/
  otherSeed : ∀ {s u}, S s u → s.phase = .seeding false → s.stereo = true →
    S { s.setRunning false (s.seedValue false) with phase := .seeding true }
      { u.setRunning false (u.seedValue false) with phase := .seeding true }
  /-- the bitstream begins (R701) -/
  bitstream : ∀ {s u c}, S s u → s.phase = .seeding c → ¬ (c = false ∧ s.stereo = true) →
    C (s.setRunning c (s.seedValue c)).atBitstream (u.setRunning c (u.seedValue c)).atBitstream
  /-- what the code loop reads (R600, R606, R607) -/
  codeView : ∀ {s u}, C s u → s.phase = .codes ∧ u.phase = .codes ∧ u.hdr = s.hdr ∧ u.idx = s.idx ∧ u.total = s.total
    ∧ u.params.seedMode = s.params.seedMode ∧ u.runlength = s.runlength ∧ u.decodeNext = s.decodeNext
  /-- a code's bits are not there (R705) -/
  exhaust : ∀ {s u}, C s u → ∀ n, F (raiseError .bitstreamExhausted (s.advanceBits n))
    (raiseError .bitstreamExhausted (u.advanceBits n))
  /-- a REPEAT, or a code after its bits have been read (R606, R703) -/
  code : ∀ {s u}, C s u → ∀ n i, C ((s.advanceBits n).decided i) ((u.advanceBits n).decided i)
  /-- an emission (R640, R642) -/
  emits : ∀ {s u}, C s u → InStep C F (emit s) (emit u)
  /-- the end of the block (R642, R508) -/
  ends : ∀ {s u}, C s u → InStep C F (finishBlock s) (finishBlock u)

/-! ### One iteration -/

section
variable {S C F : State → State → Prop} {s u : State}

/-- The loop's test (R600). -/
theorem Lockstep.afterSample (L : Lockstep S C F) (h : C s u) :
    InStep C F (afterSample s) (Machine.afterSample u) := by
  obtain ⟨hs, hu, _, hidx, htotal, _⟩ := L.codeView h
  rw [afterSample_eq, afterSample_eq, hidx, htotal]
  split
  · exact L.ends h
  · exact inStep_busy (by rw [hs]; nofun) (hu.trans hs.symm) h

/-- The direct emission of the seeds (R605). -/
theorem Lockstep.emitSeeds (L : Lockstep S C F) (n : Nat) (h : C s u) :
    InStep C F (emitSeeds n s) (Machine.emitSeeds n u) := by
  induction n generalizing s u with
  | zero =>
    obtain ⟨hs, hu, _⟩ := L.codeView h
    exact inStep_busy (by rw [hs]; nofun) (hu.trans hs.symm) h
  | succ n ih =>
    obtain ⟨hs, hu, hhdr, hidx, htotal, _⟩ := L.codeView h
    unfold Machine.emitSeeds
    rw [State.chans_congr hhdr, hidx, htotal]
    split
    · exact inStep_busy (by rw [hs]; nofun) (hu.trans hs.symm) h
    · exact (L.emits h).thenBlock ih

/-- The start of the bitstream (R605, R701). -/
theorem Lockstep.startCodes (L : Lockstep S C F) (h : C s.atBitstream u.atBitstream) :
    InStep C F (startCodes s) (Machine.startCodes u) := by
  obtain ⟨_, _, hhdr, _, _, hmode, _⟩ := L.codeView h
  have hchans : u.chans = s.chans := State.chans_congr hhdr
  have hmode : u.params.seedMode = s.params.seedMode := hmode
  rw [startCodes_eq, startCodes_eq, hmode, hchans]
  split
  · exact (L.emitSeeds _ h).thenBlock L.afterSample
  · exact L.afterSample h

/-- The iteration that seeds a channel (R600, R603, R604). -/
theorem Lockstep.seed (L : Lockstep S C F) (h : S s u) :
    InStep (fun t v => S t v ∨ C t v) F (blockStep execInBlock s) (blockStep execInBlock u) := by
  obtain ⟨⟨c, hs⟩, hu, hhdr, hlen, _⟩ := L.seedView h
  have hseeds : u.seedBytes = s.seedBytes := State.seedBytes_congr hhdr
  by_cases hthere : s.seedBytes ≤ s.scrLen
  · rw [blockStep_seed_there hs hthere, blockStep_seed_there (hu.trans hs) (by rwa [hseeds, hlen])]
    unfold afterSeed
    rw [State.stereo_congr (State.setRunning_hdr c _ s), State.stereo_congr (State.setRunning_hdr c _ u),
      State.stereo_congr hhdr]
    split
    · rename_i hdue
      obtain ⟨rfl, hst⟩ := hdue
      exact inStep_busy nofun rfl (.inl (L.otherSeed h hs hst))
    · exact (L.startCodes (L.bitstream h hs ‹_›)).mono fun _ _ => .inr
  · have raised {v : State} (hv : v.phase = .seeding c) (hshort : v.scrLen < v.seedBytes) :
        blockStep execInBlock v = .next (raiseError .bitstreamExhausted v) := by
      rw [blockStep_seeding hv, execInBlock, execSeed, if_pos hshort, thenBlock_ended rfl]
    rw [raised hs (Nat.not_le.mp hthere), raised (hu.trans hs) (by rw [hseeds, hlen]; exact Nat.not_le.mp hthere)]
    exact inStep_ended rfl rfl (L.seedRaise h)

/-- A REPEAT or a code after its bits have been read, and the loop's test (R606). -/
theorem Lockstep.run (L : Lockstep S C F) (h : C s u) {i : Instr} (hi : i.decidesSample = true) (n : Nat) :
    InStep C F (thenBlock (execInBlock i (s.advanceBits n)) Machine.afterSample)
      (thenBlock (execInBlock i (u.advanceBits n)) Machine.afterSample) := by
  rw [execInBlock_eq_emit hi, execInBlock_eq_emit hi]
  exact (L.emits (L.code h n i)).thenBlock L.afterSample

theorem State.advanceBits_zero (s : State) : s.advanceBits 0 = s := rfl

/-- The iteration of a REPEAT or a code (R606, R607). -/
theorem Lockstep.codes (L : Lockstep S C F) (h : C s u) :
    InStep C F (blockStep execInBlock s) (blockStep execInBlock u) := by
  obtain ⟨hs, hu, _, hidx, htotal, _, hrun, hdecode⟩ := L.codeView h
  unfold blockStep
  rw [hs, hu]
  simp only [hidx, htotal]
  split
  · exact L.ends h
  · unfold State.fetchCode
    rw [hrun, hdecode]
    by_cases hzero : s.runlength = 0
    · simp only [hzero, ne_eq, not_true_eq_false, if_false]
      cases hd : s.decodeNext with
      | code i len => exact L.run h (decodeCode_kind hd).1 len
      | exhausted used => exact inStep_ended rfl rfl (L.exhaust h used)
      | badWidth => exact inStep_of_stopped fun t ht => by cases ht
    · simp only [hzero, ne_eq, not_false_eq_true, if_true]
      have hrepeat := L.run h (i := .repeatRun) rfl 0
      rwa [State.advanceBits_zero, State.advanceBits_zero] at hrepeat

/-- Every iteration of a block decode. -/
theorem Lockstep.iteration (L : Lockstep S C F) (h : S s u ∨ C s u) :
    InStep (fun t v => S t v ∨ C t v) F (blockStep execInBlock s) (blockStep execInBlock u) := by
  rcases h with h | h
  · exact L.seed h
  · exact (L.codes h).mono fun _ _ => .inr

/-! ### The whole block -/

/-- The phases and the samples to emit of two decodes in lockstep. -/
theorem Lockstep.view (L : Lockstep S C F) (h : S s u ∨ C s u) :
    s.phase ≠ .idle ∧ u.phase = s.phase ∧ u.total = s.total := by
  rcases h with h | h
  · obtain ⟨⟨c, hs⟩, hu, _, _, htotal⟩ := L.seedView h
    exact ⟨by rw [hs]; nofun, hu, htotal⟩
  · obtain ⟨hs, hu, _, _, htotal, _⟩ := L.codeView h
    exact ⟨by rw [hs]; nofun, hu.trans hs.symm, htotal⟩

/-- Iterations, by induction on how many. -/
theorem Lockstep.iterations (L : Lockstep S C F) (n : Nat) (h : S s u ∨ C s u) :
    InStep (fun t v => S t v ∨ C t v) F (runBlock execInBlock n s) (runBlock execInBlock n u) := by
  induction n generalizing s u with
  | zero =>
    obtain ⟨hs, hu, _⟩ := L.view h
    exact inStep_busy hs hu h
  | succ n ih =>
    obtain ⟨hs, hu, _⟩ := L.view h
    rw [runBlock_succ _ _ _ hs, runBlock_succ _ _ _ (by rwa [hu])]
    intro t ht
    split at ht
    case h_2 => cases ht
    case h_3 => cases ht
    case h_1 w hw =>
      obtain ⟨v, hv, hp, hrel⟩ := L.iteration h w hw
      rw [hv]
      by_cases hidle : w.phase = .idle
      · rw [runBlock_idle _ _ _ hidle] at ht
        cases ht
        exact ⟨v, runBlock_idle _ _ _ (hp.trans hidle), hp, hrel⟩
      · rw [if_neg hidle] at hrel
        exact ih hrel t ht

/-- NEXT on a compressed block whose start is in lockstep, and which comes to its end (R510 to R514). -/
theorem Lockstep.compressedBlock (L : Lockstep S C F) (h : InStep S F (startBlock s) (startBlock u)) {t : State}
    (ht : compressedBlock s = .next t) (hend : t.phase = .idle) : ∃ v, Machine.compressedBlock u = .next v ∧ F t v := by
  unfold Machine.compressedBlock at ht ⊢
  split at ht
  case h_2 => cases ht
  case h_3 => cases ht
  case h_1 w hw =>
    obtain ⟨v, hv, hp, hrel⟩ := h w hw
    rw [hv]
    by_cases hidle : w.phase = .idle
    · rw [runBlock_idle _ _ _ hidle] at ht
      cases ht
      rw [if_pos hidle] at hrel
      exact ⟨v, runBlock_idle _ _ _ (hp.trans hidle), hrel⟩
    · rw [if_neg hidle] at hrel
      obtain ⟨_, _, htotal⟩ := L.view (.inl hrel)
      have hfuel : v.blockFuel = w.blockFuel := congrArg (· + 3) htotal
      obtain ⟨x, hx, _, hfinal⟩ := L.iterations w.blockFuel (.inl hrel) t ht
      rw [if_pos hend] at hfinal
      exact ⟨x, by rw [← hx, ← hfuel], hfinal⟩

end

end Sys2Proof.Machine
end

section
/-! PROOFS. The start of a compressed block reads neither the decode registers nor the output mode (R510 to R512), and a
block that completes under PREFIX completes under NONE (R642). -/

namespace Sys2Proof.Machine

/-! ### What a command reads -/

/-- `s` with the datapath, the scratch, the BitReader, the loop registers and the output mode of `d`. -/
def State.decodeInto (d s : State) : State :=
  { s with
    running0 := d.running0, running1 := d.running1, flip := d.flip, runlength := d.runlength
    scratch := d.scratch, scrLen := d.scrLen, brBase := d.brBase, brLen := d.brLen, brPos := d.brPos
    total := d.total, idx := d.idx
    params := { s.params with partialOut := d.params.partialOut } }

/-- A read answers the same whatever the decode registers hold (R233). -/
theorem srcRead_decodeInto (n : Nat) (d s : State) :
    srcRead n (d.decodeInto s) = ((srcRead n s).1, (srcRead n s).2.1, d.decodeInto (srcRead n s).2.2) := by
  have hsrc : (d.decodeInto s).src = s.src := rfl
  unfold srcRead
  rw [hsrc]
  cases s.src.answers.headD .ok <;> rfl

/-- What the start of a compressed block does, with the decode registers and the output mode of `s` and of `d`: it
ends in the same error, it begins the same decode, or it does not answer (R510 to R512). -/
def StartsAlike (d s : State) (o o' : Step) : Prop :=
  (∃ t, o = .next t ∧ o' = .next (d.decodeInto t) ∧ t.sess = .error ∧ t.phase = .idle)
  ∨ (∃ size buf src pos, o = beginDecode size (State.loadScratch buf { s with src := src, srcPos := pos })
      ∧ o' = beginDecode size (State.loadScratch buf (d.decodeInto { s with src := src, srcPos := pos })))
  ∨ ∀ t, o ≠ .next t

/-- The scratch load (R512, R210). -/
theorem loadBlock_startsAlike (d s : State) (size : Int) (buf : List Byte) (src : Source) (pos : Nat) :
    StartsAlike d s (loadBlock size buf { s with src := src, srcPos := pos })
      (loadBlock size buf (d.decodeInto { s with src := src, srcPos := pos })) := by
  have hcap : (d.decodeInto { s with src := src, srcPos := pos }).scratchExceeded buf.length
      = State.scratchExceeded { s with src := src, srcPos := pos } buf.length := rfl
  unfold loadBlock
  rw [hcap]
  split
  · exact .inr (.inr fun t h => by cases h)
  · exact .inr (.inl ⟨size, buf, src, pos, rfl, rfl⟩)

/-- An error of the start (R820). -/
theorem raise_startsAlike (d s : State) (rest0 : List Byte) (e : ErrCode) (v : State) :
    StartsAlike d s (.next (raiseFrom rest0 e v)) (.next (raiseFrom rest0 e (d.decodeInto v))) :=
  .inl ⟨_, rfl, rfl, rfl, rfl⟩

theorem startInnerBlock_startsAlike (d s : State) :
    StartsAlike d s (startInnerBlock s) (startInnerBlock (d.decodeInto s)) := by
  have hview : (d.decodeInto s).readBound = s.readBound
      ∧ (d.decodeInto s).compressedLength = s.compressedLength := ⟨rfl, rfl⟩
  obtain ⟨hbound, hlen⟩ := hview
  unfold startInnerBlock
  rw [hbound, hlen, srcRead_decodeInto]
  split
  · exact raise_startsAlike d s _ _ s
  · rcases srcRead_cases s.compressedLength.toNat s with ⟨hr, _⟩ | ⟨_, hr, _⟩ | ⟨hr, _⟩ | ⟨hr, _⟩ <;> rw [hr]
    · exact .inr (.inr fun t h => by cases h)
    · exact raise_startsAlike d s _ _ _
    · exact loadBlock_startsAlike d s _ _ _ _
    · exact raise_startsAlike d s _ _ _

theorem startFinalBlock_startsAlike (d s : State) :
    StartsAlike d s (startFinalBlock s) (startFinalBlock (d.decodeInto s)) := by
  have hbound : (d.decodeInto s).readBound = s.readBound := rfl
  unfold startFinalBlock
  rw [hbound, srcRead_decodeInto]
  split
  · exact loadBlock_startsAlike d s _ _ s.src s.srcPos
  · rcases srcRead_cases s.readBound.toNat s with ⟨hr, _⟩ | ⟨_, hr, _⟩ | ⟨hr, _⟩ | ⟨hr, _⟩ <;> rw [hr]
    · exact .inr (.inr fun t h => by cases h)
    · exact raise_startsAlike d s _ _ _
    · exact loadBlock_startsAlike d s _ _ _ _
    · exact loadBlock_startsAlike d s _ _ _ _

/-- The start of a compressed block reads neither the decode registers nor the output mode (R510 to R512). -/
theorem startBlock_startsAlike (d s : State) : StartsAlike d s (startBlock s) (startBlock (d.decodeInto s)) := by
  have hlast : (d.decodeInto s).notLastBlock = s.notLastBlock := rfl
  unfold startBlock
  rw [hlast]
  split
  · exact startInnerBlock_startsAlike d s
  · exact startFinalBlock_startsAlike d s

/-- Two decodes begun of states with the same header (R600 to R602). -/
theorem beginDecode_inStep {S F : State → State → Prop} {size : Int} {s u : State} (hhdr : u.hdr = s.hdr)
    (hempty : F (s.decodeStart size).endBlock (u.decodeStart size).endBlock)
    (hstart : 0 < (size.tdiv s.w).toNat →
      S { s.decodeStart size with phase := .seeding false } { u.decodeStart size with phase := .seeding false }) :
    InStep S F (beginDecode size s) (beginDecode size u) := by
  have hw : u.w = s.w := State.w_congr hhdr
  by_cases hzero : (size.tdiv s.w).toNat = 0
  · rw [beginDecode_empty hzero, beginDecode_empty (by rwa [hw])]
    exact inStep_ended rfl rfl hempty
  · rw [beginDecode_eq, beginDecode_eq, hw, if_neg hzero, if_neg hzero]
    exact inStep_busy nofun rfl (hstart (Nat.pos_of_ne_zero hzero))

/-! ### The two output modes -/

/-- The state under NONE where PREFIX has `p`: the block's bytes wait and the sink is as the block found it (R642). -/
def State.heldBack (bytes : List Byte) (pos : Nat) (pcm : List Byte) (p : State) : State :=
  { p with
    params := { p.params with partialOut := .wholeBlocks }
    sink := ⟨bytes, []⟩
    snkPos := pos
    outBuf := pcm }

/-- Under PREFIX the block has written `pcm` after the bytes it found, to a sink that never fails (R640). -/
structure Written (bytes : List Byte) (pos : Nat) (pcm : List Byte) (p : State) : Prop where
  out : p.params.partialOut = .keepWritten
  sink : p.sink = ⟨bytes ++ pcm, []⟩
  count : p.snkPos = pos + pcm.length
  samples : 0 < p.total

/-- The two modes in the middle of a block. -/
def HeldBack (bytes : List Byte) (pos : Nat) (p n : State) : Prop :=
  ∃ pcm, Written bytes pos pcm p ∧ n = p.heldBack bytes pos pcm

/-- The state but for the output mode. -/
def State.underNone (t : State) : State := { t with params := { t.params with partialOut := .wholeBlocks } }

/-- A block that has not failed has ended alike in both modes (R642). -/
def CompletesUnderNone (t v : State) : Prop := t.sess ≠ .error → v = t.underNone

/-- The datapath is the same in both modes (R642). -/
theorem HeldBack.of_datapath {bytes : List Byte} {pos : Nat} {p n p' n' : State} (h : HeldBack bytes pos p n)
    (hp : p'.params = p.params ∧ p'.sink = p.sink ∧ p'.snkPos = p.snkPos ∧ p'.total = p.total)
    (hn : ∀ pcm, n = p.heldBack bytes pos pcm → n' = p'.heldBack bytes pos pcm) : HeldBack bytes pos p' n' := by
  obtain ⟨pcm, ⟨hout, hsink, hcount, hsamples⟩, hheld⟩ := h
  obtain ⟨hparams, hsink', hcount', htotal⟩ := hp
  exact ⟨pcm, ⟨by rw [hparams, hout], hsink'.trans hsink, hcount'.trans hcount, by rwa [htotal]⟩, hn pcm hheld⟩

theorem State.heldBack_setRunning (bytes : List Byte) (pos : Nat) (pcm : List Byte) (c : Chan) (v : Sample)
    (p : State) : (p.heldBack bytes pos pcm).setRunning c v = (p.setRunning c v).heldBack bytes pos pcm := by
  cases c <;> rfl

theorem State.heldBack_decided (bytes : List Byte) (pos : Nat) (pcm : List Byte) (i : Instr) (p : State) :
    (p.heldBack bytes pos pcm).decided i = (p.decided i).heldBack bytes pos pcm :=
  State.heldBack_setRunning bytes pos pcm p.flip (sampleAfter p.level p.narrow i (p.running p.flip))
    { p with runlength := runAfter i p.runlength }

/-- A sample that the sink accepts under PREFIX (R640). -/
theorem emit_writes {s : State} (hout : s.params.partialOut = .keepWritten) (ha : s.sinkAccepts) :
    emit s = .next (s.accept s.emitted).advanceSample := by
  rw [emit, hout]
  simp only [snkWrite_ok ha]

theorem Written.accepts {bytes pcm : List Byte} {pos : Nat} {p : State} (h : Written bytes pos pcm p) :
    p.sinkAccepts := by
  rw [State.sinkAccepts, h.sink]
  rfl

/-- An emission in both modes: written, and held back (R640, R642). -/
theorem HeldBack.emits {bytes : List Byte} {pos : Nat} {F : State → State → Prop} {p n : State} (hp : p.phase = .codes)
    (h : HeldBack bytes pos p n) :
    InStep (fun t v => t.phase = .codes ∧ HeldBack bytes pos t v) F (emit p) (emit n) := by
  obtain ⟨pcm, hwritten, rfl⟩ := h
  have ⟨hout, hsink, hcount, hsamples⟩ := hwritten
  rw [emit_writes hout hwritten.accepts, emit_waits rfl]
  refine inStep_busy (by rw [State.advanceSample_phase, State.accept_phase, hp]; nofun) rfl
    ⟨hp, pcm ++ p.emitted, ⟨hout, ?_, ?_, hsamples⟩, rfl⟩
  · rw [State.advanceSample_sink, State.accept_sink, hsink, List.append_assoc]
    rfl
  · rw [State.advanceSample_snkPos, State.accept_snkPos, hcount, List.length_append, Nat.add_assoc]

/-- The end of a block in both modes: nothing is left to write, and the whole block is (R642, R508). -/
theorem HeldBack.ends {bytes : List Byte} {pos : Nat} {C : State → State → Prop} {p n : State}
    (h : HeldBack bytes pos p n) : InStep C CompletesUnderNone (finishBlock p) (finishBlock n) := by
  obtain ⟨pcm, ⟨hout, hsink, hcount, hsamples⟩, rfl⟩ := h
  have hkept : finishBlock p = .next p.endBlock := if_neg (by rw [hout]; nofun)
  have hwhole : finishBlock (p.heldBack bytes pos pcm) = .next ((p.heldBack bytes pos pcm).accept pcm).endBlock := by
    rw [finishBlock, if_pos ⟨rfl, hsamples⟩, snkWrite_ok rfl]
    rfl
  have hsame : (p.heldBack bytes pos pcm).accept pcm = { p.underNone with outBuf := pcm } := by
    rw [State.underNone, hsink, hcount]
    rfl
  rw [hkept, hwhole, hsame]
  exact inStep_ended rfl rfl fun _ => rfl

/-- Under PREFIX and under NONE a block is decoded in lockstep (R642). -/
theorem heldBack_lockstep (bytes : List Byte) (pos : Nat) :
    Lockstep (fun p n => (∃ c, p.phase = .seeding c) ∧ HeldBack bytes pos p n)
      (fun p n => p.phase = .codes ∧ HeldBack bytes pos p n) CompletesUnderNone where
  seedView := by
    rintro p _ ⟨hp, _, _, rfl⟩
    exact ⟨hp, rfl, rfl, rfl, rfl⟩
  seedRaise := fun _ hne => absurd rfl hne
  otherSeed := by
    rintro p n ⟨_, h⟩ _ _
    refine ⟨⟨true, rfl⟩, h.of_datapath ⟨rfl, rfl, rfl, rfl⟩ ?_⟩
    rintro pcm rfl
    rfl
  bitstream := by
    rintro p n c ⟨_, h⟩ _ _
    refine ⟨rfl, h.of_datapath (by cases c <;> exact ⟨rfl, rfl, rfl, rfl⟩) ?_⟩
    rintro pcm rfl
    cases c <;> rfl
  codeView := by
    rintro p _ ⟨hp, _, _, rfl⟩
    exact ⟨hp, hp, rfl, rfl, rfl, rfl, rfl, rfl⟩
  exhaust := fun _ _ hne => absurd rfl hne
  code := by
    rintro p n ⟨hp, h⟩ k i
    have hdata := (p.advanceBits k).decided_datapathOnly i
    refine ⟨by rw [hdata]; exact hp, h.of_datapath (by rw [hdata]; exact ⟨rfl, rfl, rfl, rfl⟩) ?_⟩
    rintro pcm rfl
    exact State.heldBack_decided bytes pos pcm i (p.advanceBits k)
  emits := fun ⟨hp, h⟩ => h.emits hp
  ends := fun ⟨_, h⟩ => h.ends

/-- Settles O48: both modes start the block alike, and decode it in lockstep. -/
theorem completedBlocksAgreeAcrossOutputModes : Obligations.CompletedBlocksAgreeAcrossOutputModes := by
  intro s t hready hsink hout h hne
  have hbytes : s.sink = ⟨s.sink.bytes ++ [], []⟩ := by rw [List.append_nil, ← hsink]
  have hstart : InStep (fun p n => (∃ c, p.phase = .seeding c) ∧ HeldBack s.sink.bytes s.snkPos p n) CompletesUnderNone
      (startBlock s) (startBlock (s.underNone.decodeInto s)) := by
    rcases startBlock_startsAlike s.underNone s with ⟨v, hv, hv', herr, hidle⟩ | ⟨size, buf, src, pos, hv, hv'⟩ | hstop
    · rw [hv, hv']
      exact inStep_ended hidle hidle fun hne => absurd herr hne
    · rw [hv, hv']
      refine beginDecode_inStep rfl (fun _ => rfl) fun hsamples => ⟨⟨false, rfl⟩, [], ⟨hout, hbytes, rfl, hsamples⟩, ?_⟩
      rw [State.heldBack, ← hsink]
      rfl
    · exact inStep_of_stopped hstop
  have hphase := phase_of_next h
  rw [next_streaming hready] at h
  obtain ⟨v, hv, hsame⟩ := (heldBack_lockstep _ _).compressedBlock hstart h hphase
  rw [hsame hne] at hv
  exact (next_streaming (s := s.underNone) (m := .compressed) hready).trans hv

end Sys2Proof.Machine
end

section
/-! PROOFS. Blocks are never interdependent (R602): what the datapath, the scratch, the BitReader and the loop registers
hold when a NEXT starts reaches neither the register file nor the ports. -/

namespace Sys2Proof.Machine

/-! ### Raw blocks and the WAV header -/

/-- The outcome with its next state changed. -/
def onNext (g : State → State) (o : Step) : Step :=
  match o with
  | .next t => .next (g t)
  | .fault r => .fault r
  | .refused r => .refused r

theorem onNext_inv {g : State → State} {o : Step} {t : State} (h : o = .next t) : onNext g o = .next (g t) := by
  rw [h]; rfl

/-- A write does the same whatever the decode registers hold (R234). -/
theorem snkWrite_decodeInto (bytes : List Byte) (d s : State) :
    snkWrite bytes (d.decodeInto s) = ((snkWrite bytes s).1, d.decodeInto (snkWrite bytes s).2) := by
  have hsink : (d.decodeInto s).sink = s.sink := rfl
  unfold snkWrite
  rw [hsink]
  cases s.sink.answers.headD .ok <;> rfl

theorem nextHeader_decodeInto (d s : State) : nextHeader (d.decodeInto s) = onNext d.decodeInto (nextHeader s) := by
  have hheader : (d.decodeInto s).wavHeader = s.wavHeader := rfl
  unfold nextHeader
  rw [hheader, snkWrite_decodeInto]
  rcases snkWrite_cases s.wavHeader s with ⟨hw, _⟩ | ⟨_, hw, _⟩ | ⟨hw, _⟩ <;> rw [hw] <;> rfl

theorem rawWrite_decodeInto (bytes : List Byte) (d s : State) :
    rawWrite bytes (d.decodeInto s) = onNext d.decodeInto (rawWrite bytes s) := by
  unfold rawWrite
  rw [snkWrite_decodeInto]
  rcases snkWrite_cases bytes s with ⟨hw, _⟩ | ⟨_, hw, _⟩ | ⟨hw, _⟩ <;> rw [hw] <;> rfl

theorem rawReadFailed_decodeInto {d s : State} (hd : d.params.partialOut = s.params.partialOut)
    (rest0 bytes : List Byte) :
    rawReadFailed rest0 bytes (d.decodeInto s) = onNext d.decodeInto (rawReadFailed rest0 bytes s) := by
  have hmode : (d.decodeInto s).params.partialOut = s.params.partialOut := hd
  unfold rawReadFailed
  rw [hmode, snkWrite_decodeInto]
  cases s.params.partialOut with
  | wholeBlocks => rfl
  | keepWritten => rcases snkWrite_cases bytes s with ⟨hw, _⟩ | ⟨_, hw, _⟩ | ⟨hw, _⟩ <;> rw [hw] <;> rfl

theorem rawBlock_decodeInto {d s : State} (hd : d.params.partialOut = s.params.partialOut) :
    rawBlock (d.decodeInto s) = onNext d.decodeInto (rawBlock s) := by
  have hview : (d.decodeInto s).rawSize = s.rawSize ∧ (d.decodeInto s).src = s.src
      ∧ (d.decodeInto s).notLastBlock = s.notLastBlock := ⟨rfl, rfl, rfl⟩
  obtain ⟨hsize, hsrc, hlast⟩ := hview
  unfold rawBlock
  rw [hsize, hsrc, hlast, srcRead_decodeInto]
  rcases srcRead_cases s.rawSize.toNat s with ⟨hr, _⟩ | ⟨_, hr, _⟩ | ⟨hr, _⟩ | ⟨hr, _⟩ <;> rw [hr]
  · rfl
  · exact rawReadFailed_decodeInto (s := { s.consume _ with freeCtr := s.freeCtr + 1 }) hd _ _
  · exact rawWrite_decodeInto _ d _
  · cases s.notLastBlock
    · exact rawWrite_decodeInto _ d _
    · exact rawReadFailed_decodeInto (s := s.consume s.src.rest) hd _ _

/-! ### The decode of a compressed block -/

/-- Two decodes that await a seed: they may differ in the accumulators that have not been seeded and in the BitReader,
which is set after the seeds (R600, R701). -/
inductive AwaitsSeed (s : State) : State → Prop
  | left (r0 r1 : Sample) (base len pos : Nat) (hp : s.phase = .seeding false) (hflip : s.flip = false) :
      AwaitsSeed s { s with running0 := r0, running1 := r1, brBase := base, brLen := len, brPos := pos }
  | right (r1 : Sample) (base len pos : Nat) (hp : s.phase = .seeding true) :
      AwaitsSeed s { s with running1 := r1, brBase := base, brLen := len, brPos := pos }

/-- Two decodes in the code loop: in mono they may differ in `running[1]`, which `flip` never selects (R131, R641). -/
inductive LoopsAlike (s : State) : State → Prop
  | same (hp : s.phase = .codes) : LoopsAlike s s
  | mono (r1 : Sample) (hp : s.phase = .codes) (hmono : s.stereo = false) (hflip : s.flip = false) :
      LoopsAlike s { s with running1 := r1 }

/-- Two ends of a NEXT that differ in the decode registers only. -/
def EndsAlike (t v : State) : Prop := ∃ d, v = State.decodeInto d t

/-- The accumulator that `flip` does not select does not matter to a code (R606). -/
theorem decided_of_running1 {s : State} (hflip : s.flip = false) (r1 : Sample) (i : Instr) :
    ({ s with running1 := r1 } : State).decided i = { s.decided i with running1 := r1 } := by
  simp only [State.decided, hflip]
  rfl

/-- The accumulator that `flip` does not select does not matter to an emission (R640). -/
theorem emit_of_running1 {s : State} (hflip : s.flip = false) (r1 : Sample) :
    emit { s with running1 := r1 } = onNext (fun t => { t with running1 := r1 }) (emit s) := by
  have hbytes : ({ s with running1 := r1 } : State).emitted = s.emitted := by
    simp only [State.emitted, hflip]
    rfl
  unfold emit snkWrite
  rw [hbytes]
  cases s.params.partialOut with
  | wholeBlocks => rfl
  | keepWritten => cases s.sink.answers.headD .ok <;> rfl

/-- The accumulators do not matter to the end of a block (R642). -/
theorem finishBlock_of_running1 (s : State) (r1 : Sample) :
    finishBlock { s with running1 := r1 } = onNext (fun t => { t with running1 := r1 }) (finishBlock s) := by
  unfold finishBlock snkWrite
  by_cases hout : s.params.partialOut = .wholeBlocks ∧ 0 < s.total
  · simp only [if_pos hout]
    cases s.sink.answers.headD .ok <;> rfl
  · simp only [if_neg hout]
    rfl

/-- An emission in the code loop ends the block, or stays in the loop with `flip` 0 in mono (R640, R641). -/
theorem emit_in_loop {s t : State} (hp : s.phase = .codes) (h : emit s = .next t) :
    t.phase = .idle
      ∨ (t.phase = .codes ∧ t.stereo = s.stereo ∧ (s.stereo = false → s.flip = false → t.flip = false)) := by
  have advanced {u : State} (hu : u.phase = .codes) (hflip : u.flip = s.flip) (hst : u.stereo = s.stereo) :
      u.advanceSample.phase = .codes ∧ u.advanceSample.stereo = s.stereo
        ∧ (s.stereo = false → s.flip = false → u.advanceSample.flip = false) := by
    refine ⟨hu, hst, fun hmono hzero => ?_⟩
    rw [State.advanceSample_flip, hst, hmono, hflip, hzero]
    rfl
  rcases emit_inv h with ⟨_, _, _, rfl⟩ | ⟨_, rfl⟩ | ⟨_, _, rfl⟩
  · exact .inl rfl
  · exact .inr (advanced hp rfl rfl)
  · exact .inr (advanced hp rfl rfl)

theorem phase_of_finishBlock {s t : State} (h : finishBlock s = .next t) : t.phase = .idle := by
  rcases finishBlock_cases s with ⟨_, he⟩ | ⟨_, _, ⟨_, he⟩ | ⟨_, _, he⟩ | ⟨_, he⟩⟩ <;> rw [he] at h <;> cases h <;> rfl

theorem endsAlike_refl (t : State) : EndsAlike t t := ⟨t, rfl⟩

/-- Both decodes emit the same sample (R640). -/
theorem LoopsAlike.emits {s u : State} (h : LoopsAlike s u) : InStep LoopsAlike EndsAlike (emit s) (emit u) := by
  intro t ht
  cases h with
  | same hp =>
    refine ⟨t, ht, rfl, ?_⟩
    rcases emit_in_loop hp ht with hidle | ⟨hcodes, _⟩
    · rw [if_pos hidle]; exact endsAlike_refl t
    · rw [if_neg (by rw [hcodes]; nofun)]; exact .same hcodes
  | mono r1 hp hmono hflip =>
    refine ⟨{ t with running1 := r1 }, (emit_of_running1 hflip r1).trans (onNext_inv ht), rfl, ?_⟩
    rcases emit_in_loop hp ht with hidle | ⟨hcodes, hst, hzero⟩
    · rw [if_pos hidle]; exact ⟨{ t with running1 := r1 }, rfl⟩
    · rw [if_neg (by rw [hcodes]; nofun)]; exact .mono r1 hcodes (hst.trans hmono) (hzero hmono hflip)

/-- Both decodes end alike (R642, R508). -/
theorem LoopsAlike.ends {s u : State} (h : LoopsAlike s u) :
    InStep LoopsAlike EndsAlike (finishBlock s) (finishBlock u) := by
  intro t ht
  cases h with
  | same _ => exact ⟨t, ht, rfl, by rw [if_pos (phase_of_finishBlock ht)]; exact endsAlike_refl t⟩
  | mono r1 _ _ _ =>
    refine ⟨{ t with running1 := r1 }, (finishBlock_of_running1 s r1).trans (onNext_inv ht), rfl, ?_⟩
    rw [if_pos (phase_of_finishBlock ht)]
    exact ⟨{ t with running1 := r1 }, rfl⟩

/-- Two decodes that begin with the same block run in lockstep (R600, R602). -/
theorem independent_lockstep : Lockstep AwaitsSeed LoopsAlike EndsAlike where
  seedView := by
    rintro s _ (⟨_, _, _, _, _, hp, _⟩ | ⟨_, _, _, _, hp⟩) <;> exact ⟨⟨_, hp⟩, rfl, rfl, rfl, rfl⟩
  seedRaise := by
    rintro s _ (⟨r0, r1, base, len, pos, _, _⟩ | ⟨r1, base, len, pos, _⟩)
    · exact ⟨{ s with running0 := r0, running1 := r1, brBase := base, brLen := len, brPos := pos }, rfl⟩
    · exact ⟨{ s with running1 := r1, brBase := base, brLen := len, brPos := pos }, rfl⟩
  otherSeed := by
    rintro s _ (⟨_, r1, base, len, pos, _, _⟩ | ⟨_, _, _, _, hp⟩) hleft _
    · exact .right r1 base len pos rfl
    · cases hp.symm.trans hleft
  bitstream := by
    rintro s _ c (⟨_, r1, _, _, _, hleft, hflip⟩ | ⟨_, _, _, _, hright⟩) hp hlast
    · cases hleft.symm.trans hp
      have hmono : s.stereo = false := by simpa using hlast
      exact .mono r1 rfl hmono hflip
    · cases hright.symm.trans hp
      exact .same rfl
  codeView := by
    rintro s _ (⟨hp⟩ | ⟨_, hp, _, _⟩) <;> exact ⟨hp, hp, rfl, rfl, rfl, rfl, rfl, rfl⟩
  exhaust := by
    rintro s _ (⟨_⟩ | ⟨r1, _, _, _⟩) n
    · exact endsAlike_refl _
    · exact ⟨{ s.advanceBits n with running1 := r1 }, rfl⟩
  code := by
    rintro s _ (⟨hp⟩ | ⟨r1, hp, hmono, hflip⟩) n i <;>
      have hdata := (s.advanceBits n).decided_datapathOnly i
    · exact .same (by rw [hdata]; exact hp)
    · have hsame := decided_of_running1 (s := s.advanceBits n) hflip r1 i
      exact hsame ▸ .mono r1 (by rw [hdata]; exact hp) (by rw [hdata]; exact hmono) (by rw [hdata]; exact hflip)
  emits := LoopsAlike.emits
  ends := LoopsAlike.ends

/-- The start of a compressed block (R600 to R602). -/
theorem startBlock_independent {d s : State} (hd : d.params.partialOut = s.params.partialOut) :
    InStep AwaitsSeed EndsAlike (startBlock s) (startBlock (d.decodeInto s)) := by
  rcases startBlock_startsAlike d s with ⟨v, hv, hv', _, hidle⟩ | ⟨size, buf, src, pos, hv, hv'⟩ | hstop
  · rw [hv, hv']
    exact inStep_ended hidle hidle ⟨d, rfl⟩
  · rw [hv, hv', State.decodeInto, hd]
    exact beginDecode_inStep rfl ⟨_, rfl⟩ fun _ =>
      .left d.running0 d.running1 d.brBase d.brLen d.brPos rfl rfl
  · exact inStep_of_stopped hstop

/-- NEXT ends alike whatever the decode registers hold (R500, R602). -/
theorem next_independent {d s t : State} (hd : d.params.partialOut = s.params.partialOut)
    (h : exec .nextCmd s = .next t) : ∃ v, exec .nextCmd (d.decodeInto s) = .next v ∧ EndsAlike t v := by
  have hidle := phase_of_next h
  obtain ⟨hp, _⟩ := next_inv h
  have hp' : (d.decodeInto s).phase = .idle := hp
  have hview : (d.decodeInto s).sess = s.sess ∧ (d.decodeInto s).mode = s.mode := ⟨rfl, rfl⟩
  obtain ⟨hsess', hmode'⟩ := hview
  rw [exec_next_idle hp] at h
  rw [exec_next_idle hp']
  have alike {o o' : Step} (ho : o = .next t) (ho' : o' = onNext d.decodeInto o) : ∃ v, o' = .next v ∧ EndsAlike t v :=
    ⟨d.decodeInto t, ho'.trans (onNext_inv ho), d, rfl⟩
  unfold nextUnit at h ⊢
  rw [hsess', hmode']
  cases hsess : s.sess <;> simp only [hsess] at h ⊢
  case idle | error | finished => exact alike h rfl
  case notStarted => exact alike h (nextHeader_decodeInto d s)
  case streaming =>
    cases hmode : s.mode <;> simp only [hmode] at h ⊢
    · exact alike h (rawBlock_decodeInto hd)
    · exact independent_lockstep.compressedBlock (startBlock_independent hd) h hidle

/-- Settles O49: the two states differ in the decode registers only, before NEXT and after it. -/
theorem blocksAreIndependent : Obligations.BlocksAreIndependent := by
  intro s u t _ hu h
  have hparams : u.params = s.params := by rw [hu]
  have hinto : u.decodeInto s = u := by
    rw [State.decodeInto, hparams]
    exact hu.symm
  obtain ⟨v, hv, d, rfl⟩ := next_independent (d := u) (by rw [hparams]) h
  rw [hinto] at hv
  exact ⟨_, hv, ⟨rfl, rfl, rfl, rfl, rfl⟩, rfl, rfl, rfl, rfl⟩

end Sys2Proof.Machine
end

section
/-! PROOFS. ReadBits (spec/44_bitreader.md R702 to R705): the bits of a field, and when a read is exhausted. -/

namespace Sys2Proof.Machine

/-- The number of a bit is 1 where the bit is set (R702). -/
theorem streamBit_eq_one (byteAt : Nat → Byte) (p : Nat) :
    streamBit byteAt p = 1 ↔ (byteAt (p / 8)).getLsbD (p % 8) = true := by
  simp [streamBit]

/-- Bit `j` of a field is the field of one bit that stands `j` bits into it (R703). -/
theorem streamField_testBit (byteAt : Nat → Byte) (p : Nat) {n j : Nat} (hj : j < n) :
    (streamField byteAt p n).testBit j = (byteAt ((p + j) / 8)).getLsbD ((p + j) % 8) := by
  have bit : streamField byteAt p n / 2 ^ j % 2 = streamBit byteAt (p + j) := calc
    streamField byteAt p n / 2 ^ j % 2 = streamField byteAt (p + j) 1 := (streamField_part (k := 1) rfl hj).symm
    _ = streamBit byteAt (p + j) := by simp [streamField]
  rw [Nat.testBit_eq_decide_div_mod_eq, bit, Bool.eq_iff_iff, decide_eq_true_iff, streamBit_eq_one]

/-- When a read is exhausted, in each mode (R705). -/
theorem exhausted_iff {m : ExhaustMode} {p n len : Nat} :
    exhausted m p n len = true ↔ (m = .lazyEnd ∧ 8 * len < p + n) ∨ (m = .eagerEnd ∧ 8 * len ≤ p + n) := by
  cases m with
  | lazyEnd => simp [exhausted]
  | eagerEnd => simp [exhausted]

/-- Settles O8, by whether the bits are there: where they are, the read answers their field. -/
theorem readBitsValueAndExhaustion : Obligations.ReadBitsValueAndExhaustion := by
  intro m byteAt nbytes p n h1 h8
  rw [readField_eq m byteAt nbytes p n h1 h8, ← exhausted_iff]
  cases exhausted m p n nbytes with
  | true => exact ⟨by simp, fun hthere => absurd rfl hthere⟩
  | false =>
    exact ⟨by simp, fun _ => ⟨_, rfl, streamField_lt byteAt p n, fun _ => streamField_testBit byteAt p⟩⟩

end Sys2Proof.Machine
end

section
/-! PROOFS. Taking an error, the order of OPEN's errors, and leaving ERROR (R820, R830, R835). -/

namespace Sys2Proof.Machine

/-- Settles O51: the datapath and the ports' records are not among the fields that R820 writes. -/
theorem takingAnErrorRecordsIt : Obligations.TakingAnErrorRecordsIt := fun s e =>
  ⟨errorTaken_raiseFrom s.src.rest e s, rfl, rfl, rfl, rfl, rfl, rfl, rfl, rfl, rfl, rfl, rfl, rfl, rfl⟩

/-! ### The error each step of OPEN takes -/

/-- A source that does not fail a request, nor leave it unanswered, answers it (R233). -/
theorem State.sourceAnswers_of_not_fails {s : State} (hnever : s.src.answers.headD .ok ≠ .never)
    (hf : ¬ s.sourceFails) : s.sourceAnswers := by
  rw [State.sourceFails] at hf
  rw [State.sourceAnswers]
  cases h : s.src.answers.headD .ok with
  | ok => rfl
  | ioerr => exact absurd h hf
  | never => exact absurd h hnever

/-- A read of a source that fails (R233). -/
theorem srcRead_fails {s : State} (hf : s.sourceFails) (n : Nat) : ∃ bytes t, srcRead n s = (.ioerr, bytes, t) := by
  rcases srcRead_cases n s with ⟨_, ha⟩ | ⟨k, hr, _⟩ | ⟨_, _, ha⟩ | ⟨_, _, ha⟩
  case inr.inl => exact ⟨_, _, hr⟩
  all_goals cases ha.symm.trans hf

/-- The error of a raw header: V1, V2, the bound check of the derived geometry, then V3 to V5 (R406, R407, R410). -/
def Header.rawError (h : Header) : ErrCode :=
  h.layoutError.getD
    (if h.deriveRaw.blocksInRange = false then .blockCountOutOfRange else h.deriveRaw.sizeError.getD .none)

/-- The error of the table read and of the validation after it (R411, R412). -/
def State.tableError (s : State) : ErrCode :=
  if s.sourceFails then .sourceReadError
  else if s.src.rest.length < s.tableSize then .truncatedOffsetTable
  else s.loadTable.violation.getD .none

/-- The error of a compressed header: the bound check, then the table's (R410, R411). -/
def State.compressedError (s : State) : ErrCode :=
  if s.hdr.blocksInRange = false then .blockCountOutOfRange else s.startCompressed.tableError

/-- The error of OPEN from a cleared state, by the checks that the model makes, and `none` where it succeeds. -/
def State.openError (s : State) : ErrCode :=
  if s.sourceFails then .sourceReadError
  else if s.src.rest.length < 44 then .truncatedHeader
  else if s.loadHeader.hdr.level.toInt = -1 then s.loadHeader.hdr.rawError
  else s.loadHeader.compressedError

/-- The step answers, in NOT_STARTED where `e` is `none`, and otherwise with the error `e` recorded (R427, R820). -/
def OpenTakes (e : ErrCode) (o : Step) : Prop :=
  ∃ t, o = .next t ∧ (e = .none → t.sess = .notStarted ∧ t.errCode = .none)
    ∧ (e ≠ .none → t.sess = .error ∧ t.errCode = e ∧ t.result = .error ∧ t.lastLen = 0)

/-- Taking an error, at whatever step of OPEN (R820). -/
theorem openTakes_raiseFrom {e : ErrCode} (he : e ≠ .none) (rest0 : List Byte) (s : State) :
    OpenTakes e (.next (raiseFrom rest0 e s)) :=
  ⟨_, rfl, fun hnone => absurd hnone he, fun _ => ⟨rfl, rfl, rfl, rfl⟩⟩

/-- A violation is one of the errors (R412). -/
theorem State.violation_ne_none {s : State} {e : ErrCode} (h : s.violation = some e) : e ≠ .none := by
  rcases openValidate_inv (openValidate_raises h) with ⟨e', _, he', heq⟩ | ⟨hnone, _⟩
  · have hcode : e = e' := congrArg State.errCode heq
    rwa [hcode]
  · cases h.symm.trans hnone

/-- Validation takes the violation it finds (R412, R427). -/
theorem openValidate_takes (s : State) : OpenTakes (s.violation.getD .none) (openValidate s) := by
  cases hviol : s.violation with
  | none => exact ⟨_, openValidate_opened hviol, fun _ => ⟨rfl, rfl⟩, fun hne => absurd rfl hne⟩
  | some e =>
    rw [openValidate_raises hviol]
    exact openTakes_raiseFrom (State.violation_ne_none hviol) _ _

/-- The table read meets the end of the source (R411). -/
theorem openTable_truncated {s : State} (ha : s.sourceAnswers) (hshort : s.src.rest.length < s.tableSize) :
    openTable s = .next (raiseFrom s.src.rest .truncatedOffsetTable (s.consume s.src.rest)) := by
  rw [State.tableSize] at hshort
  rw [openTable, srcRead_eof ha hshort]

/-- The table read fails, falls short, or leaves validation to decide (R411). -/
theorem openTable_takes {s : State} (hnever : s.src.answers.headD .ok ≠ .never) :
    OpenTakes s.tableError (openTable s) := by
  unfold State.tableError
  split
  case isTrue hf =>
    obtain ⟨bytes, t, hr⟩ := srcRead_fails hf (4 * s.hdr.blocks.toInt).toNat
    rw [openTable, hr]
    exact openTakes_raiseFrom (by decide) _ _
  case isFalse hf =>
    have ha := State.sourceAnswers_of_not_fails hnever hf
    split
    case isTrue hshort =>
      rw [openTable_truncated ha hshort]
      exact openTakes_raiseFrom (by decide) _ _
    case isFalse hthere =>
      rw [openTable_loads ha (Nat.not_lt.mp hthere)]
      exact openValidate_takes _

/-- Without V1 and V2 violated, validation of a raw header is its size checks (R406, R412). -/
theorem State.startRaw_violation {s : State} (hlayout : s.hdr.layoutError = none) :
    s.startRaw.violation = s.hdr.deriveRaw.sizeError := by
  rw [State.violation_of_layout (s := s.startRaw) hlayout, State.offsetError_of_raw rfl, Option.or_none]
  rfl

/-- Raw mode (R405 to R407, R410). -/
theorem openMode_takes_raw {s : State} (hlevel : s.hdr.level.toInt = -1) :
    OpenTakes s.hdr.rawError (openMode s) := by
  unfold Header.rawError
  cases hlayout : s.hdr.layoutError with
  | some e =>
    have he : e ≠ .none := by
      have hviol : s.violation = some e := by rw [State.violation, hlayout]
      exact State.violation_ne_none hviol
    rw [openMode, if_pos hlevel, hlayout]
    exact openTakes_raiseFrom he _ _
  | none =>
    rw [Option.getD_none]
    split
    case isTrue hout =>
      rw [openMode, if_pos hlevel, hlayout]
      simp only [openBounded, hout]
      exact openTakes_raiseFrom (by decide) _ _
    case isFalse hin =>
      rw [openMode_raw hlevel hlayout (Bool.not_eq_false _ ▸ hin), ← State.startRaw_violation hlayout]
      exact openValidate_takes _

/-- Compressed mode (R405, R410, R411). -/
theorem openMode_takes_compressed {s : State} (hlevel : s.hdr.level.toInt ≠ -1)
    (hnever : s.src.answers.headD .ok ≠ .never) : OpenTakes s.compressedError (openMode s) := by
  unfold State.compressedError
  split
  case isTrue hout =>
    rw [openMode, if_neg hlevel]
    simp only [openBounded, hout]
    exact openTakes_raiseFrom (by decide) _ _
  case isFalse hin =>
    rw [openMode_compressed hlevel (Bool.not_eq_false _ ▸ hin)]
    exact openTable_takes hnever

/-- OPEN after the clearing (R400 to R403). -/
theorem openHeader_takes {s : State} (hnever : s.src.answers.headD .ok ≠ .never)
    (htable : s.loadHeader.hdr.level.toInt ≠ -1 → s.loadHeader.src.answers.headD .ok ≠ .never) :
    OpenTakes s.openError (openHeader s) := by
  unfold State.openError
  split
  case isTrue hf =>
    obtain ⟨bytes, t, hr⟩ := srcRead_fails hf 44
    rw [openHeader, hr]
    exact openTakes_raiseFrom (by decide) _ _
  case isFalse hf =>
    have ha := State.sourceAnswers_of_not_fails hnever hf
    split
    case isTrue hshort =>
      rw [openHeader_truncated ha hshort]
      exact openTakes_raiseFrom (by decide) _ _
    case isFalse hthere =>
      rw [openHeader_loads ha (Nat.not_lt.mp hthere)]
      split
      case isTrue hlevel => exact openMode_takes_raw hlevel
      case isFalse hlevel => exact openMode_takes_compressed hlevel (htable hlevel)

/-! ### The order of the errors, read off the source -/

/-- The first of a sequence of checks decides. -/
theorem getD_ite_some {c : Prop} [Decidable c] (e d : ErrCode) (o : Option ErrCode) :
    (if c then some e else o).getD d = if c then e else o.getD d := by
  split <;> rfl

/-- The bound check fails (R410). -/
theorem Header.blocksInRange_eq_false_iff (h : Header) :
    h.blocksInRange = false ↔ h.blocks.toInt ≤ 0 ∨ 1000000 < h.blocks.toInt := by
  rw [← Bool.not_eq_true, Header.blocksInRange_iff]
  omega

/-- V1, then V2 (R420, R421). -/
theorem Header.layoutError_getD (h : Header) (d : ErrCode) : h.layoutError.getD d =
    if ¬ (h.channels.toInt = 1 ∨ h.channels.toInt = 2) then .unsupportedChannelLayout
    else if ¬ (h.bits.toInt = 8 ∨ h.bits.toInt = 16) then .unsupportedBitDepth
    else d := by
  rw [Header.layoutError, getD_ite_some, getD_ite_some, Option.getD_none]

/-- V3, V4, then V5 (R422 to R424). -/
theorem Header.sizeError_getD (h : Header) (d : ErrCode) : h.sizeError.getD d =
    if ¬ (-1 ≤ h.level.toInt ∧ h.level.toInt ≤ 5) then .invalidCompressionLevel
    else if ¬ (h.dataSize.toInt = h.samples.toInt * h.w) then .inconsistentDataSize
    else if ¬ (h.samples.toInt = (h.blocks.toInt - 1) * h.blockSize.toInt + h.restSize.toInt) then
      .inconsistentSampleCount
    else d := by
  rw [Header.sizeError, getD_ite_some, getD_ite_some, getD_ite_some, Option.getD_none]

/-- Validation is V1 and V2, then V3 to V5, then V6 and V7 (R412). -/
theorem State.violation_getD (s : State) (d : ErrCode) :
    s.violation.getD d = s.hdr.layoutError.getD (s.hdr.sizeError.getD (s.offsetError.getD d)) := by
  rw [State.violation]
  cases s.hdr.layoutError with
  | some e => rfl
  | none => cases s.hdr.sizeError <;> rfl

/-- A table of at least one entry is not missing, so V6 and V7 are V7 alone (R425, R426). -/
theorem State.offsetError_getD {s : State} (hm : s.mode = .compressed) (hoff : s.off ≠ []) (d : ErrCode) :
    s.offsetError.getD d =
      if ¬ (s.offEntry (s.hdr.blocks.toInt - 1).toNat < s.hdr.compSize.toInt) then .lastOffsetOverrunsFile else d := by
  rw [State.offsetError, if_neg (by rw [hm]; decide), if_neg hoff, getD_ite_some, Option.getD_none]

/-- A table that is there has an entry (R411, R425). -/
theorem State.loadTable_off_ne_nil {s : State} (hpos : 0 < s.hdr.blocks.toInt)
    (htable : s.tableSize ≤ s.src.rest.length) : s.loadTable.off ≠ [] := by
  refine s.compressedRead_off_ne_nil [] [] (table := s.src.rest.take s.tableSize) ?_
  rw [List.length_take, Nat.min_eq_left htable, State.tableSize]
  omega

/-- A byte after the header, as it stands in the stream (R402, R411). -/
theorem getD_table (bytes : List Byte) {n j : Nat} (h : j < n) :
    ((bytes.drop 44).take n).getD j 0 = bytes.getD (44 + j) 0 := by
  rw [List.getD_eq_getElem?_getD, List.getD_eq_getElem?_getD, List.getElem?_take_of_lt h, List.getElem?_drop]

/-- The header read leaves the stream after its 44 bytes (R402). -/
theorem State.loadHeader_rest {s : State} (h : 44 ≤ s.src.rest.length) :
    s.loadHeader.src.rest = s.src.rest.drop 44 := by
  show s.src.rest.drop (s.src.rest.take 44).length = _
  rw [List.length_take, Nat.min_eq_left h]

/-- The last entry of the table, as its four bytes stand in the stream (R303, R402, R411). -/
theorem State.offEntry_last {s : State} (hlen : 44 ≤ s.src.rest.length) (hpos : 0 < s.loadHeader.hdr.blocks.toInt)
    (htable : s.loadHeader.tableSize ≤ s.loadHeader.src.rest.length) :
    let last := 40 + 4 * s.loadHeader.hdr.blocks.toInt.toNat
    s.loadHeader.startCompressed.loadTable.offEntry (s.loadHeader.hdr.blocks.toInt - 1).toNat
      = (quad32 (s.src.rest.getD last 0) (s.src.rest.getD (last + 1) 0) (s.src.rest.getD (last + 2) 0)
        (s.src.rest.getD (last + 3) 0)).toInt := by
  intro last
  have hsize : s.loadHeader.tableSize = (4 * s.loadHeader.hdr.blocks.toInt).toNat := rfl
  generalize hk : (s.loadHeader.hdr.blocks.toInt - 1).toNat = k
  have hbytes : s.loadHeader.startCompressed.loadTable.off
      = ramLoad 0 (tableEntries ((s.src.rest.drop 44).take s.loadHeader.tableSize)) := by
    rw [← State.loadHeader_rest hlen]
    rfl
  have hlast : 44 + 4 * k = last := by omega
  have hlength : ((s.src.rest.drop 44).take s.loadHeader.tableSize).length = s.loadHeader.tableSize := by
    rw [← State.loadHeader_rest hlen, List.length_take, Nat.min_eq_left htable]
  rw [State.offEntry_of_table hbytes (by omega), getD_table _ (by omega), getD_table _ (by omega),
    getD_table _ (by omega), getD_table _ (by omega), ← hlast]
  rfl

/-- In raw mode (R405 to R407, R410, R412): the derived geometry is that of the statement once V1 and V2 hold. -/
theorem firstOpenError_raw {s : State} (hf : ¬ s.sourceFails) (hlen : ¬ s.src.rest.length < 44)
    (hlevel : s.loadHeader.hdr.level.toInt = -1) : firstOpenError s.src = s.loadHeader.hdr.rawError := by
  generalize hh : s.loadHeader.hdr = h at hlevel
  have hparse : parseHeader (s.src.rest.take 44) = h := hh
  simp only [firstOpenError, if_neg hf, if_neg hlen, hparse, if_pos hlevel]
  rw [Header.rawError, Header.layoutError_getD]
  refine ite_congr rfl (fun _ => rfl) fun hch => ite_congr rfl (fun _ => rfl) fun hbits => ?_
  have hlayout := Header.layoutError_eq_none (not_not.mp hch) (not_not.mp hbits)
  obtain ⟨hrest, hnum⟩ := Header.deriveRaw_geometry (Header.w_of_layout hlayout)
  have hlevel' : -1 ≤ h.deriveRaw.level.toInt ∧ h.deriveRaw.level.toInt ≤ 5 := by
    rw [show h.deriveRaw.level.toInt = -1 from hlevel]
    decide
  have hrange := h.deriveRaw.blocksInRange_eq_false_iff
  rw [hnum] at hrange
  rw [Header.sizeError_getD, if_neg (not_not.mpr hlevel'), hnum, hrest]
  exact ite_congr (propext hrange.symm) (fun _ => rfl) fun _ => rfl

/-- In compressed mode (R405, R410 to R412). -/
theorem firstOpenError_compressed {s : State} (hf : ¬ s.sourceFails) (hlen : ¬ s.src.rest.length < 44)
    (hlevel : s.loadHeader.hdr.level.toInt ≠ -1) : firstOpenError s.src = s.loadHeader.compressedError := by
  have hlast := s.offEntry_last (Nat.not_lt.mp hlen)
  have hrest := State.loadHeader_rest (Nat.not_lt.mp hlen)
  rw [State.compressedError, State.tableError]
  generalize hh : s.loadHeader.hdr = h at hlevel hlast
  have hparse : parseHeader (s.src.rest.take 44) = h := hh
  simp only [firstOpenError, if_neg hf, if_neg hlen, hparse, if_neg hlevel]
  refine ite_congr (propext h.blocksInRange_eq_false_iff.symm) (fun _ => rfl) fun hin => ?_
  refine ite_congr rfl (fun _ => rfl) fun _ => ite_congr ?short (fun _ => rfl) fun hthere => ?_
  case short =>
    have hsize : s.loadHeader.tableSize = (4 * h.blocks.toInt).toNat := by rw [State.tableSize, hh]
    show _ = (s.loadHeader.src.rest.length < s.loadHeader.tableSize)
    rw [hrest, List.length_drop, hsize]
    exact propext (by omega)
  have hpos : 0 < h.blocks.toInt := by
    have := mt h.blocksInRange_eq_false_iff.mpr hin
    omega
  have htable := Nat.not_lt.mp hthere
  have hhdr : s.loadHeader.startCompressed.loadTable.hdr = h := hh
  have hoff : s.loadHeader.startCompressed.loadTable.off ≠ [] :=
    State.loadTable_off_ne_nil (by rwa [State.startCompressed, hh]) htable
  rw [State.violation_getD, State.offsetError_getD rfl hoff, hhdr, hlast hpos htable, Header.layoutError_getD,
    Header.sizeError_getD]
  have hvalid : h.level.toInt < 0 ∨ 5 < h.level.toInt ↔ ¬ (-1 ≤ h.level.toInt ∧ h.level.toInt ≤ 5) := by omega
  refine ite_congr rfl (fun _ => rfl) fun _ => ite_congr rfl (fun _ => rfl) fun _ =>
    ite_congr (propext hvalid) (fun _ => rfl) fun _ => ite_congr rfl (fun _ => rfl) fun _ =>
    ite_congr rfl (fun _ => rfl) fun _ => ite_congr (propext Int.not_lt.symm) (fun _ => rfl) fun _ => rfl

/-- The order of R830 is the order of the model's own checks. -/
theorem firstOpenError_eq (s : State) : firstOpenError s.src = s.openError := by
  by_cases hf : s.sourceFails
  · exact (if_pos hf).trans (if_pos hf).symm
  by_cases hlen : s.src.rest.length < 44
  · rw [State.openError, if_neg hf, if_pos hlen]
    exact (if_neg hf).trans (if_pos hlen)
  rw [State.openError, if_neg hf, if_neg hlen]
  split
  case isTrue hlevel => exact firstOpenError_raw hf hlen hlevel
  case isFalse hlevel => exact firstOpenError_compressed hf hlen hlevel

/-- Settles O35: OPEN takes the model's own error, and that error reads off the source as R830 orders it. -/
theorem shortOffsetTableComesFirst : Obligations.ShortOffsetTableComesFirst := by
  constructor
  · intro s hp hnever htable
    obtain ⟨t, hopen, hnone, herror⟩ := openHeader_takes (s := s.cleared) hnever htable
    rw [← firstOpenError_eq] at hnone herror
    have hexec := (exec_open_idle hp).trans hopen
    obtain ⟨_, _, hsink, _, _, _, _, _, _, hblock⟩ := openFrame_open hexec
    refine ⟨t, hexec, hsink, hnone, fun hne => ?_⟩
    obtain ⟨hsess, hcode, hresult, hlast⟩ := herror hne
    obtain ⟨_, herrBlock, hcurBlock⟩ := hblock hsess
    exact ⟨hsess, hcode, herrBlock ▸ minusOne_toInt, hcurBlock ▸ minusOne_toInt, hresult, hlast⟩
  · intro s h rest hp ha hs hlen hlevel hpos hmax hshort
    have hblocks : (parseHeader h).blocksInRange = true := (Header.blocksInRange_iff _).mpr ⟨hpos, hmax⟩
    have answers : s.sourceAnswers := by rw [State.sourceAnswers, ha]; rfl
    have hopen := exec_open_loads hp answers hs hlen
    rw [ha, openMode_compressed ?level ?range, openTable_truncated rfl ?short] at hopen
    case level => exact hlevel
    case range => exact hblocks
    case short =>
      show rest.length < (4 * (parseHeader h).blocks.toInt).toNat
      omega
    exact ⟨_, hopen, rfl, rfl, minusOne_toInt, rfl, rfl, rfl⟩

/-! ### Leaving ERROR -/

/-- NEXT in ERROR reports the error again and stays there (R504). -/
theorem next_keeps_error {s t : State} (hs : s.sess = .error) (h : exec .nextCmd s = .next t) : t.sess = .error := by
  have hp := (next_inv h).1
  obtain ⟨_, aborted, _⟩ := nextOutsideASession s hp
  rw [aborted hs] at h
  cases h
  exact hs

/-- Settles O54, by the host's operation and, for a write of CMD, by the command. -/
theorem onlyOpenAndResetLeaveError : Obligations.OnlyOpenAndResetLeaveError := by
  intro s t hp hs h hne
  rcases step_idle_inv hp h with ⟨_, rfl⟩ | ⟨op, rest, hhost, hop⟩
  · exact absurd hs hne
  rcases hop with ⟨v, rfl, hex⟩ | ⟨_, _, _, rfl⟩ | ⟨_, _, rfl⟩ | ⟨_, _, _, rfl⟩ | ⟨_, _, _, rfl⟩
  · refine ⟨v, rest, hhost, ?_⟩
    rcases decodeCommand_cases v with hc | hc | hc | hc
    · rw [hc] at hex
      obtain ⟨_, rfl⟩ := nop_inv hex
      exact absurd hs hne
    · exact .inl hc
    · rw [hc] at hex
      exact absurd (next_keeps_error (s := { s with host := rest }) hs hex) hne
    · exact .inr hc
  all_goals exact absurd hs hne

end Sys2Proof.Machine
end

section
/-! PROOFS. RESET and the hazards of spec/70_reset_and_hazards.md: a CMD write while a command executes is refused
(R920), and a request that is never answered leaves the command stuck (R923). -/

namespace Sys2Proof.Machine

/-! ### RESET and BUSY -/

theorem exec_reset_idle {s : State} (h : s.phase = .idle) : exec .resetCmd s = .next s.cleared := if_pos h

/-- Clearing a session clears STATUS (R103, R150). -/
theorem State.cleared_statusWord (s : State) : s.cleared.statusWord = 0 := rfl

/-- Settles O13: RESET answers the cleared state. -/
theorem resetCommand : Obligations.ResetCommand := fun s hp =>
  ⟨s.cleared, exec_reset_idle hp, ⟨s.cleared_statusWord, rfl, rfl, rfl⟩, rfl, datapathCleared_cleared s, rfl, rfl,
    rfl, rfl, rfl, rfl, rfl, rfl⟩

/-- Settles O19: with BUSY at 1 the machine's dispatch is the block's, which refuses the four commands. -/
theorem commandWhileBusyRefused : Obligations.CommandWhileBusyRefused := by
  intro s i hbusy hi
  have hp : s.phase ≠ .idle := fun h => by rw [s.busy_eq_false_iff.mpr h] at hbusy; cases hbusy
  rw [exec_eq_execInBlock s hp]
  cases i
  case nop | openCmd | nextCmd | resetCmd => rfl
  all_goals cases hi

/-! ### A source that never answers -/

theorem srcRead_silent {s : State} (h : s.sourceSilent) (n : Nat) : srcRead n s = (.never, [], s) := by
  rw [srcRead, h]

/-- OPEN at its header read (R402). -/
theorem openHeader_silent {s : State} (h : s.sourceSilent) : openHeader s = .fault .sourceNeverAnswers := by
  rw [openHeader, srcRead_silent h]

/-- OPEN at its table read (R411). -/
theorem openTable_silent {s : State} (h : s.sourceSilent) : openTable s = .fault .sourceNeverAnswers := by
  rw [openTable, srcRead_silent h]

/-- NEXT at a raw block's read (R505). -/
theorem rawBlock_source_silent {s : State} (h : s.sourceSilent) : rawBlock s = .fault .sourceNeverAnswers := by
  rw [rawBlock, srcRead_silent h]

/-- NEXT at the read of an inner block within the guard (R510). -/
theorem startInnerBlock_silent {s : State} (hlo : 0 ≤ s.compressedLength) (hhi : s.compressedLength < s.readBound)
    (h : s.sourceSilent) : startInnerBlock s = .fault .sourceNeverAnswers := by
  rw [startInnerBlock, if_neg (by omega), srcRead_silent h]

/-- NEXT at the last block's read (R511). -/
theorem startFinalBlock_silent {s : State} (hbound : 0 < s.readBound) (h : s.sourceSilent) :
    startFinalBlock s = .fault .sourceNeverAnswers := by
  rw [startFinalBlock, if_neg (Int.not_le.mpr hbound), srcRead_silent h]

/-- A start that is stuck leaves NEXT stuck (R923). -/
theorem next_of_start_stuck {s : State} {r : Fault} (hready : s.readyToStream .compressed)
    (h : startBlock s = .fault r) : exec .nextCmd s = .fault r := by
  rw [next_streaming hready]
  simp only [compressedBlock, h]

/-! ### A sink that never answers -/

theorem snkWrite_silent {s : State} (h : s.sinkSilent) (bytes : List Byte) : snkWrite bytes s = (.never, s) := by
  rw [snkWrite, h]

/-- The write of the WAV header (R502). -/
theorem nextHeader_silent {s : State} (h : s.sinkSilent) : nextHeader s = .fault .sinkNeverAnswers := by
  rw [nextHeader, snkWrite_silent h]

/-- The write of a raw block (R507). -/
theorem rawWrite_silent {s : State} (h : s.sinkSilent) (bytes : List Byte) :
    rawWrite bytes s = .fault .sinkNeverAnswers := by
  rw [rawWrite, snkWrite_silent h]

/-- Under PREFIX the bytes of a failed raw read are written too (R822). -/
theorem rawReadFailed_silent {s : State} (hout : s.params.partialOut = .keepWritten) (h : s.sinkSilent)
    (rest0 bytes : List Byte) : rawReadFailed rest0 bytes s = .fault .sinkNeverAnswers := by
  rw [rawReadFailed, hout]
  simp only [snkWrite_silent h]

/-- A raw block whose read is answered writes its bytes where the read succeeds, and under PREFIX in any case (R505 to
R507, R822). -/
theorem rawBlock_sink_silent {s : State} (hanswered : ¬ s.sourceSilent) (hsink : s.sinkSilent)
    (hwrites : s.params.partialOut = .keepWritten
      ∨ (s.sourceAnswers ∧ (s.notLastBlock = true → s.rawSize.toNat ≤ s.src.rest.length))) :
    rawBlock s = .fault .sinkNeverAnswers := by
  have written (ha : s.sourceAnswers) (hthere : s.notLastBlock = true → s.rawSize.toNat ≤ s.src.rest.length) :
      rawBlock s = .fault .sinkNeverAnswers :=
    (rawBlock_writes ha hthere).trans (rawWrite_silent (s := s.taken _) hsink _)
  rcases hwrites with hout | ⟨ha, hthere⟩
  case inr => exact written ha hthere
  by_cases hf : s.sourceFails
  · obtain ⟨k, _, hblock⟩ := rawBlock_fails hf
    exact hblock.trans (rawReadFailed_silent (s := { s.taken k with freeCtr := s.freeCtr + 1 }) hout hsink _ _)
  have ha : s.sourceAnswers := State.sourceAnswers_of_not_fails hanswered hf
  by_cases hthere : s.notLastBlock = true → s.rawSize.toNat ≤ s.src.rest.length
  · exact written ha hthere
  · obtain ⟨hinner, hshort⟩ := Classical.not_imp.mp hthere
    exact (rawBlock_short ha hinner (Nat.not_le.mp hshort)).trans
      (rawReadFailed_silent (s := s.consume _) hout hsink _ _)

/-- An emission under PREFIX (R640). -/
theorem emit_silent {s : State} (hout : s.params.partialOut = .keepWritten) (h : s.sinkSilent) :
    emit s = .fault .sinkNeverAnswers := by
  rw [emit, hout]
  simp only [snkWrite_silent h]

/-- The write at a block's end under NONE (R642). -/
theorem finishBlock_silent {s : State} (hout : s.params.partialOut = .wholeBlocks) (htotal : 0 < s.total)
    (h : s.sinkSilent) : finishBlock s = .fault .sinkNeverAnswers := by
  rw [finishBlock, if_pos ⟨hout, htotal⟩, snkWrite_silent h]

/-- A change of the datapath leaves the sink alone. -/
theorem DatapathOnly.sink {s u : State} (h : DatapathOnly s u) : u.sink = s.sink := by rw [h]

/-- A code or a REPEAT under PREFIX: its sample is written at once (R606, R640). -/
theorem exec_code_silent {s : State} {i : Instr} (hi : i.decidesSample = true)
    (hout : s.params.partialOut = .keepWritten) (h : s.sinkSilent) : exec i s = .fault .sinkNeverAnswers := by
  have hdata := s.decided_datapathOnly i
  rw [exec_of_decidesSample hi, execInBlock_eq_emit hi]
  exact emit_silent (hdata.loop.params ▸ hout) (by rwa [State.sinkSilent, hdata.sink])

/-- The emission of the first seed under PREFIX (R605, R640). -/
theorem startCodes_silent {s : State} (hidx : s.idx < min s.chans s.total) (hseed : s.params.seedMode = .seedEmit)
    (hout : s.params.partialOut = .keepWritten) (h : s.sinkSilent) : startCodes s = .fault .sinkNeverAnswers := by
  obtain ⟨n, hn⟩ : ∃ n, s.chans = n + 1 := ⟨s.chans - 1, by omega⟩
  have hemit : emit s.atBitstream = .fault .sinkNeverAnswers := emit_silent hout h
  rw [startCodes_eq, hseed, hn]
  simp only [emitSeeds_of_left (s := s.atBitstream) hidx, hemit, thenBlock]

/-- The step that emits the first seed under PREFIX (R605). -/
theorem step_first_seed_silent {s : State} {c : Chan} (hdue : s.lastSeedDue c) (hthere : s.seedBytes ≤ s.scrLen)
    (hseed : s.params.seedMode = .seedEmit) (hout : s.params.partialOut = .keepWritten) (h : s.sinkSilent) :
    step s = .fault .sinkNeverAnswers := by
  have ⟨hp, _, hidx, _, htotal⟩ := hdue
  have hexec : exec (.seed c) s = .next (s.setRunning c (s.seedValue c)) := execSeed_there hthere
  obtain ⟨hstep, hdata, _⟩ := step_last_seed hdue hexec (by rw [State.setRunning_phase, hp]; nofun)
  rw [hstep]
  refine startCodes_silent ?first (hdata.loop.params ▸ hseed) (hdata.loop.params ▸ hout)
    (by rwa [State.sinkSilent, hdata.sink])
  rw [State.setRunning_idx, State.setRunning_total, hidx]
  exact Nat.lt_min.mpr ⟨State.chans_pos _, htotal⟩

/-- The emission of a block's last sample under NONE: the block's one write is due (R642). -/
theorem emit_last_silent {s : State} (hp : s.phase ≠ .idle) (hlast : s.idx + 1 = s.total)
    (hout : s.params.partialOut = .wholeBlocks) (h : s.sinkSilent) :
    thenBlock (emit s) afterSample = .fault .sinkNeverAnswers := by
  have htotal : 0 < s.total := by omega
  rw [emit_waits hout, thenBlock_busy (t := s.sampleWaits) hp,
    afterSample_of_done (s := s.sampleWaits) (Nat.le_of_eq hlast.symm)]
  exact finishBlock_silent (s := s.sampleWaits) hout htotal h

/-- The step that emits a block's last sample under NONE (R642). -/
theorem step_last_sample_silent {s : State} (hdue : s.lastSampleDue) (hout : s.params.partialOut = .wholeBlocks)
    (h : s.sinkSilent) : step s = .fault .sinkNeverAnswers := by
  obtain ⟨hp, hlast, hcode⟩ := hdue
  have hbusy : s.phase ≠ .idle := by rw [hp]; nofun
  obtain ⟨n, u, _, hdata, hstep⟩ := blockStep_emits hp (by omega) hcode
  have hkeep : u.phase = s.phase ∧ u.idx = s.idx ∧ u.total = s.total := by rw [hdata]; exact ⟨rfl, rfl, rfl⟩
  obtain ⟨uphase, uidx, utotal⟩ := hkeep
  rw [step_busy_inBlock hbusy, hstep]
  exact emit_last_silent (by rwa [uphase]) (by rw [uidx, utotal, hlast]) (hdata.loop.params ▸ hout)
    (by rwa [State.sinkSilent, hdata.sink])

/-! ### Every request -/

/-- Settles O52: each command and each step reaches the request that its port leaves unanswered. -/
theorem unansweredRequestIsStuck : Obligations.UnansweredRequestIsStuck := by
  refine ⟨?header, ?table, ?rawRead, ?compressedRead, ?wavHeader, ?rawWrite,
    fun _ _ => exec_code_silent, fun _ _ => step_first_seed_silent, fun _ => finishBlock_silent,
    fun _ => step_last_sample_silent⟩
  case header =>
    intro s hp hsilent
    rw [exec_open_idle hp]
    exact openHeader_silent (s := s.cleared) hsilent
  case table =>
    intro s h rest hp ha hsilent hs hlen hlevel hpos hmax
    have hblocks : (parseHeader h).blocksInRange = true := (Header.blocksInRange_iff _).mpr ⟨hpos, hmax⟩
    rw [exec_open_loads hp ha hs hlen, openMode_compressed ?level ?range]
    case level => exact hlevel
    case range => exact hblocks
    exact openTable_silent hsilent
  case rawRead =>
    intro s hready hsilent
    rw [next_streaming hready]
    exact rawBlock_source_silent hsilent
  case compressedRead =>
    intro s hready hsilent hcur
    rw [← compressedLength_eq s hcur]
    refine ⟨fun hinner hlo hhi => ?inner, fun hlast hbound => ?last⟩
    case inner =>
      exact next_of_start_stuck hready ((startBlock_of_inner hinner).trans (startInnerBlock_silent hlo hhi hsilent))
    case last =>
      have hlast' : ¬ s.curBlock.toInt < s.hdr.blocks.toInt - 1 := by omega
      exact next_of_start_stuck hready ((startBlock_of_last hlast').trans (startFinalBlock_silent hbound hsilent))
  case wavHeader =>
    intro s hp hs hsilent
    rw [next_notStarted hp hs, nextHeader_silent hsilent]
  case rawWrite =>
    intro s hready hanswered hsilent inner size hwrites
    rw [next_streaming hready]
    refine rawBlock_sink_silent hanswered hsilent (hwrites.imp_right (And.imp_right fun hthere hn => ?_))
    have hinner : inner := s.notLastBlock_iff.mp hn
    rw [State.rawSize_eq, if_pos hinner]
    exact hthere hinner

end Sys2Proof.Machine
end
